-- ==== Sys2Proof/Word.lean ====
section
/-! DEFINITION. The word types of the core: every value the spec calls a bit vector (00_scope.md R6, R7). -/

namespace Sys2Proof

/-- A block: 128 bits, byte 0 the most significant byte (00_scope.md R7). -/
abbrev Block := BitVec 128

/-- One byte of a block, of a domain constant or of a response code. -/
abbrev Byte := BitVec 8

/-- One of the 32 nibbles of the cipher state (40_block_cipher.md R100). -/
abbrev Nibble := BitVec 4

/-- One round key `U ‖ V`, U in bits 63:32 (10_state.md R28). -/
abbrev RoundKey := BitVec 64

/-- The 6-bit round-constant register `c` (40_block_cipher.md R105). -/
abbrev RoundConst := BitVec 6

/-- The command word `CW` (30_encoding.md R72). -/
abbrev CmdWord := BitVec 32

/-- The response word `RW` (30_encoding.md R74). -/
abbrev RespWord := BitVec 32

end Sys2Proof
end

