-- ==== Sys2Proof/Config.lean ====
section
/-! DEFINITION. The parameters of the core (00_scope.md R5): the decided ones as a record of tables and functions, the OPEN ones
as plain data that the state carries. The values themselves stand in Machine/Tables.lean. -/

namespace Sys2Proof

/-- The kind of an ADBLK or MSGBLK command (42_mode_engine.md R157). -/
inductive Kind where
  | notLast
  | lastFull
  | lastPart
  | empty
deriving DecidableEq, Repr

/-- The row of the table of domain constants: associated data or message (42_mode_engine.md R160). -/
inductive Domain where
  | ad
  | msg
deriving DecidableEq, Repr

/-- The table `DC` of the eight domain constants (42_mode_engine.md R160). -/
structure DomainConstants where
  adNotLast : Byte
  adLastFull : Byte
  adLastPart : Byte
  adEmpty : Byte
  msgNotLast : Byte
  msgLastFull : Byte
  msgLastPart : Byte
  msgEmpty : Byte
deriving DecidableEq, Repr

/-- The two OPEN parameters of 00_scope.md R5, which "the model takes as an argument": the state carries them and no step writes
them (70_reset_and_hazards.md R251). `HOLD_BLOCKS` is stored less one, so that its range 1 .. 65536 (10_state.md R27) is the
type's. -/
structure OpenParams where
  dc : DomainConstants
  holdBlocksLessOne : Fin 65536
deriving DecidableEq, Repr

/-- The decided parameters of 00_scope.md R5. Every function of the cipher, the key schedule and the mode takes this record; the
machine uses `Machine.coreParams`. -/
structure Params where
  /-- `ROUNDS` (40_block_cipher.md R107) -/
  rounds : Nat
  /-- `GS`, the 4-bit S-box (R101) -/
  gs : Nibble → Nibble
  /-- `P128`: where bit i of the state moves (R103) -/
  p128 : Nat → Nat
  /-- `ARK_U_POS`: the state bit that receives bit i of U (R104) -/
  arkU : Nat → Nat
  /-- `ARK_V_POS`: the state bit that receives bit i of V (R104) -/
  arkV : Nat → Nat
  /-- the start value of the round-constant register (R105) -/
  rcStart : RoundConst
  /-- the update of the round-constant register (R105) -/
  rcNext : RoundConst → RoundConst
  /-- the state bit that receives bit i of the round constant (R106) -/
  rcPos : Nat → Nat
  /-- the constant bits that do not come from the register (R106) -/
  rcFixed : Block
  /-- `KS_*`: the round key selected from a key state (41_key_schedule.md R132) -/
  ksSelect : Block → RoundKey
  /-- `KS_*`: the next key state (R133) -/
  ksUpdate : Block → Block
  /-- `NONCE_BYTES` (42_mode_engine.md R151) -/
  nonceBytes : Nat
  /-- `DELTA_INIT` from the key and Y0 (R155) -/
  deltaInit : Block → Block → Block
  /-- `DBL_POLY`, the reduction constant of the doubling (R158) -/
  dblPoly : Block
  /-- `G`, the combining function (R159) -/
  g : Block → Block
  /-- `PAD_MARK` (R156) -/
  padMark : Byte
  /-- `KSTR`, the keystream function (R166) -/
  kstr : Block → Block

/-- `KEY_BYTES`: the key length the core accepts, fixed (00_scope.md R5). -/
def keyBytes : Nat := 16

/-- `BLOCK_BITS / 8`: the bytes of a block, fixed (00_scope.md R5). -/
def blockBytes : Nat := 16

/-- `TAG_BYTES`: the tag length, fixed (00_scope.md R5). -/
def tagBytes : Nat := 16

end Sys2Proof
end

