-- ==== Sys2Proof/Syntax.lean ====
section
/-! DEFINITION. The nine commands of the core (30_encoding.md R70), one constructor per row of the opcode table, and the command as
it stands at the port (R71). -/

namespace Sys2Proof

/-- The direction of an operation, register and field `DIR` (10_state.md R23): 0 encrypts, 1 decrypts and verifies. -/
inductive Dir where
  | enc
  | dec
deriving DecidableEq, Repr

/-- A command as the host presents it: the triple `(CW, DIN, KIN)`, sampled together (30_encoding.md R71). -/
structure Command where
  cw : CmdWord
  din : Block
  kin : Block
deriving DecidableEq, Repr

/-- One command with the operands it uses (30_encoding.md R73). Lengths and the block number are counts; `WellFormed` bounds them by
their fields. An operand the table calls "ignored" is no operand here, so no meaning can depend on it (20_memory.md R56; log 10, log 14). -/
inductive Instr where
  /-- ENCBLK, opcode 0x01 (40_block_cipher.md R110) -/
  | encblk (klen dlen : Nat) (din kin : Block)
  /-- INIT, opcode 0x02 (42_mode_engine.md R150) -/
  | init (dir : Dir) (klen nlen : Nat) (din kin : Block)
  /-- ADBLK, opcode 0x03 (42_mode_engine.md R161) -/
  | adblk (last : Bool) (len : Nat) (din : Block)
  /-- MSGBLK, opcode 0x04 (42_mode_engine.md R165) -/
  | msgblk (last : Bool) (len : Nat) (din : Block)
  /-- GETTAG, opcode 0x05 (43_tag_and_release.md R190) -/
  | gettag
  /-- VERIFY, opcode 0x06 (43_tag_and_release.md R193) -/
  | verify (len : Nat) (din : Block)
  /-- RDBUF, opcode 0x07 (43_tag_and_release.md R196) -/
  | rdbuf (idx : Nat)
  /-- CLEAR, opcode 0x08 (43_tag_and_release.md R191) -/
  | clear
  /-- RDSTAT, opcode 0x09 (43_tag_and_release.md R195) -/
  | rdstat
deriving DecidableEq, Repr

end Sys2Proof
end

