-- ==== Sys2Proof/WellFormed.lean ====
section
/-! DEFINITION. Which commands a command word can express: every count fits its field of `ARG` (30_encoding.md R72, R73). -/

namespace Sys2Proof

/-- A count that fits one byte of `ARG`: `KLEN`, `NLEN`, `DLEN` (30_encoding.md R73). -/
abbrev fitsByteField (n : Nat) : Prop := n < 256

/-- A count that fits the whole of `ARG`: `LEN`, `IDX` (30_encoding.md R73). -/
abbrev fitsArgField (n : Nat) : Prop := n < 65536

/-- The counts of the command fit their fields. Values a command's own checks reject (a LEN of 17, a KLEN of 15) are well formed:
they decode (30_encoding.md R78). -/
def Instr.wf : Instr → Bool
  | .encblk klen dlen _ _ => decide (fitsByteField klen) && decide (fitsByteField dlen)
  | .init _ klen nlen _ _ => decide (fitsByteField klen) && decide (fitsByteField nlen)
  | .adblk _ len _ => decide (fitsArgField len)
  | .msgblk _ len _ => decide (fitsArgField len)
  | .gettag => true
  | .verify len _ => decide (fitsArgField len)
  | .rdbuf idx => decide (fitsArgField idx)
  | .clear => true
  | .rdstat => true

/-- The command is one that a command word can express. -/
abbrev Instr.WellFormed (i : Instr) : Prop := i.wf = true

end Sys2Proof
end

