-- ==== Sys2Proof/Decode.lean ====
section
/-! DEFINITION. The decoder of the command word by mask and match (30_encoding.md R77 to R80), total, and the encoder by the word's
layout (R72, R73). -/

namespace Sys2Proof

/-- Flag bit i of the command word (30_encoding.md R72). -/
def cwFlag (cw : CmdWord) (i : Nat) : Bool := cw.getLsbD i

/-- The field `ARG[15:8]` as a count (30_encoding.md R73). -/
def argHigh (cw : CmdWord) : Nat := (cw.extractLsb' 8 8).toNat

/-- The field `ARG[7:0]` as a count (30_encoding.md R73). -/
def argLow (cw : CmdWord) : Nat := (cw.extractLsb' 0 8).toNat

/-- The field `ARG[15:0]` as a count (30_encoding.md R73). -/
def argWhole (cw : CmdWord) : Nat := (cw.extractLsb' 0 16).toNat

/-- The direction field, bit 17: 0 ENC, 1 DEC (30_encoding.md R72). -/
def cwDir (cw : CmdWord) : Dir := if cwFlag cw 17 then .dec else .enc

/-- The flag `LAST`, bit 16 (30_encoding.md R72). -/
def cwLast (cw : CmdWord) : Bool := cwFlag cw 16

/-- One row of the opcode map (30_encoding.md R77): the word selects the command when `CW & mask = match`. -/
structure OpcodeRow where
  matchWord : CmdWord
  mask : CmdWord
  build : Command → Instr

/-- The opcode map (30_encoding.md R77), in the table's order. -/
def opcodeRows : List OpcodeRow :=
  [ ⟨0x01000000#32, 0xFFFF0000#32, fun c => .encblk (argHigh c.cw) (argLow c.cw) c.din c.kin⟩,
    ⟨0x02000000#32, 0xFFFD0000#32, fun c => .init (cwDir c.cw) (argHigh c.cw) (argLow c.cw) c.din c.kin⟩,
    ⟨0x03000000#32, 0xFFFE0000#32, fun c => .adblk (cwLast c.cw) (argWhole c.cw) c.din⟩,
    ⟨0x04000000#32, 0xFFFE0000#32, fun c => .msgblk (cwLast c.cw) (argWhole c.cw) c.din⟩,
    ⟨0x05000000#32, 0xFFFFFFFF#32, fun _ => .gettag⟩,
    ⟨0x06000000#32, 0xFFFF0000#32, fun c => .verify (argWhole c.cw) c.din⟩,
    ⟨0x07000000#32, 0xFFFF0000#32, fun c => .rdbuf (argWhole c.cw)⟩,
    ⟨0x08000000#32, 0xFFFFFFFF#32, fun _ => .clear⟩,
    ⟨0x09000000#32, 0xFFFFFFFF#32, fun _ => .rdstat⟩ ]

/-- A word selects a row (30_encoding.md R77). -/
def rowSelects (cw : CmdWord) (r : OpcodeRow) : Bool := decide (cw &&& r.mask = r.matchWord)

/-- The decoder: total; `none` is an illegal word, which raises ERR_ILLEGAL (30_encoding.md R78, R79 step 1). -/
def decode (c : Command) : Option Instr :=
  match opcodeRows.find? (rowSelects c.cw) with
  | some r => some (r.build c)
  | none => none

/-- The one-bit value of a direction (10_state.md R23). -/
def dirBit : Dir → BitVec 1
  | .enc => 0#1
  | .dec => 1#1

/-- The layout of a command word: `OPC ‖ RSV0 ‖ DIR ‖ LAST ‖ ARG`, the reserved field zero (30_encoding.md R72). -/
def commandWord (opc : Byte) (dir : Dir) (last : Bool) (arg : BitVec 16) : CmdWord :=
  opc ++ 0#6 ++ dirBit dir ++ BitVec.ofBool last ++ arg

/-- Two counts in the two bytes of `ARG` (30_encoding.md R73). -/
def argPair (hi lo : Nat) : BitVec 16 := BitVec.ofNat 8 hi ++ BitVec.ofNat 8 lo

/-- The command the host presents for an instruction; an operand the core ignores is driven with zeros, which 20_memory.md R56
leaves to the host. -/
def encode : Instr → Command
  | .encblk klen dlen din kin => ⟨commandWord 0x01#8 .enc false (argPair klen dlen), din, kin⟩
  | .init dir klen nlen din kin => ⟨commandWord 0x02#8 dir false (argPair klen nlen), din, kin⟩
  | .adblk last len din => ⟨commandWord 0x03#8 .enc last (BitVec.ofNat 16 len), din, 0⟩
  | .msgblk last len din => ⟨commandWord 0x04#8 .enc last (BitVec.ofNat 16 len), din, 0⟩
  | .gettag => ⟨commandWord 0x05#8 .enc false 0, 0, 0⟩
  | .verify len din => ⟨commandWord 0x06#8 .enc false (BitVec.ofNat 16 len), din, 0⟩
  | .rdbuf idx => ⟨commandWord 0x07#8 .enc false (BitVec.ofNat 16 idx), 0, 0⟩
  | .clear => ⟨commandWord 0x08#8 .enc false 0, 0, 0⟩
  | .rdstat => ⟨commandWord 0x09#8 .enc false 0, 0, 0⟩

/-- The command whose bits are w, numbered as spec/opcode_table.json numbers them: CW is bits 31:0; DIN counts on from it as bits
159:32 and KIN as bits 287:160 (DESIGN CHOICE, log 11). Bits at or above nbits are zero. -/
def commandOfBits (nbits w : Nat) : Command :=
  let v := w % 2 ^ nbits
  ⟨BitVec.ofNat 32 v, BitVec.ofNat 128 (v >>> 32), BitVec.ofNat 128 (v >>> 160)⟩

/-- The instruction the decoder reads from an instruction's bits. -/
def decodeTableWord (nbits w : Nat) : Option Instr := decode (commandOfBits nbits w)

end Sys2Proof
end

