-- ==== Sys2Proof/Machine/Memory.lean ====
section
/-! DEFINITION. The hold buffer as memory (10_state.md R27, 20_memory.md R50): byte number k of the buffer is byte `k mod 16` of
`HOLD[k div 16]`. Held as (byte number, byte) pairs in one canonical form. -/

namespace Sys2Proof.Machine

/-- The contents of the hold buffer: the bytes that are not zero, by rising byte number (log 6). -/
abbrev Memory := List Host.Cell

/-- What an unlisted byte reads as: HOLD's reset value (10_state.md R36). -/
def unlistedByte : Byte := 0

/-- One byte of the buffer. -/
def Memory.read : Memory → Nat → Byte
  | [], _ => unlistedByte
  | (x, b) :: m, a => if x = a then b else Memory.read m a

/-- One byte written, the canonical form kept: writing what an unlisted byte reads as removes the entry. -/
def Memory.write : Memory → Nat → Byte → Memory
  | [], a, v => if v = unlistedByte then [] else [(a, v)]
  | (x, b) :: m, a, v =>
    if a < x then (if v = unlistedByte then (x, b) :: m else (a, v) :: (x, b) :: m)
    else if a = x then (if v = unlistedByte then m else (a, v) :: m)
    else (x, b) :: Memory.write m a v

/-- Every entry lies above `a`, addresses strictly rise, and no entry equals what an unlisted byte reads as. -/
def Memory.wfAbove (lower : Nat) : Memory → Bool
  | [] => true
  | (x, b) :: m => decide (lower ≤ x) && decide (b ≠ unlistedByte) && Memory.wfAbove (x + 1) m

/-- The canonical form: addresses strictly rising, no entry equal to what an unlisted byte reads as. -/
def Memory.wf (m : Memory) : Bool := Memory.wfAbove 0 m

/-- Byte j of a block, `B[127-8j : 120-8j]` (00_scope.md R7). -/
def blockByte (b : Block) (j : Nat) : Byte := b.extractLsb' (120 - 8 * j) 8

/-- The first n bytes of `f` as the low bytes of a block, byte 0 the most significant of them. -/
def packBytes (f : Nat → Byte) : Nat → Block
  | 0 => 0
  | n + 1 => (packBytes f n <<< 8) ||| (f n).setWidth 128

/-- The block whose byte j is `f j`, big-endian (20_memory.md R52). -/
def blockOfBytes (f : Nat → Byte) : Block := packBytes f 16

/-- `f 0 .. f (n-1)` written to the n bytes from `base` on. -/
def Memory.writeBytes (m : Memory) (base : Nat) (f : Nat → Byte) : Nat → Memory
  | 0 => m
  | n + 1 => Memory.write (Memory.writeBytes m base f n) (base + n) (f n)

/-- The block `HOLD[i]` (10_state.md R27). -/
def Memory.readBlock (m : Memory) (i : Nat) : Block := blockOfBytes (fun j => Memory.read m (16 * i + j))

/-- The block `HOLD[i]` replaced (10_state.md R27). -/
def Memory.writeBlock (m : Memory) (i : Nat) (v : Block) : Memory := Memory.writeBytes m (16 * i) (blockByte v) 16

end Sys2Proof.Machine
end

