-- ==== Sys2Proof/Machine/Tables.lean ====
section
/-! DEFINITION. The values of the parameters: the decided ones (00_scope.md R5, 92_eei_decisions.md D13 to D23, D35), which the spec
takes from general knowledge of the published cipher (93_implementation_defined.md section 1; UNVERIFIED, log 5), and the defaults
of the OPEN ones (DESIGN CHOICE, log 4). -/

namespace Sys2Proof.Machine

/-- Bit i of a value moved to bit `pos i` of a block, for every i below n; positions that coincide are added modulo 2. The one
bit-moving helper of the cipher. -/
def scatter (pos : Nat → Nat) (bit : Nat → Bool) : Nat → Block
  | 0 => 0
  | i + 1 => scatter pos bit i ^^^ (if bit i then 1#128 <<< pos i else 0)

/-- The S-box `GS` (40_block_cipher.md R101). UNVERIFIED, log 5. -/
def sbox (x : Nibble) : Nibble :=
  [0x1#4, 0xa, 0x4, 0xc, 0x6, 0xf, 0x3, 0x9, 0x2, 0xd, 0xb, 0x7, 0x5, 0x0, 0x8, 0xe].getD x.toNat 0

/-- The bit permutation `P128` by its formula (40_block_cipher.md R103). UNVERIFIED, log 5. -/
def bitPosition (i : Nat) : Nat :=
  4 * (i / 16) + 32 * ((3 * ((i % 16) / 4) + i % 4) % 4) + i % 4

/-- Where bit i of U enters the state (40_block_cipher.md R104). UNVERIFIED, log 5. -/
def subkeyPositionU (i : Nat) : Nat := 4 * i + 2

/-- Where bit i of V enters the state (40_block_cipher.md R104). UNVERIFIED, log 5. -/
def subkeyPositionV (i : Nat) : Nat := 4 * i + 1

/-- The update of the round-constant register: `c ← ((c << 1) & 0x3F) | (c[5] ⊕ c[4] ⊕ 1)` (40_block_cipher.md R105). UNVERIFIED,
log 5. -/
def nextRoundConst (c : RoundConst) : RoundConst :=
  (c <<< 1) ||| (if c.getLsbD 5 ^^ c.getLsbD 4 ^^ true then 1#6 else 0#6)

/-- Where bit i of the round constant enters the state: 23, 19, 15, 11, 7, 3 for bits 5 .. 0 (40_block_cipher.md R106). -/
def constPosition (i : Nat) : Nat := 4 * i + 3

/-- The fixed 1 into bit 127 of every round (40_block_cipher.md R106; 90_conflicts.md C4). -/
def fixedConstBit : Block := 1#128 <<< 127

/-- The selected round key `U ‖ V`, `U = KST[95:64]`, `V = KST[31:0]` (41_key_schedule.md R132). UNVERIFIED, log 5. -/
def selectRoundKey (kst : Block) : RoundKey := kst.extractLsb' 64 32 ++ kst.extractLsb' 0 32

/-- The update of the key state (41_key_schedule.md R133). UNVERIFIED, log 5. -/
def nextKeyState (kst : Block) : Block :=
  (kst.extractLsb' 16 16).rotateRight 2 ++ (kst.extractLsb' 0 16).rotateRight 12 ++ kst.extractLsb' 32 96

/-- The initial mask `Y0[127:64] ‖ 0^64`; the key enters only through Y0 (42_mode_engine.md R155). UNVERIFIED, log 5. -/
def initialMask (_key y0 : Block) : Block := y0.extractLsb' 64 64 ++ 0#64

/-- The combining function `G(Y) = Y[63:0] ‖ rotl64(Y[127:64], 1)` (42_mode_engine.md R159). UNVERIFIED, log 5. -/
def combine (y : Block) : Block := y.extractLsb' 0 64 ++ (y.extractLsb' 64 64).rotateLeft 1

/-- The parameters of this hardware: every decided parameter at its decided value (00_scope.md R5). `KSTR = G`, the document's
reading (42_mode_engine.md R166; 90_conflicts.md C13). -/
def coreParams : Params where
  rounds := 40
  gs := sbox
  p128 := bitPosition
  arkU := subkeyPositionU
  arkV := subkeyPositionV
  rcStart := 0#6
  rcNext := nextRoundConst
  rcPos := constPosition
  rcFixed := fixedConstBit
  ksSelect := selectRoundKey
  ksUpdate := nextKeyState
  nonceBytes := 16
  deltaInit := initialMask
  dblPoly := 0x87#128
  g := combine
  padMark := 0x80#8
  kstr := combine

/-- The default table of domain constants (42_mode_engine.md R160, 92_eei_decisions.md D24). DESIGN CHOICE of the spec's own default
for State.reset, log 4. -/
def defaultDomainConstants : DomainConstants where
  adNotLast := 0x01
  adLastFull := 0x02
  adLastPart := 0x03
  adEmpty := 0x04
  msgNotLast := 0x05
  msgLastFull := 0x06
  msgLastPart := 0x07
  msgEmpty := 0x08

/-- The OPEN parameters State.reset carries: the default `DC` and `HOLD_BLOCKS = 4`, what the test vectors use
(95_test_vectors.md, reading conventions). DESIGN CHOICE, log 4: no statement rests on these values. -/
def defaultOpenParams : OpenParams := ⟨defaultDomainConstants, 3⟩

/-- `HOLD_BLOCKS`, between 1 and 65536 (10_state.md R27). -/
def holdBlocks (cfg : OpenParams) : Nat := cfg.holdBlocksLessOne.val + 1

/-- `DC[phase, kind]` (42_mode_engine.md R160). -/
def domainConst (dc : DomainConstants) : Domain → Kind → Byte
  | .ad, .notLast => dc.adNotLast
  | .ad, .lastFull => dc.adLastFull
  | .ad, .lastPart => dc.adLastPart
  | .ad, .empty => dc.adEmpty
  | .msg, .notLast => dc.msgNotLast
  | .msg, .lastFull => dc.msgLastFull
  | .msg, .lastPart => dc.msgLastPart
  | .msg, .empty => dc.msgEmpty

end Sys2Proof.Machine
end

