-- ==== Sys2Proof/Machine/State.lean ====
section
/-! DEFINITION. The state of the machine: the nine registers (10_state.md R21), the two ports (R38) and the OPEN parameters
(00_scope.md R5); the ways a step can stop; the state after reset (10_state.md R36). -/

namespace Sys2Proof.Machine

/-- The register `PHASE` (10_state.md R22). Five-valued: the values 5 to 7 are never written
(93_implementation_defined.md U1, log 8). -/
inductive Phase where
  | idle
  | ad
  | msg
  | fin
  | rel
deriving DecidableEq, Repr

/-- The nine response codes (30_encoding.md R75); 0x09 to 0xFF are never produced (93_implementation_defined.md U7, log 8). -/
inductive Code where
  | ok
  | errKeylen
  | errNoncelen
  | errAuth
  | errIllegal
  | errSeq
  | errLen
  | errOverflow
  | errRange
deriving DecidableEq, Repr

/-- A response: the fields of `RW` that are not constant, and `DOUT` (30_encoding.md R74); `respond(code, dout, dlen)` of
00_scope.md R8. -/
structure Response where
  code : Code
  dout : Block
  dlen : Nat
deriving DecidableEq, Repr

/-- What the host can do to the core (00_scope.md R9): present a command or assert reset. -/
inductive HostEvent where
  | command (c : Command)
  | reset
deriving DecidableEq, Repr

/-- The state of one core. -/
structure State where
  /-- `PHASE`, 3 bits (10_state.md R22) -/
  phase : Phase
  /-- `DIR`, 1 bit (10_state.md R23) -/
  dir : Dir
  /-- `FIRST`, 1 bit (10_state.md R24) -/
  first : Bool
  /-- `Y`, 128 bits (10_state.md R25) -/
  y : Block
  /-- `DELTA`, 128 bits (10_state.md R26) -/
  delta : Block
  /-- `RK[0..ROUNDS-1]`, 64 bits each (10_state.md R28, log 9) -/
  rk : List RoundKey
  /-- `HOLD[0..HOLD_BLOCKS-1]`, by bytes (10_state.md R27, log 6) -/
  hold : Memory
  /-- `HOLDLEN`, 32 bits (10_state.md R27) -/
  holdlen : BitVec 32
  /-- `LASTCODE`, 8 bits (10_state.md R29) -/
  lastcode : Code
  /-- the MODEL's own field: the OPEN parameters, which no step writes (00_scope.md R5, log 4) -/
  cfg : OpenParams
  /-- the MODEL's own field: the command port, as what the host does next, oldest first (30_encoding.md R71, log 1) -/
  pending : List HostEvent
  /-- the MODEL's own field: the response port; absent before the first response and after reset (10_state.md R38, log 2) -/
  resp : Option Response
deriving DecidableEq, Repr

/-- Why a step stops. -/
inductive Fault where
  /-- Raised by MemRead and MemWrite for a block number at or past HOLD_BLOCKS, for which 20_memory.md R55 defines nothing
  (93_implementation_defined.md U11, log 7). Safe: the machine stops, and no state that meets the invariant of 10_state.md R35
  reaches it. -/
  | holdBlockOutside (block : Nat)
deriving DecidableEq, Repr

/-- Why an instruction has no meaning in the model. -/
inductive Refusal where
  /-- Raised by an arm of exec whose instruction has no meaning yet; no arm raises it now. Safe: the machine stops. -/
  | notModelled (mnemonic : String)
deriving DecidableEq, Repr

/-- The outcome of a meaning and of a step. -/
abbrev Result := Host.Outcome State Fault Refusal

/-- `RK` with every round key zero, for a core of p's round count (10_state.md R31, R36). -/
def zeroRoundKeys (p : Params) : List RoundKey := List.replicate p.rounds 0

/-- A machine with parameters p right after reset (10_state.md R36): every register zero, PHASE = IDLE, LASTCODE = OK; no response
yet (R38), nothing presented (log 1), the OPEN parameters at their defaults (DESIGN CHOICE, log 4). -/
def State.resetWith (p : Params) : State where
  phase := .idle
  dir := .enc
  first := false
  y := 0
  delta := 0
  rk := zeroRoundKeys p
  hold := []
  holdlen := 0
  lastcode := .ok
  cfg := defaultOpenParams
  pending := []
  resp := none

/-- The machine right after reset (10_state.md R36), the decided parameters at their decided values. -/
def State.reset : State := State.resetWith coreParams

end Sys2Proof.Machine
end

