-- ==== Sys2Proof/Machine/Flags.lean ====
section
/-! DEFINITION. The encodings of the sequencing state and of the responses, and the status word: the core has no condition code
(10_state.md R24), its flags are PHASE, DIR, FIRST and LASTCODE. -/

namespace Sys2Proof.Machine

/-- The 3-bit value of PHASE (10_state.md R22). -/
def phaseBits : Phase → BitVec 3
  | .idle => 0
  | .ad => 1
  | .msg => 2
  | .fin => 3
  | .rel => 4

/-- The 8-bit value of a response code (30_encoding.md R75). -/
def codeByte : Code → Byte
  | .ok => 0x00
  | .errKeylen => 0x01
  | .errNoncelen => 0x02
  | .errAuth => 0x03
  | .errIllegal => 0x04
  | .errSeq => 0x05
  | .errLen => 0x06
  | .errOverflow => 0x07
  | .errRange => 0x08

/-- The response word `RW = CODE ‖ 0^19 ‖ DLEN` (30_encoding.md R74). -/
def responseWord (r : Response) : RespWord := codeByte r.code ++ 0#19 ++ BitVec.ofNat 5 r.dlen

/-- The status word: `HOLDLEN ‖ 0^16 ‖ LASTCODE ‖ 0^3 ‖ FIRST ‖ DIR ‖ PHASE`, zero-extended to 128 bits (10_state.md R30,
43_tag_and_release.md R195). -/
def statusWord (s : State) : Block :=
  0#64 ++ s.holdlen ++ 0#16 ++ codeByte s.lastcode ++ 0#3 ++ BitVec.ofBool s.first ++ dirBit s.dir ++ phaseBits s.phase

/-- The phase after an accepted ADBLK (42_mode_engine.md R161). -/
def phaseAfterAd (last : Bool) (p : Phase) : Phase := if last then .msg else p

/-- FIRST after an accepted ADBLK: 1 when the command was the last of its phase, so that phase MSG begins (10_state.md R24). -/
def firstAfterAd (last : Bool) : Bool := last

/-- The phase after an accepted MSGBLK (42_mode_engine.md R165). -/
def phaseAfterMsg (last : Bool) (p : Phase) : Phase := if last then .fin else p

end Sys2Proof.Machine
end

