-- ==== Sys2Proof/Machine/Cipher.lean ====
section
/-! DEFINITION. Unit BC, the block cipher E (40_block_cipher.md R100 to R108), for any parameters. -/

namespace Sys2Proof.Machine

/-- Nibble `w_i = S[4i+3 : 4i]` of the cipher state (40_block_cipher.md R100). -/
def nibble (s : Block) (i : Nat) : Nibble := s.extractLsb' (4 * i) 4

/-- The nibbles below n, each through the S-box. -/
def subNibbles (p : Params) (s : Block) : Nat → Block
  | 0 => 0
  | i + 1 => subNibbles p s i ||| ((p.gs (nibble s i)).setWidth 128 <<< (4 * i))

/-- `SubCells(S)`: all 32 nibbles through the S-box (40_block_cipher.md R102). -/
def subCells (p : Params) (s : Block) : Block := subNibbles p s 32

/-- `PermBits(S)`: bit i moves to position `P128(i)` (40_block_cipher.md R103). -/
def permBits (p : Params) (s : Block) : Block := scatter p.p128 s.getLsbD 128

/-- `KMASK(k)`: the round key's bits at the positions they are added to (40_block_cipher.md R104, R112). -/
def keyMask (p : Params) (k : RoundKey) : Block :=
  scatter p.arkU (k.extractLsb' 32 32).getLsbD 32 ^^^ scatter p.arkV (k.extractLsb' 0 32).getLsbD 32

/-- `AddRoundKey(S, U, V)` (40_block_cipher.md R104). -/
def addRoundKey (p : Params) (s : Block) (k : RoundKey) : Block := s ^^^ keyMask p k

/-- `CMASK(c)`: the six bits of c at their positions and the fixed bit (40_block_cipher.md R106). -/
def constMask (p : Params) (c : RoundConst) : Block := p.rcFixed ^^^ scatter p.rcPos c.getLsbD 6

/-- `AddConstant(S, c)` (40_block_cipher.md R106). -/
def addConstant (p : Params) (s : Block) (c : RoundConst) : Block := s ^^^ constMask p c

/-- One round: the four steps in order (40_block_cipher.md R108, R112). -/
def cipherRound (p : Params) (s : Block) (k : RoundKey) (c : RoundConst) : Block :=
  addConstant p (addRoundKey p (permBits p (subCells p s)) k) c

/-- The rounds from a value of the round-constant register on: the register steps before it is used (40_block_cipher.md R105,
R108). -/
def cipherRounds (p : Params) : List RoundKey → RoundConst → Block → Block
  | [], _, s => s
  | k :: rk, c, s => cipherRounds p rk (p.rcNext c) (cipherRound p s k (p.rcNext c))

/-- `E(rk, X)`, one round per round key (40_block_cipher.md R108). -/
def cipherE (p : Params) (rk : List RoundKey) (x : Block) : Block := cipherRounds p rk p.rcStart x

/-- The slice word `SL_j(S)`: bit j of every nibble (40_block_cipher.md R100). -/
def sliceWord (s : Block) (j : Nat) : BitVec 32 := (scatter (fun i => i) (fun i => s.getLsbD (4 * i + j)) 32).setWidth 32

end Sys2Proof.Machine
end

