-- ==== Sys2Proof/Machine/KeySchedule.lean ====
section
/-! DEFINITION. Unit KS, the key schedule (41_key_schedule.md R130 to R134), for any parameters. -/

namespace Sys2Proof.Machine

/-- The next n round keys from a key state: select, then update (41_key_schedule.md R134). -/
def expandFrom (p : Params) : Nat → Block → List RoundKey
  | 0, _ => []
  | n + 1, kst => p.ksSelect kst :: expandFrom p n (p.ksUpdate kst)

/-- `expand(K)`: ROUNDS round keys, the first from K itself (41_key_schedule.md R134). -/
def expand (p : Params) (key : Block) : List RoundKey := expandFrom p p.rounds key

end Sys2Proof.Machine
end

