-- ==== Sys2Proof/Machine/Operands.lean ====
section
/-! DEFINITION. What a command makes of its operands: the cut to the valid bytes, the padding, the length checks and the kind of a
block (42_mode_engine.md R156, R157). -/

namespace Sys2Proof.Machine

/-- `trunc(B, n)`: bytes 0 .. n-1 kept, the others zero (42_mode_engine.md R156). -/
def trunc (b : Block) (n : Nat) : Block := (b >>> (8 * (16 - n))) <<< (8 * (16 - n))

/-- `pad(B, n)`: for n < 16 the first n bytes, the marker, zeros; a full block unchanged (42_mode_engine.md R156). -/
def pad (p : Params) (b : Block) (n : Nat) : Block :=
  if n < 16 then trunc b n ||| (p.padMark.setWidth 128 <<< (8 * (15 - n))) else b

/-- The three length checks of a block command, in order, each ERR_LEN (42_mode_engine.md R157). -/
def lengthChecks (first last : Bool) (len : Nat) : List (Bool × Code) :=
  [ (decide (len ≤ 16), .errLen),
    (last || decide (len = 16), .errLen),
    (first || decide (len ≠ 0), .errLen) ]

/-- The kind of a block command that passed the length checks (42_mode_engine.md R157). -/
def blockKind (last : Bool) (len : Nat) : Kind :=
  if len = 0 then .empty else if len = 16 then (if last then .lastFull else .notLast) else .lastPart

end Sys2Proof.Machine
end

