-- ==== Sys2Proof/Machine/Mode.lean ====
section
/-! DEFINITION. Unit ME, the arithmetic of the feedback mode (42_mode_engine.md R155 to R166), for any parameters. -/

namespace Sys2Proof.Machine

/-- `dbl(D)`, doubling in GF(2^128) (42_mode_engine.md R158). -/
def dbl (p : Params) (d : Block) : Block := (d <<< 1) ^^^ (if d.getLsbD 127 then p.dblPoly else 0)

/-- The mask of this block: doubled, then the domain constant into bits 7:0 (42_mode_engine.md R160, R164). -/
def nextMask (p : Params) (c : Byte) (d : Block) : Block := dbl p d ^^^ c.setWidth 128

/-- The cipher input of a block step: `pad(B, n) ⊕ G(Y) ⊕ Δ'` (42_mode_engine.md R161, R162, R165). -/
def cipherInput (p : Params) (b : Block) (n : Nat) (y mask : Block) : Block := pad p b n ^^^ p.g y ^^^ mask

/-- The chaining value after a block step (42_mode_engine.md R161, R165): one call of E. -/
def nextY (p : Params) (rk : List RoundKey) (b : Block) (n : Nat) (y mask : Block) : Block :=
  cipherE p rk (cipherInput p b n y mask)

/-- The block exclusive-ored with the keystream `KSTR(Y)`, cut to n bytes (42_mode_engine.md R165, R166). -/
def streamXor (p : Params) (b : Block) (n : Nat) (y : Block) : Block := trunc (b ^^^ p.kstr y) n

/-- The plaintext of a message block: the operand when encrypting, recovered when decrypting (42_mode_engine.md R165). -/
def messagePlain (p : Params) (dir : Dir) (b : Block) (n : Nat) (y : Block) : Block :=
  match dir with
  | .enc => trunc b n
  | .dec => streamXor p b n y

end Sys2Proof.Machine
end

