-- ==== Sys2Proof/Machine/Ops.lean ====
section
/-! DEFINITION. The named operations over the registers, the hold buffer and the ports: zeroisation, the two ways a command ends, the
abort every fault takes, the memory primitives, and what a step does around a command. What clears or reads the round keys takes the
parameters (00_scope.md R5). -/

namespace Sys2Proof.Machine

/-- `zeroise()`: every register but LASTCODE to its reset value (10_state.md R31). -/
def zeroise (p : Params) (s : State) : State :=
  { s with
    phase := .idle
    dir := .enc
    first := false
    y := 0
    delta := 0
    rk := zeroRoundKeys p
    hold := []
    holdlen := 0 }

/-- The response port after `respond(c, d, n)` (00_scope.md R8, 30_encoding.md R74). -/
def respond (c : Code) (d : Block) (n : Nat) (s : State) : State := { s with resp := some ⟨c, d, n⟩ }

/-- A command ends normally with data d of n valid bytes: LASTCODE becomes OK (10_state.md R29). -/
def complete (d : Block) (n : Nat) (s : State) : State := respond .ok d n { s with lastcode := .ok }

/-- TAKING A FAULT, the abort: `zeroise()`, `LASTCODE <- code`, the response `(code, 0^128, 0)`; nothing is saved and control goes
nowhere (60_exceptions.md R224). There is no return from a fault (R226). -/
def abort (p : Params) (c : Code) (s : State) : State := respond c 0 0 { zeroise p s with lastcode := c }

/-- The code of the first check that fails (60_exceptions.md R223). -/
def firstFailed : List (Bool × Code) → Option Code
  | [] => none
  | (holds, c) :: rest => if holds then firstFailed rest else some c

/-- A command with its checks, in order: the first that fails raises its fault, and the command has no other effect
(60_exceptions.md R223, R225); else it is accepted. -/
def guarded (p : Params) (checks : List (Bool × Code)) (s : State) (accepted : Result) : Result :=
  match firstFailed checks with
  | some c => .next (abort p c s)
  | none => accepted

/-- `HOLD_BLOCKS` of this core. -/
def State.holdBlocks (s : State) : Nat := Sys2Proof.Machine.holdBlocks s.cfg

/-- The capacity of the hold buffer in bytes, `16·HOLD_BLOCKS` (10_state.md R27). -/
def State.holdBytes (s : State) : Nat := 16 * s.holdBlocks

/-- `MemRead(i, n)`: the top n bytes of `HOLD[i]`, the rest zero; `none` outside the buffer, where it is not defined
(20_memory.md R55, log 7). -/
def memRead (s : State) (i n : Nat) : Option Block :=
  if i < s.holdBlocks then some (trunc (Memory.readBlock s.hold i) n) else none

/-- `MemWrite(i, n, v)`: `HOLD[i] <- trunc(v, n)`; `none` outside the buffer, where it is not defined (20_memory.md R55, log 7). -/
def memWrite (s : State) (i n : Nat) (v : Block) : Option State :=
  if i < s.holdBlocks then some { s with hold := Memory.writeBlock s.hold i (trunc v n) } else none

/-- The block number the next recovered plaintext goes to, `HOLDLEN div 16` (42_mode_engine.md R165). -/
def holdWriteBlock (s : State) : Nat := s.holdlen.toNat / 16

/-- Recovered plaintext put into the hold buffer: nothing for an empty block (42_mode_engine.md R165). -/
def holdAppend (n : Nat) (v : Block) (s : State) : Option State :=
  if n = 0 then some s
  else
    match memWrite s (holdWriteBlock s) n v with
    | some t => some { t with holdlen := t.holdlen + BitVec.ofNat 32 n }
    | none => none

/-- The command or reset at the head of the port is sampled: the rest is still to come (10_state.md R38). -/
def sampled (rest : List HostEvent) (s : State) : State := { s with pending := rest }

/-- The reset event: `zeroise()`, `LASTCODE <- 0x00`, no response until the next command (70_reset_and_hazards.md R250,
10_state.md R38); the parameters stay (R251). -/
def resetEvent (p : Params) (s : State) : State := { zeroise p s with lastcode := .ok, resp := none }

/-- The host presents nothing: the core stays as it is (60_exceptions.md R235, log 3). -/
def idleStep (s : State) : State := s

/-- One step of a core with parameters p whose decoded commands run by `run`: a command is decoded and executed, an illegal word
raises ERR_ILLEGAL (30_encoding.md R79); reset takes effect between commands (60_exceptions.md R228); with nothing presented the core
stays as it is (R235). -/
def takeEvent (p : Params) (run : Instr → State → Result) (s : State) : Result :=
  match s.pending with
  | [] => .next (idleStep s)
  | .reset :: rest => .next (resetEvent p (sampled rest s))
  | .command c :: rest =>
    match decode c with
    | some i => run i (sampled rest s)
    | none => .next (abort p .errIllegal (sampled rest s))

/-- The host presents a command next, before what it would have done. -/
def State.present (c : Command) (s : State) : State := { s with pending := .command c :: s.pending }

end Sys2Proof.Machine
end

