-- ==== Sys2Proof/Machine/UnitBC.lean ====
section
/-! DEFINITION. The command of unit BC, ENCBLK (40_block_cipher.md R110): for any parameters, then at this hardware's. -/

namespace Sys2Proof.Machine

/-- ENCBLK: one block encrypted under a key, nothing kept (40_block_cipher.md R110). -/
def execEncblkWith (p : Params) (klen dlen : Nat) (din kin : Block) (s : State) : Result :=
  guarded p
    [ (decide (s.phase = .idle), .errSeq),
      (decide (klen = keyBytes), .errKeylen),
      (decide (dlen = blockBytes), .errLen) ] s
    (.next (complete (cipherE p (expand p kin) din) 16 s))

/-- ENCBLK of this hardware. -/
def execEncblk (klen dlen : Nat) (din kin : Block) (s : State) : Result := execEncblkWith coreParams klen dlen din kin s

end Sys2Proof.Machine
end

