-- ==== Sys2Proof/Machine/UnitME.lean ====
section
/-! DEFINITION. The commands of unit ME, the feedback mode engine: INIT, ADBLK, MSGBLK (42_mode_engine.md R150, R161, R165): for any
parameters, then at this hardware's. -/

namespace Sys2Proof.Machine

/-- An accepted INIT: round keys, Y0 and the initial mask (42_mode_engine.md R150, R155). -/
def initAccept (p : Params) (dir : Dir) (din kin : Block) (s : State) : State :=
  complete 0 0
    { s with
      rk := expand p kin
      y := cipherE p (expand p kin) din
      delta := p.deltaInit kin (cipherE p (expand p kin) din)
      dir := dir
      first := true
      phase := .ad }

/-- INIT: begin an operation (42_mode_engine.md R150; key length before nonce length, R152). -/
def execInitWith (p : Params) (dir : Dir) (klen nlen : Nat) (din kin : Block) (s : State) : Result :=
  guarded p
    [ (decide (s.phase = .idle), .errSeq),
      (decide (klen = keyBytes), .errKeylen),
      (decide (nlen = p.nonceBytes), .errNoncelen) ] s
    (.next (initAccept p dir din kin s))

/-- INIT of this hardware. -/
def execInit (dir : Dir) (klen nlen : Nat) (din kin : Block) (s : State) : Result :=
  execInitWith coreParams dir klen nlen din kin s

/-- The mask an ADBLK or MSGBLK of this kind uses and stores (42_mode_engine.md R164). -/
def blockMask (p : Params) (dom : Domain) (last : Bool) (len : Nat) (s : State) : Block :=
  nextMask p (domainConst s.cfg.dc dom (blockKind last len)) s.delta

/-- An accepted ADBLK (42_mode_engine.md R161). -/
def adblkAccept (p : Params) (last : Bool) (len : Nat) (din : Block) (s : State) : State :=
  complete 0 0
    { s with
      y := nextY p s.rk din len s.y (blockMask p .ad last len s)
      delta := blockMask p .ad last len s
      first := firstAfterAd last
      phase := phaseAfterAd last s.phase }

/-- ADBLK: absorb one block of associated data (42_mode_engine.md R161). -/
def execAdblkWith (p : Params) (last : Bool) (len : Nat) (din : Block) (s : State) : Result :=
  guarded p ((decide (s.phase = .ad), .errSeq) :: lengthChecks s.first last len) s
    (.next (adblkAccept p last len din s))

/-- ADBLK of this hardware. -/
def execAdblk (last : Bool) (len : Nat) (din : Block) (s : State) : Result := execAdblkWith coreParams last len din s

/-- What an accepted MSGBLK writes in either direction; `plain` is the plaintext block (42_mode_engine.md R165). -/
def msgblkChain (p : Params) (last : Bool) (len : Nat) (plain : Block) (s : State) : State :=
  { s with
    y := nextY p s.rk plain len s.y (blockMask p .msg last len s)
    delta := blockMask p .msg last len s
    first := false
    phase := phaseAfterMsg last s.phase }

/-- The capacity check of MSGBLK, direction DEC only (42_mode_engine.md R165 check 4). -/
def holdFits (len : Nat) (s : State) : Bool :=
  decide (s.dir = .enc) || decide (s.holdlen.toNat + len ≤ s.holdBytes)

/-- An accepted MSGBLK: the ciphertext block answered (ENC), or the recovered plaintext held back (DEC)
(42_mode_engine.md R165). -/
def msgblkAccept (p : Params) (last : Bool) (len : Nat) (din : Block) (s : State) : Result :=
  match s.dir with
  | .enc =>
    .next (complete (streamXor p din len s.y) len
      (msgblkChain p last len (messagePlain p .enc din len s.y) s))
  | .dec =>
    match holdAppend len (messagePlain p .dec din len s.y)
        (msgblkChain p last len (messagePlain p .dec din len s.y) s) with
    | some t => .next (complete 0 0 t)
    | none => .fault (.holdBlockOutside (holdWriteBlock s))

/-- MSGBLK: process one block of the message (42_mode_engine.md R165). -/
def execMsgblkWith (p : Params) (last : Bool) (len : Nat) (din : Block) (s : State) : Result :=
  guarded p
    ((decide (s.phase = .msg), .errSeq) :: (lengthChecks s.first last len ++ [(holdFits len s, .errOverflow)])) s
    (msgblkAccept p last len din s)

/-- MSGBLK of this hardware. -/
def execMsgblk (last : Bool) (len : Nat) (din : Block) (s : State) : Result := execMsgblkWith coreParams last len din s

end Sys2Proof.Machine
end

