-- ==== Sys2Proof/Machine/UnitTR.lean ====
section
/-! DEFINITION. The commands of the tag and release part: GETTAG, VERIFY, RDBUF, CLEAR, RDSTAT (43_tag_and_release.md): for any
parameters, then at this hardware's. -/

namespace Sys2Proof.Machine

/-- GETTAG: deliver the tag and end the operation (43_tag_and_release.md R190). -/
def execGettagWith (p : Params) (s : State) : Result :=
  guarded p
    [ (decide (s.phase = .fin), .errSeq),
      (decide (s.dir = .enc), .errSeq) ] s
    (.next (complete s.y 16 (zeroise p s)))

/-- GETTAG of this hardware. -/
def execGettag (s : State) : Result := execGettagWith coreParams s

/-- What a VERIFY that matched leaves: HOLD, HOLDLEN and DIR are kept (43_tag_and_release.md R193). -/
def verifyAccept (p : Params) (s : State) : State :=
  complete 0 0
    { s with
      rk := zeroRoundKeys p
      y := 0
      delta := 0
      first := false
      phase := .rel }

/-- VERIFY: compare the supplied tag, release or destroy the plaintext (43_tag_and_release.md R193, R198). -/
def execVerifyWith (p : Params) (len : Nat) (din : Block) (s : State) : Result :=
  guarded p
    [ (decide (s.phase = .fin), .errSeq),
      (decide (s.dir = .dec), .errSeq),
      (decide (len = tagBytes), .errLen),
      (decide (din = s.y), .errAuth) ] s
    (.next (verifyAccept p s))

/-- VERIFY of this hardware. -/
def execVerify (len : Nat) (din : Block) (s : State) : Result := execVerifyWith coreParams len din s

/-- The valid bytes of held block idx: `min(16, HOLDLEN - 16·IDX)` (43_tag_and_release.md R196). -/
def heldBytes (idx : Nat) (s : State) : Nat := min 16 (s.holdlen.toNat - 16 * idx)

/-- RDBUF: read one block of verified plaintext (43_tag_and_release.md R196). -/
def execRdbufWith (p : Params) (idx : Nat) (s : State) : Result :=
  guarded p
    [ (decide (s.phase = .rel), .errSeq),
      (decide (16 * idx < s.holdlen.toNat), .errRange) ] s
    (match memRead s idx (heldBytes idx s) with
      | some d => .next (complete d (heldBytes idx s) s)
      | none => .fault (.holdBlockOutside idx))

/-- RDBUF of this hardware. -/
def execRdbuf (idx : Nat) (s : State) : Result := execRdbufWith coreParams idx s

/-- CLEAR: wipe the core and return to IDLE; legal in every phase (43_tag_and_release.md R191). -/
def execClearWith (p : Params) (s : State) : Result := .next (complete 0 0 (zeroise p s))

/-- CLEAR of this hardware. -/
def execClear (s : State) : Result := execClearWith coreParams s

/-- RDSTAT: answer the status word; writes no register, not even LASTCODE (43_tag_and_release.md R195). No parameter enters it. -/
def execRdstat (s : State) : Result := .next (respond .ok (statusWord s) 16 s)

end Sys2Proof.Machine
end

