-- ==== Sys2Proof/Machine/Dispatch.lean ====
section
/-! DEFINITION. One arm per command (30_encoding.md R70). -/

namespace Sys2Proof.Machine

def exec (i : Instr) (s : State) : Host.Outcome State Fault Refusal :=
  match i with
  | .encblk klen dlen din kin => Sys2Proof.Machine.execEncblk klen dlen din kin s
  | .init dir klen nlen din kin => Sys2Proof.Machine.execInit dir klen nlen din kin s
  | .adblk last len din => Sys2Proof.Machine.execAdblk last len din s
  | .msgblk last len din => Sys2Proof.Machine.execMsgblk last len din s
  | .gettag => Sys2Proof.Machine.execGettag s
  | .verify len din => Sys2Proof.Machine.execVerify len din s
  | .rdbuf idx => Sys2Proof.Machine.execRdbuf idx s
  | .clear => Sys2Proof.Machine.execClear s
  | .rdstat => Sys2Proof.Machine.execRdstat s

end Sys2Proof.Machine
end

