-- ==== Sys2Proof/Machine/Step.lean ====
section
/-! DEFINITION. One step: what stands at the port takes effect (00_scope.md R9, 60_exceptions.md R228). -/

namespace Sys2Proof.Machine

/-- One step of this hardware: `takeEvent` with its meanings and its parameters. -/
def step (s : State) : Host.Outcome State Fault Refusal := takeEvent coreParams exec s

/-- The state with the instruction whose bits are w at the head of the command port, where the next step takes it (log 1, log 11).
Nothing else changes. -/
def State.withFetchWord (s : State) (nbits w : Nat) : State := State.present (commandOfBits nbits w) s

end Sys2Proof.Machine
end

