-- ==== Sys2Proof/Laws/Decode.lean ====
section
/-! SUPPORT. The decoder read by the fields of the command word, instead of by masks. -/

namespace Sys2Proof

/-- A command word is its five fields, most significant first (30_encoding.md R72). -/
theorem cmdWord_fields (cw : CmdWord) :
    cw = cw.extractLsb' 24 8 ++ cw.extractLsb' 18 6 ++ cw.extractLsb' 17 1 ++ cw.extractLsb' 16 1 ++
      cw.extractLsb' 0 16 := by
  apply BitVec.eq_of_getLsbD_eq
  intro k hk
  simp only [BitVec.getLsbD_append, BitVec.getLsbD_extractLsb']
  by_cases h1 : k < 16
  · simp [h1]
  · by_cases h2 : k - 16 < 1
    · have : k = 16 := by omega
      subst this; simp
    · by_cases h3 : k - 16 - 1 < 1
      · have : k = 17 := by omega
        subst this; simp
      · by_cases h4 : k - 16 - 1 - 1 < 6
        · simp only [h1,h2,h3,h4, if_false, if_true, decide_true, Bool.true_and]; congr 1; omega
        · have h5 : k - 16 - 1 - 1 - 6 < 8 := by omega
          simp only [h1,h2,h3,h4,h5, if_false, decide_true, Bool.true_and]; congr 1; omega

/-- A word cut by a mask, field by field. -/
theorem cmdWord_and_mask (cw : CmdWord) (mo : Byte) (mr : BitVec 6) (md ml : BitVec 1) (ma : BitVec 16) :
    cw &&& (mo ++ mr ++ md ++ ml ++ ma) =
      (cw.extractLsb' 24 8 &&& mo) ++ (cw.extractLsb' 18 6 &&& mr) ++ (cw.extractLsb' 17 1 &&& md) ++
        (cw.extractLsb' 16 1 &&& ml) ++ (cw.extractLsb' 0 16 &&& ma) := by
  conv => lhs; rw [cmdWord_fields cw]
  simp only [← BitVec.and_append]

/-- The fields of a word of the layout. -/
theorem fields_of_word (a : Byte) (b : BitVec 6) (c d : BitVec 1) (e : BitVec 16) :
    (a ++ b ++ c ++ d ++ e : CmdWord).extractLsb' 24 8 = a ∧ (a ++ b ++ c ++ d ++ e : CmdWord).extractLsb' 18 6 = b ∧
    (a ++ b ++ c ++ d ++ e : CmdWord).extractLsb' 17 1 = c ∧ (a ++ b ++ c ++ d ++ e : CmdWord).extractLsb' 16 1 = d ∧
    (a ++ b ++ c ++ d ++ e : CmdWord).extractLsb' 0 16 = e := by
  refine ⟨?_, ?_, ?_, ?_, ?_⟩ <;>
    (apply BitVec.eq_of_getLsbD_eq; intro k hk
     simp only [BitVec.getLsbD_append, BitVec.getLsbD_extractLsb', hk, decide_true, Bool.true_and])
  · rw [if_neg (by omega), if_neg (by omega), if_neg (by omega), if_neg (by omega)]; congr 1; omega
  · rw [if_neg (by omega), if_neg (by omega), if_neg (by omega), if_pos (by omega)]; congr 1; omega
  · rw [if_neg (by omega), if_neg (by omega), if_pos (by omega)]; congr 1; omega
  · rw [if_neg (by omega), if_pos (by omega)]; congr 1; omega
  · rw [if_pos (by omega)]; congr 1; omega

/-- Two words of the layout are equal exactly when their fields are. -/
theorem fields_inj (a a' : Byte) (b b' : BitVec 6) (c c' d d' : BitVec 1) (e e' : BitVec 16) :
    a ++ b ++ c ++ d ++ e = a' ++ b' ++ c' ++ d' ++ e' ↔ a = a' ∧ b = b' ∧ c = c' ∧ d = d' ∧ e = e' := by
  constructor
  · intro h
    have left := fields_of_word a b c d e
    rw [h] at left
    obtain ⟨ha, hb, hc, hd, he⟩ := left
    obtain ⟨ha', hb', hc', hd', he'⟩ := fields_of_word a' b' c' d' e'
    exact ⟨ha.symm.trans ha', hb.symm.trans hb', hc.symm.trans hc', hd.symm.trans hd', he.symm.trans he'⟩
  · rintro ⟨rfl, rfl, rfl, rfl, rfl⟩; rfl

/-- A row selects a word exactly when each field, cut by its part of the mask, is the part of the pattern. -/
theorem rowSelects_fields (cw : CmdWord) (mo o : Byte) (mr r : BitVec 6) (md d ml l : BitVec 1) (ma a : BitVec 16)
    (b : Command → Instr) :
    rowSelects cw ⟨o ++ r ++ d ++ l ++ a, mo ++ mr ++ md ++ ml ++ ma, b⟩ = true ↔
      (cw.extractLsb' 24 8 &&& mo = o ∧ cw.extractLsb' 18 6 &&& mr = r ∧ cw.extractLsb' 17 1 &&& md = d ∧
        cw.extractLsb' 16 1 &&& ml = l ∧ cw.extractLsb' 0 16 &&& ma = a) := by
  unfold rowSelects
  rw [decide_eq_true_eq]
  show cw &&& (mo ++ mr ++ md ++ ml ++ ma) = _ ↔ _
  rw [cmdWord_and_mask, fields_inj]

/-- The test of one row in the form the decoder's search meets it. -/
theorem find_step (cw : CmdWord) (r : OpcodeRow) (rows : List OpcodeRow) :
    (r :: rows).find? (rowSelects cw) = if rowSelects cw r then some r else rows.find? (rowSelects cw) := by
  rw [List.find?_cons]; cases rowSelects cw r <;> rfl

/-- The decoder builds the row its search finds (30_encoding.md R79 step 1). -/
theorem decode_eq_map (c : Command) : decode c = (opcodeRows.find? (rowSelects c.cw)).map fun r => r.build c := by
  unfold decode; cases opcodeRows.find? (rowSelects c.cw) <;> rfl

/-- The decoder by the fields of the word: opcode, reserved field, DIR, LAST, ARG (30_encoding.md R77, R78). -/
theorem decode_by_fields (c : Command) (o : Byte) (r : BitVec 6) (d l : BitVec 1) (a : BitVec 16)
    (ho : c.cw.extractLsb' 24 8 = o) (hr : c.cw.extractLsb' 18 6 = r) (hd : c.cw.extractLsb' 17 1 = d)
    (hl : c.cw.extractLsb' 16 1 = l) (ha : c.cw.extractLsb' 0 16 = a) :
    decode c =
      if o = 1#8 ∧ r = 0#6 ∧ d = 0#1 ∧ l = 0#1 then some (.encblk (argHigh c.cw) (argLow c.cw) c.din c.kin)
      else if o = 2#8 ∧ r = 0#6 ∧ l = 0#1 then some (.init (cwDir c.cw) (argHigh c.cw) (argLow c.cw) c.din c.kin)
      else if o = 3#8 ∧ r = 0#6 ∧ d = 0#1 then some (.adblk (cwLast c.cw) (argWhole c.cw) c.din)
      else if o = 4#8 ∧ r = 0#6 ∧ d = 0#1 then some (.msgblk (cwLast c.cw) (argWhole c.cw) c.din)
      else if o = 5#8 ∧ r = 0#6 ∧ d = 0#1 ∧ l = 0#1 ∧ a = 0#16 then some .gettag
      else if o = 6#8 ∧ r = 0#6 ∧ d = 0#1 ∧ l = 0#1 then some (.verify (argWhole c.cw) c.din)
      else if o = 7#8 ∧ r = 0#6 ∧ d = 0#1 ∧ l = 0#1 then some (.rdbuf (argWhole c.cw))
      else if o = 8#8 ∧ r = 0#6 ∧ d = 0#1 ∧ l = 0#1 ∧ a = 0#16 then some .clear
      else if o = 9#8 ∧ r = 0#6 ∧ d = 0#1 ∧ l = 0#1 ∧ a = 0#16 then some .rdstat
      else none := by
  have sel : ∀ (mo o' : Byte) (mr r' : BitVec 6) (md d' ml l' : BitVec 1) (ma a' : BitVec 16) (b : Command → Instr),
      rowSelects c.cw ⟨o' ++ r' ++ d' ++ l' ++ a', mo ++ mr ++ md ++ ml ++ ma, b⟩ = true ↔
        (o &&& mo = o' ∧ r &&& mr = r' ∧ d &&& md = d' ∧ l &&& ml = l' ∧ a &&& ma = a') := by
    intros; rw [rowSelects_fields, ho, hr, hd, hl, ha]
  have ao : o &&& 0xFF#8 = o := BitVec.and_allOnes
  have ar : r &&& 0x3F#6 = r := BitVec.and_allOnes
  have ad : d &&& 1#1 = d := BitVec.and_allOnes
  have al : l &&& 1#1 = l := BitVec.and_allOnes
  have aa : a &&& 0xFFFF#16 = a := BitVec.and_allOnes
  have plain : ∀ (o' : Byte) (b : Command → Instr),
      rowSelects c.cw ⟨o' ++ 0#6 ++ 0#1 ++ 0#1 ++ 0#16, 0xFFFF0000#32, b⟩ = true ↔ o = o' ∧ r = 0#6 ∧ d = 0#1 ∧ l = 0#1 := by
    intro o' b
    rw [show 0xFFFF0000#32 = 0xFF#8 ++ 0x3F#6 ++ 1#1 ++ 1#1 ++ 0#16 from rfl, sel]
    simp [ao, ar, ad, al]
  have whole : ∀ (o' : Byte) (b : Command → Instr),
      rowSelects c.cw ⟨o' ++ 0#6 ++ 0#1 ++ 0#1 ++ 0#16, 0xFFFFFFFF#32, b⟩ = true ↔
        o = o' ∧ r = 0#6 ∧ d = 0#1 ∧ l = 0#1 ∧ a = 0#16 := by
    intro o' b
    rw [show 0xFFFFFFFF#32 = 0xFF#8 ++ 0x3F#6 ++ 1#1 ++ 1#1 ++ 0xFFFF#16 from rfl, sel]
    simp [ao, ar, ad, al, aa]
  have last : ∀ (o' : Byte) (b : Command → Instr),
      rowSelects c.cw ⟨o' ++ 0#6 ++ 0#1 ++ 0#1 ++ 0#16, 0xFFFE0000#32, b⟩ = true ↔ o = o' ∧ r = 0#6 ∧ d = 0#1 := by
    intro o' b
    rw [show 0xFFFE0000#32 = 0xFF#8 ++ 0x3F#6 ++ 1#1 ++ 0#1 ++ 0#16 from rfl, sel]
    simp [ao, ar, ad]
  have dir : ∀ (o' : Byte) (b : Command → Instr),
      rowSelects c.cw ⟨o' ++ 0#6 ++ 0#1 ++ 0#1 ++ 0#16, 0xFFFD0000#32, b⟩ = true ↔ o = o' ∧ r = 0#6 ∧ l = 0#1 := by
    intro o' b
    rw [show 0xFFFD0000#32 = 0xFF#8 ++ 0x3F#6 ++ 0#1 ++ 1#1 ++ 0#16 from rfl, sel]
    simp [ao, ar, al]
  rw [decode_eq_map]
  simp only [opcodeRows, find_step, apply_ite (Option.map _), Option.map_some, Option.map_none, List.find?_nil]
  exact
    if_congr (plain 1#8 _) rfl <| if_congr (dir 2#8 _) rfl <| if_congr (last 3#8 _) rfl <| if_congr (last 4#8 _) rfl <|
    if_congr (whole 5#8 _) rfl <| if_congr (plain 6#8 _) rfl <| if_congr (plain 7#8 _) rfl <|
    if_congr (whole 8#8 _) rfl <| if_congr (whole 9#8 _) rfl rfl

end Sys2Proof
end

