-- ==== Sys2Proof/Laws/Bits.lean ====
section
/-! SUPPORT. Bits and bytes of blocks: what the bit-moving helper, the cut, the padding and the byte packing give at each position. -/

namespace Sys2Proof.Machine

/-- Two blocks are equal when they agree on every bit below 128. -/
theorem block_ext {a b : Block} (h : ∀ i, i < 128 → a.getLsbD i = b.getLsbD i) : a = b :=
  BitVec.eq_of_getLsbD_eq (fun i hi => h i hi)

/-- Bit k of a single moved bit. -/
theorem getLsbD_movedBit (b : Bool) (q k : Nat) (hq : q < 128) :
    (if b then 1#128 <<< q else 0 : Block).getLsbD k = (b && decide (k = q)) := by
  cases b
  · simp
  · by_cases h : k = q
    · subst h; simp [hq]
    · simp only [↓reduceIte, BitVec.getLsbD_shiftLeft, h, decide_false, Bool.and_false]
      by_cases h1 : k < q
      · simp [h1]
      · have : k - q ≠ 0 := by omega
        simp [this]

/-- A position no moved bit goes to stays 0. -/
theorem getLsbD_scatter_missed (pos : Nat → Nat) (bit : Nat → Bool) (n k : Nat)
    (hpos : ∀ i, i < n → pos i < 128) (hk : ∀ i, i < n → pos i ≠ k) : (scatter pos bit n).getLsbD k = false := by
  induction n with
  | zero => simp [scatter]
  | succ n ih =>
    rw [scatter, BitVec.getLsbD_xor, ih (fun i hi => hpos i (by omega)) (fun i hi => hk i (by omega)),
      getLsbD_movedBit _ _ _ (hpos n (by omega))]
    have := hk n (by omega)
    simp [Ne.symm this]

/-- Bit i arrives at position `pos i` when no two positions coincide. -/
theorem getLsbD_scatter (pos : Nat → Nat) (bit : Nat → Bool) (n i : Nat) (hi : i < n)
    (hpos : ∀ i, i < n → pos i < 128) (hinj : ∀ i j, i < n → j < n → pos i = pos j → i = j) :
    (scatter pos bit n).getLsbD (pos i) = bit i := by
  induction n with
  | zero => omega
  | succ n ih =>
    rw [scatter, BitVec.getLsbD_xor, getLsbD_movedBit _ _ _ (hpos n (by omega))]
    by_cases h : i = n
    · subst h
      rw [getLsbD_scatter_missed pos bit i (pos i) (fun j hj => hpos j (by omega))
        (fun j hj he => by have := hinj j i (by omega) (by omega) he; omega)]
      simp
    · rw [ih (by omega) (fun j hj => hpos j (by omega)) (fun a b ha hb => hinj a b (by omega) (by omega))]
      have : pos i ≠ pos n := fun he => h (hinj i n hi (by omega) he)
      simp [this]

/-- Bit k of the cut of a block to n bytes (42_mode_engine.md R156). -/
theorem getLsbD_trunc (b : Block) (n k : Nat) :
    (trunc b n).getLsbD k = (decide (8 * (16 - n) ≤ k) && b.getLsbD k) := by
  simp only [trunc, BitVec.getLsbD_shiftLeft, BitVec.getLsbD_ushiftRight]
  by_cases h : k < 8 * (16 - n)
  · simp [h]
  · by_cases h2 : k < 128
    · have : 8 * (16 - n) + (k - 8 * (16 - n)) = k := by omega
      simp [h, h2, this, Nat.le_of_not_lt h]
    · simp [h2, BitVec.getLsbD_of_ge b k (by omega)]

/-- Bit k of byte j of a block (00_scope.md R7). -/
theorem getLsbD_blockByte (b : Block) (j k : Nat) :
    (blockByte b j).getLsbD k = (decide (k < 8) && b.getLsbD (120 - 8 * j + k)) := by
  simp [blockByte, BitVec.getLsbD_extractLsb']

/-- Two blocks are equal when their sixteen bytes are. -/
theorem block_ext_bytes {a b : Block} (h : ∀ j, j < 16 → blockByte a j = blockByte b j) : a = b := by
  apply block_ext
  intro i hi
  have := congrArg (fun x : Byte => x.getLsbD (i % 8)) (h (15 - i / 8) (by omega))
  simp only [getLsbD_blockByte] at this
  have e : 120 - 8 * (15 - i / 8) + i % 8 = i := by omega
  simpa [e, Nat.mod_lt] using this

/-- Byte j of the cut: kept below n, else zero (42_mode_engine.md R156). -/
theorem blockByte_trunc (b : Block) (n j : Nat) (hj : j < 16) :
    blockByte (trunc b n) j = if j < n then blockByte b j else 0 := by
  apply BitVec.eq_of_getLsbD_eq
  intro k hk
  rw [getLsbD_blockByte, getLsbD_trunc]
  by_cases h : j < n
  · have : 8 * (16 - n) ≤ 120 - 8 * j + k := by omega
    rw [if_pos h, getLsbD_blockByte]
    simp only [hk, this, decide_true, Bool.true_and]
  · have : ¬ 8 * (16 - n) ≤ 120 - 8 * j + k := by omega
    simp [h, this]

/-- Byte j of an exclusive or. -/
theorem blockByte_xor (a b : Block) (j : Nat) : blockByte (a ^^^ b) j = blockByte a j ^^^ blockByte b j := by
  apply BitVec.eq_of_getLsbD_eq
  intro k hk
  simp only [getLsbD_blockByte, BitVec.getLsbD_xor, hk, decide_true, Bool.true_and]

/-- Cutting twice cuts to the shorter count. -/
theorem trunc_trunc (b : Block) (n : Nat) : trunc (trunc b n) n = trunc b n := by
  apply block_ext
  intro i _
  simp only [getLsbD_trunc]
  cases decide (8 * (16 - n) ≤ i) <;> simp

/-- A full block is not cut. -/
theorem trunc_full (b : Block) : trunc b 16 = b := by
  apply block_ext; intro i _; simp [getLsbD_trunc]

/-- Nothing of a block is left of zero bytes. -/
theorem trunc_zero (b : Block) : trunc b 0 = 0 := by
  apply block_ext; intro i hi
  have : ¬ 128 ≤ i := by omega
  simp [getLsbD_trunc, this]

/-- The padding depends on the cut block alone. -/
theorem pad_trunc (p : Params) (b : Block) (n : Nat) : pad p (trunc b n) n = pad p b n := by
  unfold pad
  split
  · rw [trunc_trunc]
  · rename_i h
    have : 8 * (16 - n) = 0 := by omega
    apply block_ext; intro i _; simp [getLsbD_trunc, this]

/-- Blocks with the same first n bytes are padded alike. -/
theorem pad_congr (p : Params) {a b : Block} {n : Nat} (h : trunc a n = trunc b n) : pad p a n = pad p b n := by
  rw [← pad_trunc p a, ← pad_trunc p b, h]

/-- The cut of an exclusive or depends on the cuts. -/
theorem trunc_xor (a b : Block) (n : Nat) : trunc (a ^^^ b) n = trunc a n ^^^ trunc b n := by
  apply block_ext; intro i _
  simp only [getLsbD_trunc, BitVec.getLsbD_xor]
  cases decide (8 * (16 - n) ≤ i) <;> simp

/-- Bit k of n packed bytes. -/
theorem getLsbD_packBytes (f : Nat → Byte) (n k : Nat) (hn : n ≤ 16) :
    (packBytes f n).getLsbD k = (decide (k < 8 * n) && (f (n - 1 - k / 8)).getLsbD (k % 8)) := by
  induction n generalizing k with
  | zero => simp [packBytes]
  | succ n ih =>
    simp only [packBytes, BitVec.getLsbD_or, BitVec.getLsbD_shiftLeft, BitVec.getLsbD_setWidth]
    by_cases h : k < 8
    · have e : k / 8 = 0 := by omega
      have e2 : k % 8 = k := by omega
      have e3 : k < 8 * (n + 1) := by omega
      simp [h, e, e2, e3]
      intro; omega
    · rw [ih (k - 8) (by omega)]
      have e1 : (k - 8) / 8 = k / 8 - 1 := by omega
      have e2 : (k - 8) % 8 = k % 8 := by omega
      have e3 : n - 1 - (k / 8 - 1) = n + 1 - 1 - k / 8 := by omega
      by_cases h2 : k < 8 * (n + 1)
      · have h3 : k - 8 < 8 * n := by omega
        have h4 : k < 128 := by omega
        have h5 : (f n).getLsbD k = false := BitVec.getLsbD_of_ge _ _ (by omega)
        simp only [h, h2, h3, h4, h5, e1, e2, e3, decide_true, decide_false, Bool.not_false, Bool.and_true, Bool.true_and,
          Bool.and_false, Bool.or_false]
      · have h3 : ¬ k - 8 < 8 * n := by omega
        have h5 : (f n).getLsbD k = false := BitVec.getLsbD_of_ge _ _ (by omega)
        simp [h2, h3, h5]

/-- Byte j of a packed block (20_memory.md R52). -/
theorem blockByte_blockOfBytes (f : Nat → Byte) (j : Nat) (hj : j < 16) : blockByte (blockOfBytes f) j = f j := by
  apply BitVec.eq_of_getLsbD_eq
  intro k hk
  rw [getLsbD_blockByte, blockOfBytes, getLsbD_packBytes _ _ _ (by omega)]
  have e1 : (120 - 8 * j + k) / 8 = 15 - j := by omega
  have e2 : (120 - 8 * j + k) % 8 = k := by omega
  have e3 : 120 - 8 * j + k < 8 * 16 := by omega
  have e4 : 16 - 1 - (15 - j) = j := by omega
  simp only [e1, e2, e3, e4, hk, decide_true, Bool.true_and]

/-- A block is the packing of its own bytes. -/
theorem blockOfBytes_blockByte (b : Block) : blockOfBytes (blockByte b) = b :=
  block_ext_bytes (fun j hj => blockByte_blockOfBytes _ j hj)

/-- Blocks packed from equal bytes are equal. -/
theorem blockOfBytes_congr {f g : Nat → Byte} (h : ∀ j, j < 16 → f j = g j) : blockOfBytes f = blockOfBytes g :=
  block_ext_bytes (fun j hj => by rw [blockByte_blockOfBytes _ _ hj, blockByte_blockOfBytes _ _ hj, h j hj])

end Sys2Proof.Machine
end

