-- ==== Sys2Proof/Laws/Cipher.lean ====
section
/-! SUPPORT. Units BC and KS: what each layer of a round gives at each nibble or bit, the shape of the key schedule. -/

namespace Sys2Proof.Machine

/-- Bit k of the substituted nibbles below n. -/
theorem getLsbD_subNibbles (p : Params) (s : Block) (n k : Nat) (hn : n ≤ 32) :
    (subNibbles p s n).getLsbD k = (decide (k < 4 * n) && (p.gs (nibble s (k / 4))).getLsbD (k % 4)) := by
  induction n with
  | zero => simp [subNibbles]
  | succ n ih =>
    simp only [subNibbles, BitVec.getLsbD_or, BitVec.getLsbD_shiftLeft, BitVec.getLsbD_setWidth, ih (by omega)]
    by_cases h : k < 4 * n
    · have h2 : k < 4 * (n + 1) := by omega
      simp [h, h2]
    · by_cases h2 : k < 4 * (n + 1)
      · have e1 : k / 4 = n := by omega
        have e2 : k % 4 = k - 4 * n := by omega
        have h3 : k < 128 := by omega
        have h4 : k - 4 * n < 128 := by omega
        simp only [h, h2, h3, h4, e1, e2, decide_true, decide_false, Bool.not_false, Bool.and_true, Bool.true_and,
          Bool.false_and, Bool.false_or]
      · have h5 : (p.gs (nibble s n)).getLsbD (k - 4 * n) = false := BitVec.getLsbD_of_ge _ _ (by omega)
        simp [h, h2, h5]

/-- Bit k of `SubCells(S)` (40_block_cipher.md R102). -/
theorem getLsbD_subCells (p : Params) (s : Block) (k : Nat) (hk : k < 128) :
    (subCells p s).getLsbD k = (p.gs (nibble s (k / 4))).getLsbD (k % 4) := by
  rw [subCells, getLsbD_subNibbles p s 32 k (by omega)]
  simp [hk]

/-- Every position of the permutation lies in the block (40_block_cipher.md R103). -/
theorem bitPosition_lt (i : Nat) (h : i < 128) : bitPosition i < 128 := by
  unfold bitPosition; omega

/-- The permutation sends no two bits to one position (40_block_cipher.md R103). -/
theorem bitPosition_injective (i j : Nat) (hi : i < 128) (hj : j < 128) (h : bitPosition i = bitPosition j) : i = j := by
  have all : ∀ i < 128, ((List.range 128).findIdx (fun q => bitPosition q == bitPosition i)) = i := by decide +kernel
  rw [← all i hi, ← all j hj, h]

/-- Where a bit of a value spread at stride four arrives. -/
theorem getLsbD_scatter_stride (off n : Nat) (bit : Nat → Bool) (hoff : off < 4) (hn : n ≤ 32) (k : Nat) :
    (scatter (fun i => 4 * i + off) bit n).getLsbD k = (decide (k % 4 = off) && decide (k / 4 < n) && bit (k / 4)) := by
  by_cases h : k % 4 = off ∧ k / 4 < n
  · have e : k = 4 * (k / 4) + off := by omega
    have h1 := getLsbD_scatter (fun i => 4 * i + off) bit n (k / 4) h.2 (fun i hi => by omega) (fun i j _ _ hij => by
      omega)
    rw [← e] at h1
    simp [h1, h.1, h.2]
  · rw [getLsbD_scatter_missed _ _ _ _ (fun i hi => by omega) (fun i hi he => by omega)]
    by_cases h1 : k % 4 = off
    · have h2 : ¬ k / 4 < n := fun h2 => h ⟨h1, h2⟩
      simp [h2]
    · simp [h1]

/-- Bit k of the mask a round key adds (40_block_cipher.md R104). -/
theorem getLsbD_keyMask (rk : RoundKey) (k : Nat) (hk : k < 128) :
    (keyMask coreParams rk).getLsbD k =
      ((decide (k % 4 = 2) && rk.getLsbD (32 + k / 4)) ^^ (decide (k % 4 = 1) && rk.getLsbD (k / 4))) := by
  have h1 := getLsbD_scatter_stride 2 32 (rk.extractLsb' 32 32).getLsbD (by omega) (by omega) k
  have h2 := getLsbD_scatter_stride 1 32 (rk.extractLsb' 0 32).getLsbD (by omega) (by omega) k
  have h3 : k / 4 < 32 := by omega
  simp only [h3, decide_true, Bool.and_true, BitVec.getLsbD_extractLsb', Bool.true_and, Nat.zero_add] at h1 h2
  rw [keyMask, BitVec.getLsbD_xor]
  show ((scatter (fun i => 4 * i + 2) _ 32).getLsbD k ^^ (scatter (fun i => 4 * i + 1) _ 32).getLsbD k) = _
  rw [h1, h2]

/-- Bit k of the mask a round constant adds (40_block_cipher.md R106). -/
theorem getLsbD_constMask (c : RoundConst) (k : Nat) :
    (constMask coreParams c).getLsbD k =
      (decide (k = 127) ^^ (decide (k % 4 = 3) && decide (k / 4 < 6) && c.getLsbD (k / 4))) := by
  have h1 := getLsbD_scatter_stride 3 6 c.getLsbD (by omega) (by omega) k
  have h2 := getLsbD_movedBit true 127 k (by omega)
  simp only [↓reduceIte, Bool.true_and] at h2
  rw [constMask, BitVec.getLsbD_xor]
  show ((1#128 <<< 127 : Block).getLsbD k ^^ (scatter (fun i => 4 * i + 3) _ 6).getLsbD k) = _
  rw [h1, h2]

/-- The schedule gives as many round keys as asked for (41_key_schedule.md R130). -/
theorem length_expandFrom (p : Params) (n : Nat) (k : Block) : (expandFrom p n k).length = n := by
  induction n generalizing k with
  | zero => rfl
  | succ n ih => simp [expandFrom, ih]

/-- `expand` gives ROUNDS round keys (41_key_schedule.md R130). -/
theorem length_expand (p : Params) (k : Block) : (expand p k).length = p.rounds := length_expandFrom p p.rounds k

end Sys2Proof.Machine
end

