-- ==== Sys2Proof/Laws/Memory.lean ====
section
/-! SUPPORT. The hold buffer as memory: a read after a write, the canonical form, blocks of sixteen bytes. -/

namespace Sys2Proof.Machine

@[simp] theorem Memory.read_nil (a : Nat) : Memory.read [] a = 0 := rfl

/-- Below every entry a byte is unlisted. -/
theorem Memory.read_below (m : Memory) (l a : Nat) (h : Memory.wfAbove l m = true) (ha : a < l) : Memory.read m a = 0 := by
  induction m generalizing l with
  | nil => rfl
  | cons e m ih =>
    obtain ⟨x, b⟩ := e
    simp only [Memory.wfAbove, Bool.and_eq_true, decide_eq_true_eq] at h
    have hx : x ≠ a := by omega
    rw [Memory.read, if_neg hx]
    exact ih (x + 1) h.2 (by omega)

/-- A lower bound may be lowered. -/
theorem Memory.wfAbove_mono (m : Memory) (l k : Nat) (h : Memory.wfAbove l m = true) (hk : k ≤ l) :
    Memory.wfAbove k m = true := by
  cases m with
  | nil => rfl
  | cons e m =>
    obtain ⟨x, b⟩ := e
    simp only [Memory.wfAbove, Bool.and_eq_true, decide_eq_true_eq] at h ⊢
    exact ⟨⟨by omega, h.1.2⟩, h.2⟩

/-- A write keeps the canonical form above a bound its address respects. -/
theorem Memory.wfAbove_write (m : Memory) (l a : Nat) (v : Byte) (h : Memory.wfAbove l m = true) (ha : l ≤ a) :
    Memory.wfAbove l (Memory.write m a v) = true := by
  induction m generalizing l with
  | nil =>
    by_cases hv : v = unlistedByte
    · simp [Memory.write, hv, Memory.wfAbove]
    · simp [Memory.write, hv, Memory.wfAbove, ha]
  | cons e m ih =>
    obtain ⟨x, b⟩ := e
    simp only [Memory.wfAbove, Bool.and_eq_true, decide_eq_true_eq] at h
    rw [Memory.write]
    split
    · rename_i hlt
      split
      · simp [Memory.wfAbove, h.1.1, h.1.2, h.2]
      · rename_i hv
        simp only [Memory.wfAbove, Bool.and_eq_true, decide_eq_true_eq]
        exact ⟨⟨ha, hv⟩, ⟨by omega, h.1.2⟩, h.2⟩
    · split
      · rename_i hlt heq
        split
        · exact Memory.wfAbove_mono m (x + 1) l h.2 (by omega)
        · rename_i hv
          simp only [Memory.wfAbove, Bool.and_eq_true, decide_eq_true_eq]
          exact ⟨⟨ha, hv⟩, heq ▸ h.2⟩
      · rename_i hlt hne
        simp only [Memory.wfAbove, Bool.and_eq_true, decide_eq_true_eq]
        exact ⟨⟨h.1.1, h.1.2⟩, ih (x + 1) h.2 (by omega)⟩

/-- Every write keeps the canonical form. -/
theorem Memory.wf_write (m : Memory) (a : Nat) (v : Byte) (h : Memory.wf m = true) : Memory.wf (Memory.write m a v) = true :=
  Memory.wfAbove_write m 0 a v h (by omega)

/-- What a byte reads as after a write, in a buffer in canonical form. -/
theorem Memory.read_writeAbove (m : Memory) (l a : Nat) (v : Byte) (c : Nat) (h : Memory.wfAbove l m = true) :
    Memory.read (Memory.write m a v) c = if c = a then v else Memory.read m c := by
  induction m generalizing l with
  | nil =>
    by_cases hv : v = unlistedByte
    · simp [Memory.write, hv, unlistedByte]
    · by_cases hc : a = c
      · simp [Memory.write, hv, Memory.read, hc]
      · have hc' : ¬ c = a := fun e => hc e.symm
        simp only [Memory.write, hv, hc', Memory.read, hc, if_false]
  | cons e m ih =>
    obtain ⟨x, b⟩ := e
    simp only [Memory.wfAbove, Bool.and_eq_true, decide_eq_true_eq] at h
    rw [Memory.write]
    split
    · rename_i hlt
      split
      · rename_i hv
        by_cases hc : c = a
        · subst hc
          have hx : x ≠ c := by omega
          rw [if_pos rfl, Memory.read, if_neg hx, Memory.read_below m (x + 1) c h.2 (by omega), hv, unlistedByte]
        · rw [if_neg hc]
      · by_cases hc : a = c
        · simp [Memory.read, hc]
        · have hc' : ¬ c = a := fun e => hc e.symm
          rw [Memory.read, if_neg hc, if_neg hc']
    · split
      · rename_i hlt heq
        subst heq
        split
        · rename_i hv
          by_cases hc : c = a
          · subst hc
            rw [if_pos rfl, Memory.read_below m (c + 1) c h.2 (by omega), hv, unlistedByte]
          · have hc' : ¬ a = c := fun e => hc e.symm
            rw [if_neg hc, Memory.read, if_neg hc']
        · by_cases hc : a = c
          · simp [Memory.read, hc]
          · have hc' : ¬ c = a := fun e => hc e.symm
            rw [Memory.read, if_neg hc, if_neg hc', Memory.read, if_neg hc]
      · rename_i hlt hne
        by_cases hx : x = c
        · have hc : ¬ c = a := by omega
          rw [Memory.read, if_pos hx, if_neg hc, Memory.read, if_pos hx]
        · rw [Memory.read, if_neg hx, ih (x + 1) h.2, Memory.read, if_neg hx]

/-- What a byte reads as after a write. -/
theorem Memory.read_write (m : Memory) (a : Nat) (v : Byte) (c : Nat) (h : Memory.wf m = true) :
    Memory.read (Memory.write m a v) c = if c = a then v else Memory.read m c :=
  Memory.read_writeAbove m 0 a v c h

/-- Writing bytes in a row keeps the canonical form. -/
theorem Memory.wf_writeBytes (m : Memory) (base : Nat) (f : Nat → Byte) (n : Nat) (h : Memory.wf m = true) :
    Memory.wf (Memory.writeBytes m base f n) = true := by
  induction n with
  | zero => exact h
  | succ n ih => exact Memory.wf_write _ _ _ ih

/-- What a byte reads as after bytes written in a row. -/
theorem Memory.read_writeBytes (m : Memory) (base : Nat) (f : Nat → Byte) (n c : Nat) (h : Memory.wf m = true) :
    Memory.read (Memory.writeBytes m base f n) c = if base ≤ c ∧ c < base + n then f (c - base) else Memory.read m c := by
  induction n with
  | zero =>
    have : ¬ (base ≤ c ∧ c < base + 0) := by omega
    rw [Memory.writeBytes, if_neg this]
  | succ n ih =>
    rw [Memory.writeBytes, Memory.read_write _ _ _ _ (Memory.wf_writeBytes m base f n h), ih]
    by_cases hc : c = base + n
    · have h1 : base ≤ c ∧ c < base + (n + 1) := by omega
      have h2 : c - base = n := by omega
      rw [if_pos hc, if_pos h1, h2]
    · by_cases h1 : base ≤ c ∧ c < base + n
      · have h2 : base ≤ c ∧ c < base + (n + 1) := by omega
        rw [if_neg hc, if_pos h1, if_pos h2]
      · have h2 : ¬ (base ≤ c ∧ c < base + (n + 1)) := by omega
        rw [if_neg hc, if_neg h1, if_neg h2]

/-- A block write keeps the canonical form. -/
theorem Memory.wf_writeBlock (m : Memory) (i : Nat) (v : Block) (h : Memory.wf m = true) :
    Memory.wf (Memory.writeBlock m i v) = true :=
  Memory.wf_writeBytes m _ _ _ h

/-- What a byte reads as after a block write: the block's byte inside it, as before outside. -/
theorem Memory.read_writeBlock (m : Memory) (i : Nat) (v : Block) (c : Nat) (h : Memory.wf m = true) :
    Memory.read (Memory.writeBlock m i v) c =
      if 16 * i ≤ c ∧ c < 16 * i + 16 then blockByte v (c - 16 * i) else Memory.read m c :=
  Memory.read_writeBytes m _ _ _ _ h

/-- Byte j of a block read. -/
theorem Memory.blockByte_readBlock (m : Memory) (i j : Nat) (hj : j < 16) :
    blockByte (Memory.readBlock m i) j = Memory.read m (16 * i + j) :=
  blockByte_blockOfBytes _ j hj

/-- A block read after the same block was written. -/
theorem Memory.readBlock_writeBlock_same (m : Memory) (i : Nat) (v : Block) (h : Memory.wf m = true) :
    Memory.readBlock (Memory.writeBlock m i v) i = v := by
  apply block_ext_bytes
  intro j hj
  rw [Memory.blockByte_readBlock _ _ _ hj, Memory.read_writeBlock _ _ _ _ h, if_pos (by omega)]
  congr 1; omega

/-- A block read after another block was written. -/
theorem Memory.readBlock_writeBlock_other (m : Memory) (i k : Nat) (v : Block) (h : Memory.wf m = true) (hk : k ≠ i) :
    Memory.readBlock (Memory.writeBlock m i v) k = Memory.readBlock m k := by
  apply blockOfBytes_congr
  intro j hj
  rw [Memory.read_writeBlock _ _ _ _ h, if_neg (by omega)]

end Sys2Proof.Machine
end

