-- ==== Sys2Proof/Laws/State.lean ====
section
/-! SUPPORT. One lemma per field and per update of State, true by rfl: a proof that meets an update of the registers rewrites with
these and unfolds none. -/

namespace Sys2Proof.Machine

/-! `zeroise` -/

@[simp] theorem zeroise_phase (p : Params) (s : State) : (zeroise p s).phase = .idle := rfl
@[simp] theorem zeroise_dir (p : Params) (s : State) : (zeroise p s).dir = .enc := rfl
@[simp] theorem zeroise_first (p : Params) (s : State) : (zeroise p s).first = false := rfl
@[simp] theorem zeroise_y (p : Params) (s : State) : (zeroise p s).y = 0 := rfl
@[simp] theorem zeroise_delta (p : Params) (s : State) : (zeroise p s).delta = 0 := rfl
@[simp] theorem zeroise_rk (p : Params) (s : State) : (zeroise p s).rk = zeroRoundKeys p := rfl
@[simp] theorem zeroise_hold (p : Params) (s : State) : (zeroise p s).hold = [] := rfl
@[simp] theorem zeroise_holdlen (p : Params) (s : State) : (zeroise p s).holdlen = 0 := rfl
@[simp] theorem zeroise_lastcode (p : Params) (s : State) : (zeroise p s).lastcode = s.lastcode := rfl
@[simp] theorem zeroise_cfg (p : Params) (s : State) : (zeroise p s).cfg = s.cfg := rfl
@[simp] theorem zeroise_pending (p : Params) (s : State) : (zeroise p s).pending = s.pending := rfl
@[simp] theorem zeroise_resp (p : Params) (s : State) : (zeroise p s).resp = s.resp := rfl

/-! `respond` -/

@[simp] theorem respond_phase (c : Code) (d : Block) (n : Nat) (s : State) : (respond c d n s).phase = s.phase := rfl
@[simp] theorem respond_dir (c : Code) (d : Block) (n : Nat) (s : State) : (respond c d n s).dir = s.dir := rfl
@[simp] theorem respond_first (c : Code) (d : Block) (n : Nat) (s : State) : (respond c d n s).first = s.first := rfl
@[simp] theorem respond_y (c : Code) (d : Block) (n : Nat) (s : State) : (respond c d n s).y = s.y := rfl
@[simp] theorem respond_delta (c : Code) (d : Block) (n : Nat) (s : State) : (respond c d n s).delta = s.delta := rfl
@[simp] theorem respond_rk (c : Code) (d : Block) (n : Nat) (s : State) : (respond c d n s).rk = s.rk := rfl
@[simp] theorem respond_hold (c : Code) (d : Block) (n : Nat) (s : State) : (respond c d n s).hold = s.hold := rfl
@[simp] theorem respond_holdlen (c : Code) (d : Block) (n : Nat) (s : State) : (respond c d n s).holdlen = s.holdlen := rfl
@[simp] theorem respond_lastcode (c : Code) (d : Block) (n : Nat) (s : State) : (respond c d n s).lastcode = s.lastcode := rfl
@[simp] theorem respond_cfg (c : Code) (d : Block) (n : Nat) (s : State) : (respond c d n s).cfg = s.cfg := rfl
@[simp] theorem respond_pending (c : Code) (d : Block) (n : Nat) (s : State) : (respond c d n s).pending = s.pending := rfl
@[simp] theorem respond_resp (c : Code) (d : Block) (n : Nat) (s : State) : (respond c d n s).resp = some ⟨c, d, n⟩ := rfl

/-! `complete` -/

@[simp] theorem complete_phase (d : Block) (n : Nat) (s : State) : (complete d n s).phase = s.phase := rfl
@[simp] theorem complete_dir (d : Block) (n : Nat) (s : State) : (complete d n s).dir = s.dir := rfl
@[simp] theorem complete_first (d : Block) (n : Nat) (s : State) : (complete d n s).first = s.first := rfl
@[simp] theorem complete_y (d : Block) (n : Nat) (s : State) : (complete d n s).y = s.y := rfl
@[simp] theorem complete_delta (d : Block) (n : Nat) (s : State) : (complete d n s).delta = s.delta := rfl
@[simp] theorem complete_rk (d : Block) (n : Nat) (s : State) : (complete d n s).rk = s.rk := rfl
@[simp] theorem complete_hold (d : Block) (n : Nat) (s : State) : (complete d n s).hold = s.hold := rfl
@[simp] theorem complete_holdlen (d : Block) (n : Nat) (s : State) : (complete d n s).holdlen = s.holdlen := rfl
@[simp] theorem complete_lastcode (d : Block) (n : Nat) (s : State) : (complete d n s).lastcode = .ok := rfl
@[simp] theorem complete_cfg (d : Block) (n : Nat) (s : State) : (complete d n s).cfg = s.cfg := rfl
@[simp] theorem complete_pending (d : Block) (n : Nat) (s : State) : (complete d n s).pending = s.pending := rfl
@[simp] theorem complete_resp (d : Block) (n : Nat) (s : State) : (complete d n s).resp = some ⟨.ok, d, n⟩ := rfl

/-! `abort` -/

@[simp] theorem abort_phase (p : Params) (c : Code) (s : State) : (abort p c s).phase = .idle := rfl
@[simp] theorem abort_dir (p : Params) (c : Code) (s : State) : (abort p c s).dir = .enc := rfl
@[simp] theorem abort_first (p : Params) (c : Code) (s : State) : (abort p c s).first = false := rfl
@[simp] theorem abort_y (p : Params) (c : Code) (s : State) : (abort p c s).y = 0 := rfl
@[simp] theorem abort_delta (p : Params) (c : Code) (s : State) : (abort p c s).delta = 0 := rfl
@[simp] theorem abort_rk (p : Params) (c : Code) (s : State) : (abort p c s).rk = zeroRoundKeys p := rfl
@[simp] theorem abort_hold (p : Params) (c : Code) (s : State) : (abort p c s).hold = [] := rfl
@[simp] theorem abort_holdlen (p : Params) (c : Code) (s : State) : (abort p c s).holdlen = 0 := rfl
@[simp] theorem abort_lastcode (p : Params) (c : Code) (s : State) : (abort p c s).lastcode = c := rfl
@[simp] theorem abort_cfg (p : Params) (c : Code) (s : State) : (abort p c s).cfg = s.cfg := rfl
@[simp] theorem abort_pending (p : Params) (c : Code) (s : State) : (abort p c s).pending = s.pending := rfl
@[simp] theorem abort_resp (p : Params) (c : Code) (s : State) : (abort p c s).resp = some ⟨c, 0, 0⟩ := rfl

/-! `sampled` -/

@[simp] theorem sampled_phase (r : List HostEvent) (s : State) : (sampled r s).phase = s.phase := rfl
@[simp] theorem sampled_dir (r : List HostEvent) (s : State) : (sampled r s).dir = s.dir := rfl
@[simp] theorem sampled_first (r : List HostEvent) (s : State) : (sampled r s).first = s.first := rfl
@[simp] theorem sampled_y (r : List HostEvent) (s : State) : (sampled r s).y = s.y := rfl
@[simp] theorem sampled_delta (r : List HostEvent) (s : State) : (sampled r s).delta = s.delta := rfl
@[simp] theorem sampled_rk (r : List HostEvent) (s : State) : (sampled r s).rk = s.rk := rfl
@[simp] theorem sampled_hold (r : List HostEvent) (s : State) : (sampled r s).hold = s.hold := rfl
@[simp] theorem sampled_holdlen (r : List HostEvent) (s : State) : (sampled r s).holdlen = s.holdlen := rfl
@[simp] theorem sampled_lastcode (r : List HostEvent) (s : State) : (sampled r s).lastcode = s.lastcode := rfl
@[simp] theorem sampled_cfg (r : List HostEvent) (s : State) : (sampled r s).cfg = s.cfg := rfl
@[simp] theorem sampled_pending (r : List HostEvent) (s : State) : (sampled r s).pending = r := rfl
@[simp] theorem sampled_resp (r : List HostEvent) (s : State) : (sampled r s).resp = s.resp := rfl

/-! `resetEvent` -/

@[simp] theorem resetEvent_phase (p : Params) (s : State) : (resetEvent p s).phase = .idle := rfl
@[simp] theorem resetEvent_dir (p : Params) (s : State) : (resetEvent p s).dir = .enc := rfl
@[simp] theorem resetEvent_first (p : Params) (s : State) : (resetEvent p s).first = false := rfl
@[simp] theorem resetEvent_y (p : Params) (s : State) : (resetEvent p s).y = 0 := rfl
@[simp] theorem resetEvent_delta (p : Params) (s : State) : (resetEvent p s).delta = 0 := rfl
@[simp] theorem resetEvent_rk (p : Params) (s : State) : (resetEvent p s).rk = zeroRoundKeys p := rfl
@[simp] theorem resetEvent_hold (p : Params) (s : State) : (resetEvent p s).hold = [] := rfl
@[simp] theorem resetEvent_holdlen (p : Params) (s : State) : (resetEvent p s).holdlen = 0 := rfl
@[simp] theorem resetEvent_lastcode (p : Params) (s : State) : (resetEvent p s).lastcode = .ok := rfl
@[simp] theorem resetEvent_cfg (p : Params) (s : State) : (resetEvent p s).cfg = s.cfg := rfl
@[simp] theorem resetEvent_pending (p : Params) (s : State) : (resetEvent p s).pending = s.pending := rfl
@[simp] theorem resetEvent_resp (p : Params) (s : State) : (resetEvent p s).resp = none := rfl

/-! `present` -/

@[simp] theorem present_phase (c : Command) (s : State) : (State.present c s).phase = s.phase := rfl
@[simp] theorem present_dir (c : Command) (s : State) : (State.present c s).dir = s.dir := rfl
@[simp] theorem present_first (c : Command) (s : State) : (State.present c s).first = s.first := rfl
@[simp] theorem present_y (c : Command) (s : State) : (State.present c s).y = s.y := rfl
@[simp] theorem present_delta (c : Command) (s : State) : (State.present c s).delta = s.delta := rfl
@[simp] theorem present_rk (c : Command) (s : State) : (State.present c s).rk = s.rk := rfl
@[simp] theorem present_hold (c : Command) (s : State) : (State.present c s).hold = s.hold := rfl
@[simp] theorem present_holdlen (c : Command) (s : State) : (State.present c s).holdlen = s.holdlen := rfl
@[simp] theorem present_lastcode (c : Command) (s : State) : (State.present c s).lastcode = s.lastcode := rfl
@[simp] theorem present_cfg (c : Command) (s : State) : (State.present c s).cfg = s.cfg := rfl
@[simp] theorem present_pending (c : Command) (s : State) : (State.present c s).pending = .command c :: s.pending := rfl
@[simp] theorem present_resp (c : Command) (s : State) : (State.present c s).resp = s.resp := rfl

/-! `initAccept` -/

@[simp] theorem initAccept_phase (p : Params) (e : Dir) (d k : Block) (s : State) : (initAccept p e d k s).phase = .ad := rfl
@[simp] theorem initAccept_dir (p : Params) (e : Dir) (d k : Block) (s : State) : (initAccept p e d k s).dir = e := rfl
@[simp] theorem initAccept_first (p : Params) (e : Dir) (d k : Block) (s : State) : (initAccept p e d k s).first = true := rfl
@[simp] theorem initAccept_y (p : Params) (e : Dir) (d k : Block) (s : State) : (initAccept p e d k s).y = cipherE p (expand p k) d := rfl
@[simp] theorem initAccept_delta (p : Params) (e : Dir) (d k : Block) (s : State) : (initAccept p e d k s).delta = p.deltaInit k (cipherE p (expand p k) d) := rfl
@[simp] theorem initAccept_rk (p : Params) (e : Dir) (d k : Block) (s : State) : (initAccept p e d k s).rk = expand p k := rfl
@[simp] theorem initAccept_hold (p : Params) (e : Dir) (d k : Block) (s : State) : (initAccept p e d k s).hold = s.hold := rfl
@[simp] theorem initAccept_holdlen (p : Params) (e : Dir) (d k : Block) (s : State) : (initAccept p e d k s).holdlen = s.holdlen := rfl
@[simp] theorem initAccept_lastcode (p : Params) (e : Dir) (d k : Block) (s : State) : (initAccept p e d k s).lastcode = .ok := rfl
@[simp] theorem initAccept_cfg (p : Params) (e : Dir) (d k : Block) (s : State) : (initAccept p e d k s).cfg = s.cfg := rfl
@[simp] theorem initAccept_pending (p : Params) (e : Dir) (d k : Block) (s : State) : (initAccept p e d k s).pending = s.pending := rfl
@[simp] theorem initAccept_resp (p : Params) (e : Dir) (d k : Block) (s : State) : (initAccept p e d k s).resp = some ⟨.ok, 0, 0⟩ := rfl

/-! `adblkAccept` -/

@[simp] theorem adblkAccept_phase (p : Params) (l : Bool) (n : Nat) (d : Block) (s : State) : (adblkAccept p l n d s).phase = phaseAfterAd l s.phase := rfl
@[simp] theorem adblkAccept_dir (p : Params) (l : Bool) (n : Nat) (d : Block) (s : State) : (adblkAccept p l n d s).dir = s.dir := rfl
@[simp] theorem adblkAccept_first (p : Params) (l : Bool) (n : Nat) (d : Block) (s : State) : (adblkAccept p l n d s).first = l := rfl
@[simp] theorem adblkAccept_y (p : Params) (l : Bool) (n : Nat) (d : Block) (s : State) : (adblkAccept p l n d s).y = nextY p s.rk d n s.y (blockMask p .ad l n s) := rfl
@[simp] theorem adblkAccept_delta (p : Params) (l : Bool) (n : Nat) (d : Block) (s : State) : (adblkAccept p l n d s).delta = blockMask p .ad l n s := rfl
@[simp] theorem adblkAccept_rk (p : Params) (l : Bool) (n : Nat) (d : Block) (s : State) : (adblkAccept p l n d s).rk = s.rk := rfl
@[simp] theorem adblkAccept_hold (p : Params) (l : Bool) (n : Nat) (d : Block) (s : State) : (adblkAccept p l n d s).hold = s.hold := rfl
@[simp] theorem adblkAccept_holdlen (p : Params) (l : Bool) (n : Nat) (d : Block) (s : State) : (adblkAccept p l n d s).holdlen = s.holdlen := rfl
@[simp] theorem adblkAccept_lastcode (p : Params) (l : Bool) (n : Nat) (d : Block) (s : State) : (adblkAccept p l n d s).lastcode = .ok := rfl
@[simp] theorem adblkAccept_cfg (p : Params) (l : Bool) (n : Nat) (d : Block) (s : State) : (adblkAccept p l n d s).cfg = s.cfg := rfl
@[simp] theorem adblkAccept_pending (p : Params) (l : Bool) (n : Nat) (d : Block) (s : State) : (adblkAccept p l n d s).pending = s.pending := rfl
@[simp] theorem adblkAccept_resp (p : Params) (l : Bool) (n : Nat) (d : Block) (s : State) : (adblkAccept p l n d s).resp = some ⟨.ok, 0, 0⟩ := rfl

/-! `msgblkChain` -/

@[simp] theorem msgblkChain_phase (p : Params) (l : Bool) (n : Nat) (d : Block) (s : State) : (msgblkChain p l n d s).phase = phaseAfterMsg l s.phase := rfl
@[simp] theorem msgblkChain_dir (p : Params) (l : Bool) (n : Nat) (d : Block) (s : State) : (msgblkChain p l n d s).dir = s.dir := rfl
@[simp] theorem msgblkChain_first (p : Params) (l : Bool) (n : Nat) (d : Block) (s : State) : (msgblkChain p l n d s).first = false := rfl
@[simp] theorem msgblkChain_y (p : Params) (l : Bool) (n : Nat) (d : Block) (s : State) : (msgblkChain p l n d s).y = nextY p s.rk d n s.y (blockMask p .msg l n s) := rfl
@[simp] theorem msgblkChain_delta (p : Params) (l : Bool) (n : Nat) (d : Block) (s : State) : (msgblkChain p l n d s).delta = blockMask p .msg l n s := rfl
@[simp] theorem msgblkChain_rk (p : Params) (l : Bool) (n : Nat) (d : Block) (s : State) : (msgblkChain p l n d s).rk = s.rk := rfl
@[simp] theorem msgblkChain_hold (p : Params) (l : Bool) (n : Nat) (d : Block) (s : State) : (msgblkChain p l n d s).hold = s.hold := rfl
@[simp] theorem msgblkChain_holdlen (p : Params) (l : Bool) (n : Nat) (d : Block) (s : State) : (msgblkChain p l n d s).holdlen = s.holdlen := rfl
@[simp] theorem msgblkChain_lastcode (p : Params) (l : Bool) (n : Nat) (d : Block) (s : State) : (msgblkChain p l n d s).lastcode = s.lastcode := rfl
@[simp] theorem msgblkChain_cfg (p : Params) (l : Bool) (n : Nat) (d : Block) (s : State) : (msgblkChain p l n d s).cfg = s.cfg := rfl
@[simp] theorem msgblkChain_pending (p : Params) (l : Bool) (n : Nat) (d : Block) (s : State) : (msgblkChain p l n d s).pending = s.pending := rfl
@[simp] theorem msgblkChain_resp (p : Params) (l : Bool) (n : Nat) (d : Block) (s : State) : (msgblkChain p l n d s).resp = s.resp := rfl

/-! `verifyAccept` -/

@[simp] theorem verifyAccept_phase (p : Params) (s : State) : (verifyAccept p s).phase = .rel := rfl
@[simp] theorem verifyAccept_dir (p : Params) (s : State) : (verifyAccept p s).dir = s.dir := rfl
@[simp] theorem verifyAccept_first (p : Params) (s : State) : (verifyAccept p s).first = false := rfl
@[simp] theorem verifyAccept_y (p : Params) (s : State) : (verifyAccept p s).y = 0 := rfl
@[simp] theorem verifyAccept_delta (p : Params) (s : State) : (verifyAccept p s).delta = 0 := rfl
@[simp] theorem verifyAccept_rk (p : Params) (s : State) : (verifyAccept p s).rk = zeroRoundKeys p := rfl
@[simp] theorem verifyAccept_hold (p : Params) (s : State) : (verifyAccept p s).hold = s.hold := rfl
@[simp] theorem verifyAccept_holdlen (p : Params) (s : State) : (verifyAccept p s).holdlen = s.holdlen := rfl
@[simp] theorem verifyAccept_lastcode (p : Params) (s : State) : (verifyAccept p s).lastcode = .ok := rfl
@[simp] theorem verifyAccept_cfg (p : Params) (s : State) : (verifyAccept p s).cfg = s.cfg := rfl
@[simp] theorem verifyAccept_pending (p : Params) (s : State) : (verifyAccept p s).pending = s.pending := rfl
@[simp] theorem verifyAccept_resp (p : Params) (s : State) : (verifyAccept p s).resp = some ⟨.ok, 0, 0⟩ := rfl

end Sys2Proof.Machine
end

