-- ==== Sys2Proof/Laws/Ops.lean ====
section
/-! SUPPORT. One lemma per shared operation that says once what it can do. -/

namespace Sys2Proof.Machine

/-! The capacity depends on the parameters alone, and the block written next on HOLDLEN alone. -/

@[simp] theorem holdBlocks_msgblkChain (p : Params) (l : Bool) (n : Nat) (d : Block) (s : State) :
    (msgblkChain p l n d s).holdBlocks = s.holdBlocks := rfl
@[simp] theorem holdBytes_msgblkChain (p : Params) (l : Bool) (n : Nat) (d : Block) (s : State) :
    (msgblkChain p l n d s).holdBytes = s.holdBytes := rfl
@[simp] theorem holdWriteBlock_msgblkChain (p : Params) (l : Bool) (n : Nat) (d : Block) (s : State) :
    holdWriteBlock (msgblkChain p l n d s) = holdWriteBlock s := rfl
@[simp] theorem holdBytes_complete (d : Block) (n : Nat) (s : State) : (complete d n s).holdBytes = s.holdBytes := rfl
@[simp] theorem holdBytes_sampled (r : List HostEvent) (s : State) : (sampled r s).holdBytes = s.holdBytes := rfl

/-- A guarded command either takes the abort of its first failed check, or is accepted with every check met. -/
theorem guarded_cases {p : Params} {checks : List (Bool × Code)} {s : State} {acc r : Result} (h : guarded p checks s acc = r) :
    (∃ c, firstFailed checks = some c ∧ r = .next (abort p c s)) ∨ (firstFailed checks = none ∧ r = acc) := by
  unfold guarded at h
  cases hf : firstFailed checks with
  | some c => rw [hf] at h; exact Or.inl ⟨c, rfl, h.symm⟩
  | none => rw [hf] at h; exact Or.inr ⟨rfl, h.symm⟩

@[simp] theorem firstFailed_nil : firstFailed [] = none := rfl

/-- The first check that fails decides. -/
@[simp] theorem firstFailed_cons (b : Bool) (c : Code) (l : List (Bool × Code)) :
    firstFailed ((b, c) :: l) = if b then firstFailed l else some c := rfl

/-- Checks that all hold let the command through. -/
theorem guarded_accept {p : Params} {checks : List (Bool × Code)} {s : State} {acc : Result} (h : firstFailed checks = none) :
    guarded p checks s acc = acc := by simp [guarded, h]

/-- A failed check aborts. -/
theorem guarded_abort {p : Params} {checks : List (Bool × Code)} {s : State} {acc : Result} {c : Code} (h : firstFailed checks = some c) :
    guarded p checks s acc = .next (abort p c s) := by simp [guarded, h]

/-- No check fails exactly when all hold. -/
theorem firstFailed_none_iff (l : List (Bool × Code)) : firstFailed l = none ↔ ∀ e ∈ l, e.1 = true := by
  induction l with
  | nil => simp
  | cons e l ih =>
    obtain ⟨b, c⟩ := e
    cases b <;> simp [ih]

/-- The code of a failed check is the code of one of the checks. -/
theorem firstFailed_some_mem {l : List (Bool × Code)} {c : Code} (h : firstFailed l = some c) : (false, c) ∈ l := by
  induction l with
  | nil => simp at h
  | cons e l ih =>
    obtain ⟨b, d⟩ := e
    cases b
    · simp at h; simp [h]
    · simp at h; exact List.mem_cons_of_mem _ (ih h)

/-- The length checks of a block command (42_mode_engine.md R157). -/
theorem lengthChecks_none (first last : Bool) (n : Nat) :
    firstFailed (lengthChecks first last n) = none ↔ n ≤ 16 ∧ (last = true ∨ n = 16) ∧ (first = true ∨ n ≠ 0) := by
  rw [firstFailed_none_iff]
  simp [lengthChecks]

/-- MemRead: inside the buffer the cut block, outside nothing (20_memory.md R55). -/
theorem memRead_cases (s : State) (i n : Nat) :
    (i < s.holdBlocks ∧ memRead s i n = some (trunc (Memory.readBlock s.hold i) n)) ∨
    (s.holdBlocks ≤ i ∧ memRead s i n = none) := by
  unfold memRead
  by_cases h : i < s.holdBlocks
  · exact Or.inl ⟨h, by rw [if_pos h]⟩
  · exact Or.inr ⟨by omega, by rw [if_neg h]⟩

/-- MemWrite: inside the buffer HOLD alone changes, outside nothing happens (20_memory.md R55). -/
theorem memWrite_cases (s : State) (i n : Nat) (v : Block) :
    (i < s.holdBlocks ∧ memWrite s i n v = some { s with hold := Memory.writeBlock s.hold i (trunc v n) }) ∨
    (s.holdBlocks ≤ i ∧ memWrite s i n v = none) := by
  unfold memWrite
  by_cases h : i < s.holdBlocks
  · exact Or.inl ⟨h, by rw [if_pos h]⟩
  · exact Or.inr ⟨by omega, by rw [if_neg h]⟩

/-- Recovered plaintext: nothing for an empty block; else HOLD and HOLDLEN alone change, and only inside the buffer
(42_mode_engine.md R165). -/
theorem holdAppend_cases (n : Nat) (v : Block) (s : State) :
    (n = 0 ∧ holdAppend n v s = some s) ∨
    (n ≠ 0 ∧ holdWriteBlock s < s.holdBlocks ∧
      holdAppend n v s = some { s with
        hold := Memory.writeBlock s.hold (holdWriteBlock s) (trunc v n)
        holdlen := s.holdlen + BitVec.ofNat 32 n }) ∨
    (n ≠ 0 ∧ s.holdBlocks ≤ holdWriteBlock s ∧ holdAppend n v s = none) := by
  unfold holdAppend
  by_cases h : n = 0
  · exact Or.inl ⟨h, by rw [if_pos h]⟩
  · rw [if_neg h]
    rcases memWrite_cases s (holdWriteBlock s) n v with ⟨hb, e⟩ | ⟨hb, e⟩
    · exact Or.inr (Or.inl ⟨h, hb, by rw [e]⟩)
    · exact Or.inr (Or.inr ⟨h, hb, by rw [e]⟩)

/-- A block that fits the buffer has a block number inside it. -/
theorem holdWriteBlock_lt (n : Nat) (s : State) (hn : n ≠ 0) (h : s.holdlen.toNat + n ≤ s.holdBytes) :
    holdWriteBlock s < s.holdBlocks := by
  unfold holdWriteBlock
  unfold State.holdBytes at h
  omega

/-- A message block that fits is held back: the model's fault is not raised. -/
theorem holdAppend_fits (n : Nat) (v : Block) (s : State) (h : s.holdlen.toNat + n ≤ s.holdBytes) :
    ∃ t, holdAppend n v s = some t := by
  rcases holdAppend_cases n v s with ⟨_, e⟩ | ⟨_, _, e⟩ | ⟨hn, hb, _⟩
  · exact ⟨_, e⟩
  · exact ⟨_, e⟩
  · have := holdWriteBlock_lt n s hn h
    omega

/-- The capacity is at most 2^20 bytes (10_state.md R27). -/
theorem holdBytes_le (s : State) : s.holdBytes ≤ 1048576 := by
  have := s.cfg.holdBlocksLessOne.isLt
  unfold State.holdBytes State.holdBlocks holdBlocks
  omega

/-- HOLDLEN after an append that fits does not wrap. -/
theorem holdlen_append (n : Nat) (s : State) (h : s.holdlen.toNat + n ≤ s.holdBytes) :
    (s.holdlen + BitVec.ofNat 32 n).toNat = s.holdlen.toNat + n := by
  have := holdBytes_le s
  simp only [BitVec.toNat_add, BitVec.toNat_ofNat]
  omega

/-- A read below HOLDLEN names a block inside the buffer, where HOLDLEN keeps its bound (43_tag_and_release.md R196). -/
theorem memRead_inside (s : State) (i n : Nat) (hi : 16 * i < s.holdlen.toNat) (hc : s.holdlen.toNat ≤ s.holdBytes) :
    memRead s i n = some (trunc (Memory.readBlock s.hold i) n) := by
  rcases memRead_cases s i n with ⟨_, e⟩ | ⟨hb, _⟩
  · exact e
  · unfold State.holdBytes at hc; omega

end Sys2Proof.Machine
end

