-- ==== Sys2Proof/Laws/Exec.lean ====
section
/-! SUPPORT. One inversion lemma per command, for any parameters: if it answers next t, then t is the abort of a failed check, or every check held and t
is what the command's own rule writes. -/

namespace Sys2Proof.Machine

/-- A guarded command that answers next t: an abort with a code other than OK, or the accepted outcome with every check met. -/
theorem guarded_next {p : Params} {checks : List (Bool × Code)} {s t : State} {acc : Result} (hok : ∀ e ∈ checks, e.2 ≠ Code.ok)
    (h : guarded p checks s acc = .next t) :
    (∃ c, c ≠ Code.ok ∧ t = abort p c s) ∨ ((∀ e ∈ checks, e.1 = true) ∧ acc = .next t) := by
  rcases guarded_cases h with ⟨c, hc, ht⟩ | ⟨hn, ht⟩
  · refine Or.inl ⟨c, hok _ (firstFailed_some_mem hc), ?_⟩
    injection ht
  · exact Or.inr ⟨(firstFailed_none_iff _).1 hn, ht.symm⟩

/-- ENCBLK (40_block_cipher.md R110). -/
theorem execEncblkWith_next {p : Params} {klen dlen : Nat} {din kin : Block} {s t : State} (h : execEncblkWith p klen dlen din kin s = .next t) :
    (∃ c, c ≠ Code.ok ∧ t = abort p c s) ∨
    (s.phase = .idle ∧ klen = 16 ∧ dlen = 16 ∧ t = complete (cipherE p (expand p kin) din) 16 s) := by
  rcases guarded_next (by simp) h with ha | ⟨hc, ht⟩
  · exact Or.inl ha
  · simp only [List.mem_cons, List.not_mem_nil, or_false, forall_eq_or_imp, forall_eq, decide_eq_true_eq] at hc
    injection ht with ht
    exact Or.inr ⟨hc.1, hc.2.1, hc.2.2, ht.symm⟩

/-- INIT (42_mode_engine.md R150). -/
theorem execInitWith_next {p : Params} {dir : Dir} {klen nlen : Nat} {din kin : Block} {s t : State}
    (h : execInitWith p dir klen nlen din kin s = .next t) :
    (∃ c, c ≠ Code.ok ∧ t = abort p c s) ∨
    (s.phase = .idle ∧ klen = 16 ∧ nlen = p.nonceBytes ∧ t = initAccept p dir din kin s) := by
  rcases guarded_next (by simp) h with ha | ⟨hc, ht⟩
  · exact Or.inl ha
  · simp only [List.mem_cons, List.not_mem_nil, or_false, forall_eq_or_imp, forall_eq, decide_eq_true_eq] at hc
    injection ht with ht
    exact Or.inr ⟨hc.1, hc.2.1, hc.2.2, ht.symm⟩

/-- ADBLK (42_mode_engine.md R161). -/
theorem execAdblkWith_next {p : Params} {last : Bool} {len : Nat} {din : Block} {s t : State} (h : execAdblkWith p last len din s = .next t) :
    (∃ c, c ≠ Code.ok ∧ t = abort p c s) ∨
    (s.phase = .ad ∧ len ≤ 16 ∧ (last = true ∨ len = 16) ∧ (s.first = true ∨ len ≠ 0) ∧ t = adblkAccept p last len din s) := by
  rcases guarded_next (by simp [lengthChecks]) h with ha | ⟨hc, ht⟩
  · exact Or.inl ha
  · simp only [lengthChecks, List.mem_cons, List.not_mem_nil, or_false, forall_eq_or_imp, forall_eq, decide_eq_true_eq,
      Bool.or_eq_true] at hc
    injection ht with ht
    exact Or.inr ⟨hc.1, hc.2.1, hc.2.2.1, hc.2.2.2, ht.symm⟩

/-- MSGBLK: its checks and, by direction, what it writes (42_mode_engine.md R165). -/
theorem execMsgblkWith_next {p : Params} {last : Bool} {len : Nat} {din : Block} {s t : State} (h : execMsgblkWith p last len din s = .next t) :
    (∃ c, c ≠ Code.ok ∧ t = abort p c s) ∨
    (s.phase = .msg ∧ len ≤ 16 ∧ (last = true ∨ len = 16) ∧ (s.first = true ∨ len ≠ 0) ∧ s.dir = .enc ∧
      t = complete (streamXor p din len s.y) len (msgblkChain p last len (trunc din len) s)) ∨
    (s.phase = .msg ∧ len ≤ 16 ∧ (last = true ∨ len = 16) ∧ (s.first = true ∨ len ≠ 0) ∧ s.dir = .dec ∧
      s.holdlen.toNat + len ≤ s.holdBytes ∧
      ∃ u, holdAppend len (streamXor p din len s.y)
          (msgblkChain p last len (streamXor p din len s.y) s) = some u ∧ t = complete 0 0 u) := by
  rcases guarded_next (by simp [lengthChecks]) h with ha | ⟨hc, ht⟩
  · exact Or.inl ha
  · simp only [lengthChecks, List.cons_append, List.nil_append, List.mem_cons, List.not_mem_nil, or_false,
      forall_eq_or_imp, forall_eq, decide_eq_true_eq, Bool.or_eq_true, holdFits] at hc
    obtain ⟨h1, h2, h3, h4, h5⟩ := hc
    refine Or.inr ?_
    cases hd : s.dir with
    | enc =>
      simp only [msgblkAccept, hd, messagePlain] at ht
      injection ht with ht
      exact Or.inl ⟨h1, h2, h3, h4, rfl, ht.symm⟩
    | dec =>
      have h6 : s.holdlen.toNat + len ≤ s.holdBytes := by
        rcases h5 with h5 | h5
        · rw [hd] at h5; cases h5
        · exact h5
      simp only [msgblkAccept, hd, messagePlain] at ht
      split at ht
      · rename_i u hu
        injection ht with ht
        exact Or.inr ⟨h1, h2, h3, h4, rfl, h6, u, hu, ht.symm⟩
      · cases ht

/-- GETTAG (43_tag_and_release.md R190). -/
theorem execGettagWith_next {p : Params} {s t : State} (h : execGettagWith p s = .next t) :
    (∃ c, c ≠ Code.ok ∧ t = abort p c s) ∨ (s.phase = .fin ∧ s.dir = .enc ∧ t = complete s.y 16 (zeroise p s)) := by
  rcases guarded_next (by simp) h with ha | ⟨hc, ht⟩
  · exact Or.inl ha
  · simp only [List.mem_cons, List.not_mem_nil, or_false, forall_eq_or_imp, forall_eq, decide_eq_true_eq] at hc
    injection ht with ht
    exact Or.inr ⟨hc.1, hc.2, ht.symm⟩

/-- VERIFY (43_tag_and_release.md R193). -/
theorem execVerifyWith_next {p : Params} {len : Nat} {din : Block} {s t : State} (h : execVerifyWith p len din s = .next t) :
    (∃ c, c ≠ Code.ok ∧ t = abort p c s) ∨
    (s.phase = .fin ∧ s.dir = .dec ∧ len = 16 ∧ din = s.y ∧ t = verifyAccept p s) := by
  rcases guarded_next (by simp) h with ha | ⟨hc, ht⟩
  · exact Or.inl ha
  · simp only [List.mem_cons, List.not_mem_nil, or_false, forall_eq_or_imp, forall_eq, decide_eq_true_eq] at hc
    injection ht with ht
    exact Or.inr ⟨hc.1, hc.2.1, hc.2.2.1, hc.2.2.2, ht.symm⟩

/-- RDBUF (43_tag_and_release.md R196). -/
theorem execRdbufWith_next {p : Params} {idx : Nat} {s t : State} (h : execRdbufWith p idx s = .next t) :
    (∃ c, c ≠ Code.ok ∧ t = abort p c s) ∨
    (s.phase = .rel ∧ 16 * idx < s.holdlen.toNat ∧ idx < s.holdBlocks ∧
      t = complete (trunc (Memory.readBlock s.hold idx) (heldBytes idx s)) (heldBytes idx s) s) := by
  rcases guarded_next (by simp) h with ha | ⟨hc, ht⟩
  · exact Or.inl ha
  · simp only [List.mem_cons, List.not_mem_nil, or_false, forall_eq_or_imp, forall_eq, decide_eq_true_eq] at hc
    refine Or.inr ?_
    rcases memRead_cases s idx (heldBytes idx s) with ⟨hb, e⟩ | ⟨hb, e⟩
    · rw [e] at ht
      injection ht with ht
      exact ⟨hc.1, hc.2, hb, ht.symm⟩
    · rw [e] at ht
      cases ht

/-- CLEAR (43_tag_and_release.md R191). -/
theorem execClearWith_next {p : Params} {s t : State} (h : execClearWith p s = .next t) : t = complete 0 0 (zeroise p s) := by
  injection h with h; exact h.symm

/-- RDSTAT (43_tag_and_release.md R195). -/
theorem execRdstat_next {s t : State} (h : execRdstat s = .next t) : t = respond .ok (statusWord s) 16 s := by
  injection h with h; exact h.symm

/-- A step of a core: nothing presented, a reset, a command that decodes, or an illegal word (30_encoding.md R79,
60_exceptions.md R228). -/
theorem takeEvent_cases (p : Params) (run : Instr → State → Result) (s : State) :
    (s.pending = [] ∧ takeEvent p run s = .next s) ∨
    (∃ rest, s.pending = .reset :: rest ∧ takeEvent p run s = .next (resetEvent p (sampled rest s))) ∨
    (∃ c rest i, s.pending = .command c :: rest ∧ decode c = some i ∧ takeEvent p run s = run i (sampled rest s)) ∨
    (∃ c rest, s.pending = .command c :: rest ∧ decode c = none ∧
      takeEvent p run s = .next (abort p .errIllegal (sampled rest s))) := by
  unfold takeEvent
  cases hp : s.pending with
  | nil => exact Or.inl ⟨rfl, rfl⟩
  | cons e rest =>
    cases e with
    | reset => exact Or.inr (Or.inl ⟨rest, rfl, rfl⟩)
    | command c =>
      cases hd : decode c with
      | some i => exact Or.inr (Or.inr (Or.inl ⟨c, rest, i, rfl, hd, by simp [hd]⟩))
      | none => exact Or.inr (Or.inr (Or.inr ⟨c, rest, rfl, hd, by simp [hd]⟩))

/-- The step of this hardware by the same four cases. -/
theorem step_cases (s : State) :
    (s.pending = [] ∧ step s = .next s) ∨
    (∃ rest, s.pending = .reset :: rest ∧ step s = .next (resetEvent coreParams (sampled rest s))) ∨
    (∃ c rest i, s.pending = .command c :: rest ∧ decode c = some i ∧ step s = exec i (sampled rest s)) ∨
    (∃ c rest, s.pending = .command c :: rest ∧ decode c = none ∧
      step s = .next (abort coreParams .errIllegal (sampled rest s))) :=
  takeEvent_cases coreParams exec s

end Sys2Proof.Machine
end

