-- ==== Sys2Proof/Laws/PerInstr.lean ====
section
/-! SUPPORT. The family EncodedRow: the word the encoder writes for an instruction selects that instruction's row of the opcode map
(30_encoding.md R72, R77), one lemma per constructor. -/

namespace Sys2Proof.Laws

/-- A word of the layout, cut by a mask given in the layout's parts. -/
theorem commandWord_and (o mo : Byte) (d : Dir) (l : Bool) (a ma : BitVec 16) (mr : BitVec 6) (md ml : BitVec 1) :
    commandWord o d l a &&& (mo ++ mr ++ md ++ ml ++ ma) =
      (o &&& mo) ++ (0#6 &&& mr) ++ (dirBit d &&& md) ++ (BitVec.ofBool l &&& ml) ++ (a &&& ma) := by
  unfold commandWord
  simp only [← BitVec.and_append]

/-- The opcode field of a word of the layout (30_encoding.md R72). -/
theorem commandWord_opcode (o : Byte) (d : Dir) (l : Bool) (a : BitVec 16) :
    (commandWord o d l a).extractLsb' 24 8 = o := by
  apply BitVec.eq_of_getLsbD_eq
  intro k hk
  have h1 : ¬ 24 + k < 16 := by omega
  have h2 : ¬ 24 + k - 16 < 1 := by omega
  have h3 : ¬ 24 + k - 16 - 1 < 1 := by omega
  have h4 : ¬ 24 + k - 16 - 1 - 1 < 6 := by omega
  have h5 : 24 + k - 16 - 1 - 1 - 6 = k := by omega
  simp only [commandWord, BitVec.getLsbD_extractLsb', BitVec.getLsbD_append, hk, h1, h2, h3, h4, h5, decide_true,
    Bool.true_and, if_false]

/-- A row that checks the whole opcode is not selected by another opcode. -/
theorem rowSelects_other (cw : CmdWord) (r : OpcodeRow) (hm : r.mask.extractLsb' 24 8 = 0xFF#8)
    (h : cw.extractLsb' 24 8 ≠ r.matchWord.extractLsb' 24 8) : rowSelects cw r = false := by
  unfold rowSelects
  rw [decide_eq_false_iff_not]
  intro e
  apply h
  have := congrArg (fun w : CmdWord => w.extractLsb' 24 8) e
  simp only [BitVec.extractLsb'_and, hm] at this
  rw [← this]
  exact (BitVec.and_allOnes (x := cw.extractLsb' 24 8)).symm

/-- The instruction's row of the opcode map (30_encoding.md R77). -/
def rowOf : Instr → OpcodeRow
  | .encblk .. => ⟨0x01000000#32, 0xFFFF0000#32, fun c => .encblk (argHigh c.cw) (argLow c.cw) c.din c.kin⟩
  | .init .. => ⟨0x02000000#32, 0xFFFD0000#32, fun c => .init (cwDir c.cw) (argHigh c.cw) (argLow c.cw) c.din c.kin⟩
  | .adblk .. => ⟨0x03000000#32, 0xFFFE0000#32, fun c => .adblk (cwLast c.cw) (argWhole c.cw) c.din⟩
  | .msgblk .. => ⟨0x04000000#32, 0xFFFE0000#32, fun c => .msgblk (cwLast c.cw) (argWhole c.cw) c.din⟩
  | .gettag => ⟨0x05000000#32, 0xFFFFFFFF#32, fun _ => .gettag⟩
  | .verify .. => ⟨0x06000000#32, 0xFFFF0000#32, fun c => .verify (argWhole c.cw) c.din⟩
  | .rdbuf .. => ⟨0x07000000#32, 0xFFFF0000#32, fun c => .rdbuf (argWhole c.cw)⟩
  | .clear => ⟨0x08000000#32, 0xFFFFFFFF#32, fun _ => .clear⟩
  | .rdstat => ⟨0x09000000#32, 0xFFFFFFFF#32, fun _ => .rdstat⟩

/-- The encoded word selects the instruction's row, and so the decoder builds that row's command. -/
def EncodedRow.Statement (i : Instr) : Prop := decode (encode i) = some ((rowOf i).build (encode i))

/-- The decoder builds the first row the word selects. -/
theorem decode_of_find (c : Command) (r : OpcodeRow) (h : opcodeRows.find? (rowSelects c.cw) = some r) :
    decode c = some (r.build c) := by
  simp [decode, h]

/-- The search for a word of the layout stops at the row of its opcode when that row is selected. -/
theorem find_row (before : List OpcodeRow) (r : OpcodeRow) (after : List OpcodeRow) (cw : CmdWord)
    (h : ∀ q ∈ before, q.mask.extractLsb' 24 8 = 0xFF#8 ∧ cw.extractLsb' 24 8 ≠ q.matchWord.extractLsb' 24 8)
    (hr : rowSelects cw r = true) : (before ++ r :: after).find? (rowSelects cw) = some r := by
  induction before with
  | nil => simp [hr]
  | cons q before ih =>
    have hq := h q (by simp)
    rw [List.cons_append, List.find?_cons, rowSelects_other cw q hq.1 hq.2]
    exact ih (fun p hp => h p (by simp [hp]))

/-- A word with opcode o and zero flags and its whole argument free matches `o·2^24` under the mask 0xFFFF0000. -/
theorem and_mask_plain (o : Byte) (a : BitVec 16) : commandWord o .enc false a &&& 0xFFFF0000#32 = o ++ 0#24 := by
  have := commandWord_and o 0xFF#8 .enc false a 0#16 0x3F#6 1#1 1#1
  have e : (0xFF#8 ++ 0x3F#6 ++ 1#1 ++ 1#1 ++ 0#16 : CmdWord) = 0xFFFF0000#32 := by decide
  rw [e] at this
  rw [this]
  have h1 : o &&& 0xFF#8 = o := BitVec.and_allOnes
  have h2 : a &&& 0#16 = 0#16 := BitVec.and_zero
  rw [h1, h2]
  clear this h1 h2
  revert o; decide +kernel

/-- The mask 0xFFFE0000 leaves LAST and the argument free. -/
theorem and_mask_last (o : Byte) (l : Bool) (a : BitVec 16) : commandWord o .enc l a &&& 0xFFFE0000#32 = o ++ 0#24 := by
  have := commandWord_and o 0xFF#8 .enc l a 0#16 0x3F#6 1#1 0#1
  have e : (0xFF#8 ++ 0x3F#6 ++ 1#1 ++ 0#1 ++ 0#16 : CmdWord) = 0xFFFE0000#32 := by decide
  rw [e] at this
  rw [this]
  have h1 : o &&& 0xFF#8 = o := BitVec.and_allOnes
  have h2 : a &&& 0#16 = 0#16 := BitVec.and_zero
  rw [h1, h2]
  clear this h1 h2
  revert o; cases l <;> decide +kernel

/-- The mask 0xFFFD0000 leaves DIR and the argument free. -/
theorem and_mask_dir (o : Byte) (d : Dir) (a : BitVec 16) : commandWord o d false a &&& 0xFFFD0000#32 = o ++ 0#24 := by
  have := commandWord_and o 0xFF#8 d false a 0#16 0x3F#6 0#1 1#1
  have e : (0xFF#8 ++ 0x3F#6 ++ 0#1 ++ 1#1 ++ 0#16 : CmdWord) = 0xFFFD0000#32 := by decide
  rw [e] at this
  rw [this]
  have h1 : o &&& 0xFF#8 = o := BitVec.and_allOnes
  have h2 : a &&& 0#16 = 0#16 := BitVec.and_zero
  rw [h1, h2]
  clear this h1 h2
  revert o; cases d <;> decide +kernel

theorem EncodedRow.encblk (klen dlen : Nat) (din kin : Block) : EncodedRow.Statement (.encblk klen dlen din kin) :=
  decode_of_find _ _ (find_row [] _ _ _ (by simp) (by
    simp only [rowSelects, encode, and_mask_plain]; decide))

theorem EncodedRow.init (dir : Dir) (klen nlen : Nat) (din kin : Block) :
    EncodedRow.Statement (.init dir klen nlen din kin) :=
  decode_of_find _ _ (find_row (opcodeRows.take 1) _ _ _
    (by simp only [encode, commandWord_opcode]; simp [opcodeRows]) (by
    simp only [rowSelects, encode, and_mask_dir]; decide))

theorem EncodedRow.adblk (last : Bool) (len : Nat) (din : Block) : EncodedRow.Statement (.adblk last len din) :=
  decode_of_find _ _ (find_row (opcodeRows.take 2) _ _ _
    (by simp only [encode, commandWord_opcode]; simp [opcodeRows]) (by
    simp only [rowSelects, encode, and_mask_last]; decide))

theorem EncodedRow.msgblk (last : Bool) (len : Nat) (din : Block) : EncodedRow.Statement (.msgblk last len din) :=
  decode_of_find _ _ (find_row (opcodeRows.take 3) _ _ _
    (by simp only [encode, commandWord_opcode]; simp [opcodeRows]) (by
    simp only [rowSelects, encode, and_mask_last]; decide))

theorem EncodedRow.gettag : EncodedRow.Statement .gettag := by
  unfold EncodedRow.Statement; decide

theorem EncodedRow.verify (len : Nat) (din : Block) : EncodedRow.Statement (.verify len din) :=
  decode_of_find _ _ (find_row (opcodeRows.take 5) _ _ _
    (by simp only [encode, commandWord_opcode]; simp [opcodeRows]) (by
    simp only [rowSelects, encode, and_mask_plain]; decide))

theorem EncodedRow.rdbuf (idx : Nat) : EncodedRow.Statement (.rdbuf idx) :=
  decode_of_find _ _ (find_row (opcodeRows.take 6) _ _ _
    (by simp only [encode, commandWord_opcode]; simp [opcodeRows]) (by
    simp only [rowSelects, encode, and_mask_plain]; decide))

theorem EncodedRow.clear : EncodedRow.Statement .clear := by
  unfold EncodedRow.Statement; decide

theorem EncodedRow.rdstat : EncodedRow.Statement .rdstat := by
  unfold EncodedRow.Statement; decide

end Sys2Proof.Laws
end

