-- ==== Sys2Proof/Machine/Configured.lean ====
section
/-! DEFINITION. The core built with other parameters (00_scope.md R5: "the model should still carry each decided parameter as a
configuration field whose default is the decided value"): every command, the step, the state after reset and the machine for a record
of parameters. `exec`, `step`, `State.reset` and `core` are the same at `coreParams`, the defaults; the published equation, for one, is
`{ coreParams with kstr := id }` (42_mode_engine.md R166; 90_conflicts.md C13). -/

namespace Sys2Proof.Machine

/-- One command of a core with parameters p. -/
def execWith (p : Params) (i : Instr) (s : State) : Result :=
  match i with
  | .encblk klen dlen din kin => execEncblkWith p klen dlen din kin s
  | .init dir klen nlen din kin => execInitWith p dir klen nlen din kin s
  | .adblk last len din => execAdblkWith p last len din s
  | .msgblk last len din => execMsgblkWith p last len din s
  | .gettag => execGettagWith p s
  | .verify len din => execVerifyWith p len din s
  | .rdbuf idx => execRdbufWith p idx s
  | .clear => execClearWith p s
  | .rdstat => execRdstat s

/-- One step of a core with parameters p. -/
def stepWith (p : Params) (s : State) : Result := takeEvent p (execWith p) s

/-- A core with parameters p, as the host reads it. -/
def coreWith (p : Params) : Host.Core :=
  { State := State, Fault := Fault, Refusal := Refusal, step := stepWith p, reset := State.resetWith p }

end Sys2Proof.Machine
end

