-- ==== Sys2Proof/Machine/HostProgram.lean ====
section
/-! DEFINITION. What the host does with the commands: byte sequences cut into blocks (20_memory.md R51), the textual forms' default
operands (30_encoding.md R81), and the pseudo-instructions AD, MSG, ENCRYPT, DECRYPT (R82, R83), which expand to commands and add no
semantics. -/

namespace Sys2Proof.Machine

/-- One block of a byte sequence: the block big-endian with its unused bytes zero, its byte count, and whether it is the last
(20_memory.md R51, 30_encoding.md R82). -/
structure Piece where
  block : Block
  len : Nat
  last : Bool
deriving DecidableEq, Repr

/-- The number of blocks of a sequence of length L (20_memory.md R51). -/
def blockCount (length : Nat) : Nat := (length + 15) / 16

/-- The block that holds the first 16 bytes of a sequence, zeros past its end (20_memory.md R51, R52). -/
def packSequence (s : List Byte) : Block := blockOfBytes (fun j => s.getD j 0)

/-- Block number i of a sequence (20_memory.md R51). -/
def pieceAt (s : List Byte) (i : Nat) : Piece :=
  { block := packSequence (s.drop (16 * i))
    len := min 16 (s.length - 16 * i)
    last := decide (i + 1 = blockCount s.length) }

/-- A sequence cut into blocks; an empty one is one block of length 0 (20_memory.md R51, 30_encoding.md R82). -/
def pieces (s : List Byte) : List Piece :=
  if s.length = 0 then [⟨0, 0, true⟩] else (List.range (blockCount s.length)).map (pieceAt s)

/-- The first n bytes of a block (20_memory.md R52). -/
def firstBytes (b : Block) (n : Nat) : List Byte := (List.range n).map (blockByte b)

/-- The pseudo-instruction AD (30_encoding.md R82). -/
def adCommands (ad : List Byte) : List Instr := (pieces ad).map fun q => .adblk q.last q.len q.block

/-- The pseudo-instruction MSG (30_encoding.md R82). -/
def msgCommands (msg : List Byte) : List Instr := (pieces msg).map fun q => .msgblk q.last q.len q.block

/-- The length a host reports for a key or a nonce: at most 255 (30_encoding.md R83). -/
def reportedLength (s : List Byte) : Nat := min s.length 255

/-- The INIT of an operation (30_encoding.md R82). For a key or nonce that is not 16 bytes long the host may drive the port with
anything (R83): here its first 16 bytes, zeros past its end (log 13). -/
def initCommand (dir : Dir) (key nonce : List Byte) : Instr :=
  .init dir (reportedLength key) (reportedLength nonce) (packSequence nonce) (packSequence key)

/-- Why a host program ends early. -/
inductive HostStop where
  /-- a response other than OK (30_encoding.md R82) -/
  | code (c : Code)
  /-- the core gave no response: outside the model's reachable states only (log 7) -/
  | noResponse
deriving DecidableEq, Repr

/-- Commands in order, on a core with parameters p, until one is answered with a code other than OK: the responses, and the state the
core is in. -/
def runCommands (p : Params) : List Instr → State → Except HostStop (List Response) × State
  | [], s => (.ok [], s)
  | i :: rest, s =>
    match execWith p i s with
    | .next t =>
      match t.resp with
      | some r =>
        if r.code = .ok then
          match runCommands p rest t with
          | (.ok rs, u) => (.ok (r :: rs), u)
          | (.error e, u) => (.error e, u)
        else (.error (.code r.code), t)
      | none => (.error .noResponse, t)
    | _ => (.error .noResponse, s)

/-- The data bytes of responses, the first DLEN bytes of each DOUT (30_encoding.md R82). -/
def responseBytes (rs : List Response) : List Byte := rs.flatMap fun r => firstBytes r.dout r.dlen

/-- The pseudo-instruction ENCRYPT: ciphertext and tag, or the code of the command that was not answered OK
(30_encoding.md R82). -/
def runEncrypt (p : Params) (key nonce ad pt : List Byte) (s : State) : Except HostStop (List Byte × Block) × State :=
  match runCommands p (initCommand .enc key nonce :: adCommands ad) s with
  | (.error e, t) => (.error e, t)
  | (.ok _, t) =>
    match runCommands p (msgCommands pt) t with
    | (.error e, u) => (.error e, u)
    | (.ok rs, u) =>
      match runCommands p [.gettag] u with
      | (.error e, v) => (.error e, v)
      | (.ok tags, v) => (.ok (responseBytes rs, (tags.map Response.dout).headD 0), v)

/-- The reads of a decryption: one RDBUF per block of the ciphertext (30_encoding.md R82). -/
def readCommands (length : Nat) : List Instr := (List.range (blockCount length)).map .rdbuf

/-- The pseudo-instruction DECRYPT: the plaintext, or the code of the command that was not answered OK; ERR_AUTH is the document's
AuthenticationFailure (30_encoding.md R82). -/
def runDecrypt (p : Params) (key nonce ad ct : List Byte) (tag : Block) (s : State) : Except HostStop (List Byte) × State :=
  match runCommands p (initCommand .dec key nonce :: (adCommands ad ++ msgCommands ct ++ [.verify 16 tag])) s with
  | (.error e, t) => (.error e, t)
  | (.ok _, t) =>
    match runCommands p (readCommands ct.length) t with
    | (.error e, u) => (.error e, u)
    | (.ok rs, u) =>
      match runCommands p [.clear] u with
      | (.error e, v) => (.error e, v)
      | (.ok _, v) => (.ok (responseBytes rs), v)

/-- `ENCBLK k, d [, klen=16] [, dlen=16]` (30_encoding.md R81). -/
def asmEncblk (k d : Block) (klen : Nat := 16) (dlen : Nat := 16) : Instr := .encblk klen dlen d k

/-- `INIT.ENC` and `INIT.DEC`: `k, n [, klen=16] [, nlen=16]` (30_encoding.md R81). -/
def asmInit (dir : Dir) (k n : Block) (klen : Nat := 16) (nlen : Nat := 16) : Instr := .init dir klen nlen n k

/-- `ADBLK d, len` (30_encoding.md R81). -/
def asmAdblk (d : Block) (len : Nat) : Instr := .adblk false len d

/-- `ADBLK.L d, len` (30_encoding.md R81). -/
def asmAdblkLast (d : Block) (len : Nat) : Instr := .adblk true len d

/-- `MSGBLK d, len` (30_encoding.md R81). -/
def asmMsgblk (d : Block) (len : Nat) : Instr := .msgblk false len d

/-- `MSGBLK.L d, len` (30_encoding.md R81). -/
def asmMsgblkLast (d : Block) (len : Nat) : Instr := .msgblk true len d

/-- `VERIFY t [, len=16]` (30_encoding.md R81). -/
def asmVerify (t : Block) (len : Nat := 16) : Instr := .verify len t

/-- The block-cipher calls an accepted command makes: a declared table (70_reset_and_hazards.md R258, log 15). -/
def cipherCalls : Instr → Nat
  | .encblk .. => 1
  | .init .. => 1
  | .adblk .. => 1
  | .msgblk .. => 1
  | .gettag => 0
  | .verify .. => 0
  | .rdbuf .. => 0
  | .clear => 0
  | .rdstat => 0

end Sys2Proof.Machine
end

