-- ==== Sys2Proof/Machine/Aead.lean ====
section
/-! DEFINITION. The mode as one pure function (42_mode_engine.md R171), for any parameters: no register, no port. -/

namespace Sys2Proof.Machine

/-- The pair (Y, Δ) of the mode. -/
structure Chain where
  y : Block
  d : Block
deriving DecidableEq, Repr

/-- The mask of one block of the sequence (42_mode_engine.md R171). -/
def pieceMask (p : Params) (dc : DomainConstants) (dom : Domain) (q : Piece) (c : Chain) : Block :=
  nextMask p (domainConst dc dom (blockKind q.last q.len)) c.d

/-- Absorb the blocks of associated data (42_mode_engine.md R171, first loop). -/
def absorbPieces (p : Params) (dc : DomainConstants) (rk : List RoundKey) : List Piece → Chain → Chain
  | [], c => c
  | q :: rest, c =>
    absorbPieces p dc rk rest
      ⟨nextY p rk q.block q.len c.y (pieceMask p dc .ad q c), pieceMask p dc .ad q c⟩

/-- The message blocks in one direction: the bytes that come out and the chain after (42_mode_engine.md R171, second loop). The
chain is driven by the plaintext in both directions. -/
def messagePieces (p : Params) (dc : DomainConstants) (rk : List RoundKey) (dir : Dir) :
    List Piece → Chain → List Byte × Chain
  | [], c => ([], c)
  | q :: rest, c =>
    let out := firstBytes (streamXor p q.block q.len c.y) q.len
    let mask := pieceMask p dc .msg q c
    let next := messagePieces p dc rk dir rest
      ⟨nextY p rk (messagePlain p dir q.block q.len c.y) q.len c.y mask, mask⟩
    (out ++ next.1, next.2)

/-- The chain after Init: Y0 and the initial mask (42_mode_engine.md R171). -/
def initialChain (p : Params) (key nonce : Block) : Chain :=
  ⟨cipherE p (expand p key) nonce, p.deltaInit key (cipherE p (expand p key) nonce)⟩

/-- The bytes that come out of one whole operation, and the tag (42_mode_engine.md R171). -/
def aeadRun (p : Params) (dc : DomainConstants) (dir : Dir) (key nonce : Block) (ad msg : List Byte) : List Byte × Block :=
  let c := absorbPieces p dc (expand p key) (pieces ad) (initialChain p key nonce)
  let r := messagePieces p dc (expand p key) dir (pieces msg) c
  (r.1, r.2.y)

/-- `AEAD_ENC(K, N, A, P)`: ciphertext and tag (42_mode_engine.md R171). -/
def aeadEnc (p : Params) (dc : DomainConstants) (key nonce : Block) (ad pt : List Byte) : List Byte × Block :=
  aeadRun p dc .enc key nonce ad pt

/-- `AEAD_DEC(K, N, A, C, T)`: the plaintext when the final Y equals T, else nothing (42_mode_engine.md R171). -/
def aeadDec (p : Params) (dc : DomainConstants) (key nonce : Block) (ad ct : List Byte) (tag : Block) : Option (List Byte) :=
  if (aeadRun p dc .dec key nonce ad ct).2 = tag then some (aeadRun p dc .dec key nonce ad ct).1 else none

end Sys2Proof.Machine
end

