-- ==== Sys2Proof/Safety.lean ====
section
/-! DEFINITION. What claims about the machine are stated in: the invariants of 10_state.md R34 and R35, what the host may observe, the
spec's own tables (legality, causes of faults, the printed constants). -/

namespace Sys2Proof.Machine

/-- Every register except LASTCODE is zero, for a core with parameters p (10_state.md R31, R34). -/
structure Wiped (p : Params) (s : State) : Prop where
  phase : s.phase = .idle
  dir : s.dir = .enc
  first : s.first = false
  y : s.y = 0
  delta : s.delta = 0
  rk : s.rk = zeroRoundKeys p
  hold : s.hold = []
  holdlen : s.holdlen = 0

/-- The invariant of a core with parameters p: 10_state.md R34 and R35 (a) to (f), the length of RK (R28), the canonical form of HOLD, and what
phase AD holds (42_mode_engine.md R153). -/
structure Inv (p : Params) (s : State) : Prop where
  holdWf : Memory.wf s.hold = true
  idleWiped : s.phase = .idle → Wiped p s
  encEmpty : s.dir = .enc → s.hold = [] ∧ s.holdlen = 0
  adEmpty : s.phase = .ad → s.hold = [] ∧ s.holdlen = 0
  msgWhole : s.phase = .msg → s.holdlen.toNat % 16 = 0
  zeroPast : ∀ a, s.holdlen.toNat ≤ a → Memory.read s.hold a = 0
  relClean : s.phase = .rel → s.dir = .dec ∧ s.first = false ∧ s.y = 0 ∧ s.delta = 0 ∧ s.rk = zeroRoundKeys p
  firstPhase : s.first = true → s.phase = .ad ∨ s.phase = .msg
  capacity : s.holdlen.toNat ≤ s.holdBytes
  rkLength : s.rk.length = p.rounds

/-- The nine registers agree (10_state.md R21): two states may differ in the ports alone. -/
structure SameRegisters (s t : State) : Prop where
  phase : s.phase = t.phase
  dir : s.dir = t.dir
  first : s.first = t.first
  y : s.y = t.y
  delta : s.delta = t.delta
  rk : s.rk = t.rk
  hold : s.hold = t.hold
  holdlen : s.holdlen = t.holdlen
  lastcode : s.lastcode = t.lastcode

/-- All but the secrets Y, DELTA, RK and HOLD agree: what RDSTAT, the responses so far and the host's own script show
(43_tag_and_release.md R194, R195). -/
structure SamePublic (s t : State) : Prop where
  phase : s.phase = t.phase
  dir : s.dir = t.dir
  first : s.first = t.first
  holdlen : s.holdlen = t.holdlen
  lastcode : s.lastcode = t.lastcode
  cfg : s.cfg = t.cfg
  pending : s.pending = t.pending
  resp : s.resp = t.resp

/-- An operation in direction DEC whose tag has not been verified. -/
def Unverified (s : State) : Prop := s.dir = .dec ∧ (s.phase = .ad ∨ s.phase = .msg ∨ s.phase = .fin)

/-- The code of the response at the port. -/
def responseCode (s : State) : Option Code := s.resp.map Response.code

/-- The table of 30_encoding.md R76: where a command is legal. -/
def legal : Instr → Phase → Dir → Bool
  | .encblk .., ph, _ => decide (ph = .idle)
  | .init .., ph, _ => decide (ph = .idle)
  | .adblk .., ph, _ => decide (ph = .ad)
  | .msgblk .., ph, _ => decide (ph = .msg)
  | .gettag, ph, d => decide (ph = .fin) && decide (d = .enc)
  | .verify .., ph, d => decide (ph = .fin) && decide (d = .dec)
  | .rdbuf .., ph, _ => decide (ph = .rel)
  | .clear, _, _ => true
  | .rdstat, _, _ => true

/-- The table of 30_encoding.md R76: the phase after an accepted command. -/
def phaseAfter : Instr → Phase → Phase
  | .encblk .., _ => .idle
  | .init .., _ => .ad
  | .adblk last _ _, _ => if last then .msg else .ad
  | .msgblk last _ _, _ => if last then .fin else .msg
  | .gettag, _ => .idle
  | .verify .., _ => .rel
  | .rdbuf .., _ => .rel
  | .clear, _ => .idle
  | .rdstat, ph => ph

/-- The length condition of a block command that 60_exceptions.md R221 names as the cause of ERR_LEN. -/
def badBlockLength (first last : Bool) (len : Nat) : Bool :=
  decide (len > 16) || (!last && decide (len ≠ 16)) || (decide (len = 0) && !first)

/-- The table of 60_exceptions.md R221: whether a cause of a fault other than ERR_ILLEGAL is present. -/
def causePresent (i : Instr) (s : State) : Code → Bool
  | .errSeq => !legal i s.phase s.dir
  | .errKeylen =>
    match i with
    | .encblk klen _ _ _ => decide (klen ≠ 16)
    | .init _ klen _ _ _ => decide (klen ≠ 16)
    | _ => false
  | .errNoncelen =>
    match i with
    | .init _ _ nlen _ _ => decide (nlen ≠ 16)
    | _ => false
  | .errLen =>
    match i with
    | .encblk _ dlen _ _ => decide (dlen ≠ 16)
    | .adblk last len _ => badBlockLength s.first last len
    | .msgblk last len _ => badBlockLength s.first last len
    | .verify len _ => decide (len ≠ 16)
    | _ => false
  | .errRange =>
    match i with
    | .rdbuf idx => decide (16 * idx ≥ s.holdlen.toNat)
    | _ => false
  | .errOverflow =>
    match i with
    | .msgblk _ len _ => decide (s.dir = .dec) && decide (s.holdlen.toNat + len > 16 * s.holdBlocks)
    | _ => false
  | .errAuth =>
    match i with
    | .verify _ din => decide (din ≠ s.y)
    | _ => false
  | .errIllegal => false
  | .ok => false

/-- The order of 60_exceptions.md R223 after decoding. -/
def faultPriority : List Code :=
  [.errSeq, .errKeylen, .errNoncelen, .errLen, .errRange, .errOverflow, .errAuth]

/-- The code a decoded command reports by 60_exceptions.md R221 and R223: the first cause present, else OK. -/
def reportedCode (i : Instr) (s : State) : Code := (faultPriority.find? (causePresent i s)).getD .ok

/-- The S-box as printed (40_block_cipher.md R101). -/
def sboxTable : List Nibble := [0x1, 0xa, 0x4, 0xc, 0x6, 0xf, 0x3, 0x9, 0x2, 0xd, 0xb, 0x7, 0x5, 0x0, 0x8, 0xe]

/-- The inverse of the S-box as printed (40_block_cipher.md R111). -/
def sboxInverseTable : List Nibble := [0xd, 0x0, 0x8, 0x6, 0x2, 0xc, 0x4, 0xb, 0xe, 0x7, 0x1, 0xa, 0x3, 0x9, 0xf, 0x5]

/-- The bit permutation as printed, row by row (40_block_cipher.md R103). -/
def bitPositionTable : List Nat :=
  [0, 33, 66, 99, 96, 1, 34, 67, 64, 97, 2, 35, 32, 65, 98, 3] ++
  [4, 37, 70, 103, 100, 5, 38, 71, 68, 101, 6, 39, 36, 69, 102, 7] ++
  [8, 41, 74, 107, 104, 9, 42, 75, 72, 105, 10, 43, 40, 73, 106, 11] ++
  [12, 45, 78, 111, 108, 13, 46, 79, 76, 109, 14, 47, 44, 77, 110, 15] ++
  [16, 49, 82, 115, 112, 17, 50, 83, 80, 113, 18, 51, 48, 81, 114, 19] ++
  [20, 53, 86, 119, 116, 21, 54, 87, 84, 117, 22, 55, 52, 85, 118, 23] ++
  [24, 57, 90, 123, 120, 25, 58, 91, 88, 121, 26, 59, 56, 89, 122, 27] ++
  [28, 61, 94, 127, 124, 29, 62, 95, 92, 125, 30, 63, 60, 93, 126, 31]

/-- The round constants as printed, in order of use (40_block_cipher.md R105). -/
def roundConstTable : List RoundConst :=
  [0x01, 0x03, 0x07, 0x0F, 0x1F, 0x3E, 0x3D, 0x3B, 0x37, 0x2F, 0x1E, 0x3C, 0x39, 0x33, 0x27, 0x0E] ++
  [0x1D, 0x3A, 0x35, 0x2B, 0x16, 0x2C, 0x18, 0x30, 0x21, 0x02, 0x05, 0x0B, 0x17, 0x2E, 0x1C, 0x38] ++
  [0x31, 0x23, 0x06, 0x0D, 0x1B, 0x36, 0x2D, 0x1A, 0x34, 0x29, 0x12, 0x24, 0x08, 0x11, 0x22, 0x04]

/-- Word j of a key, `K[32j+31 : 32j]` (41_key_schedule.md R135). -/
def keyWord (key : Block) (j : Nat) : BitVec 32 := key.extractLsb' (32 * j) 32

/-- `f^e` of 41_key_schedule.md R135: the halves rotated right by 2e and by 12e, modulo 16. -/
def rotatedWord (e : Nat) (w : BitVec 32) : BitVec 32 :=
  (w.extractLsb' 16 16).rotateRight (2 * e % 16) ++ (w.extractLsb' 0 16).rotateRight (12 * e % 16)

/-- The eight domain constants are pairwise distinct: the constraint of 42_mode_engine.md R160 on the OPEN table. -/
def DistinctDomainConstants (dc : DomainConstants) : Prop :=
  ∀ dom kind dom' kind', domainConst dc dom kind = domainConst dc dom' kind' → dom = dom' ∧ kind = kind'

/-- The responses to commands presented in order, from a state on; it ends at the first stop of the model. -/
def responsesOf : List Instr → State → List (Option Response)
  | [], _ => []
  | i :: rest, s =>
    match exec i s with
    | .next t => t.resp :: responsesOf rest t
    | _ => []

/-- Commands in order, each answered, whatever the codes: the state after the last, `none` where the model stops. -/
def execAll : List Instr → State → Option State
  | [], s => some s
  | i :: rest, s =>
    match exec i s with
    | .next t => execAll rest t
    | _ => none

/-- The command compares a tag. -/
def isVerify : Instr → Bool
  | .verify .. => true
  | _ => false

end Sys2Proof.Machine
end

