-- ==== Sys2Proof/Certificates/Slice0/Obligations.lean ====
section
/-! DEFINITION. The statements for the provers. Each docstring names the rule of spec/ the statement formalises; a statement that
rests on a choice of the model says so and names its log entry. -/

open Sys2Proof Sys2Proof.Machine

/-! Encoding and stepping -/

/-- 30_encoding.md R72, R73, R77: the word written for an instruction decodes to it, every operand at every value its field admits. -/
def Obligations.DecodeOfEncode : Prop :=
  ∀ i : Instr, i.WellFormed → decode (encode i) = some i

/-- 30_encoding.md R72, R77, R78: no bit of a legal command word is ignored: the instruction read from it is well formed and writes
the same word. -/
def Obligations.LegalWordHasNoIgnoredBit : Prop :=
  ∀ (c : Command) (i : Instr), decode c = some i → i.WellFormed ∧ (encode i).cw = c.cw

/-- 30_encoding.md R78: the illegal words, and that each raises ERR_ILLEGAL in every phase. -/
def Obligations.IllegalWordsExactly : Prop :=
  ∀ (c : Command),
    (decode c = none ↔
      (c.cw.extractLsb' 24 8 = 0x00#8 ∨ c.cw.extractLsb' 24 8 ≥ 0x0A#8 ∨ c.cw.extractLsb' 18 6 ≠ 0#6 ∨
        (c.cw.getLsbD 17 = true ∧ c.cw.extractLsb' 24 8 ≠ 0x02#8) ∨
        (c.cw.getLsbD 16 = true ∧ c.cw.extractLsb' 24 8 ≠ 0x03#8 ∧ c.cw.extractLsb' 24 8 ≠ 0x04#8) ∨
        (c.cw.extractLsb' 0 16 ≠ 0#16 ∧
          (c.cw.extractLsb' 24 8 = 0x05#8 ∨ c.cw.extractLsb' 24 8 = 0x08#8 ∨ c.cw.extractLsb' 24 8 = 0x09#8)))) ∧
    (decode c = none → ∀ (s : State) (rest : List HostEvent), s.pending = .command c :: rest →
      step s = .next (abort coreParams .errIllegal { s with pending := rest }))

/-- 30_encoding.md R77: the nine patterns are disjoint. -/
def Obligations.OpcodePatternsDisjoint : Prop :=
  opcodeRows.Pairwise (fun r q => ∀ cw : CmdWord, ¬ (cw &&& r.mask = r.matchWord ∧ cw &&& q.mask = q.matchWord))

/-- 95_test_vectors.md V-EN: words of the spec and what they stand for. -/
def Obligations.SpecWordsDecode : Prop :=
  decodeTableWord 32 0x01001010 = some (.encblk 16 16 0 0) ∧
  decodeTableWord 32 0x02021010 = some (.init .dec 16 16 0 0) ∧
  decodeTableWord 32 0x0200100C = some (.init .enc 16 12 0 0) ∧
  decodeTableWord 32 0x0301FFFF = some (.adblk true 65535 0) ∧
  decodeTableWord 32 0x04010003 = some (.msgblk true 3 0) ∧
  decodeTableWord 32 0x06000010 = some (.verify 16 0) ∧
  decodeTableWord 32 0x07000001 = some (.rdbuf 1) ∧
  decodeTableWord 32 0x02041010 = none ∧
  decodeTableWord 32 0x03020010 = none

/-- 30_encoding.md R79, 00_scope.md R9: a step with a legal command at the port is that instruction's meaning. That the port is a list,
one event shorter after the step, is the model's choice (log 1); so is the whole second clause, that the word placed by withFetchWord
is the one the next step runs (log 1 for the placing, log 11 for how the bits of the word are numbered). -/
def Obligations.StepRunsDecodedCommand : Prop :=
  (∀ (s : State) (c : Command) (rest : List HostEvent) (i : Instr),
    s.pending = .command c :: rest → decode c = some i → step s = exec i { s with pending := rest }) ∧
  (∀ (s : State) (nbits w : Nat) (i : Instr),
    decodeTableWord nbits w = some i → step (s.withFetchWord nbits w) = exec i s)

/-- 70_reset_and_hazards.md R250, R251, 10_state.md R36: reset leaves every register at its reset value and does not touch the
parameters. Derived, for it says two things more: that no response stands after reset is the model's reading of 10_state.md R38
(DEDUCED, log 2), and that what the host does next stands in a list which reset leaves is the model's choice (log 1). -/
def Obligations.ResetEventRestoresReset : Prop :=
  ∀ (s : State) (rest : List HostEvent), s.pending = .reset :: rest →
    step s = .next { State.reset with cfg := s.cfg, pending := rest }

/-- 10_state.md R36: the register values after reset. -/
def Obligations.ResetRegisterValues : Prop :=
  State.reset.phase = .idle ∧ phaseBits State.reset.phase = 0 ∧ dirBit State.reset.dir = 0 ∧ State.reset.first = false ∧
  State.reset.y = 0 ∧ State.reset.delta = 0 ∧ State.reset.rk = List.replicate 40 0 ∧
  (∀ i, Memory.readBlock State.reset.hold i = 0) ∧ State.reset.holdlen = 0 ∧ codeByte State.reset.lastcode = 0x00

/-- The model's reading (log 3, DEDUCED from 60_exceptions.md R235): with nothing presented the core stays as it is. -/
def Obligations.SilentPortKeepsState : Prop :=
  ∀ s : State, s.pending = [] → step s = .next s

/-- 30_encoding.md R71, 60_exceptions.md R228: commands presented one after another run in that order, each on the state the one
before it left. The port as a list is the model's choice (log 1). -/
def Obligations.PresentedCommandsRunInOrder : Prop :=
  ∀ (is : List Instr) (s t : State) (rest : List HostEvent),
    (∀ i ∈ is, i.WellFormed) → execAll is { s with pending := rest } = some t →
    Host.Core.run core is.length ({ s with pending := is.map (fun i => HostEvent.command (encode i)) ++ rest } : State) =
      .next t

/-! The block cipher and the key schedule -/

/-- 40_block_cipher.md R102, for any S-box: all 32 nibbles, each through the table. -/
def Obligations.SubCellsActsOnEveryNibble : Prop :=
  ∀ (p : Params) (s : Block) (i : Nat), i < 32 → nibble (subCells p s) i = p.gs (nibble s i)

/-- 40_block_cipher.md R101, R111: the S-box is the printed table, and the printed inverse table undoes it. -/
def Obligations.SboxIsThePrintedBijection : Prop :=
  (∀ x : Nibble, sboxTable[x.toNat]? = some (coreParams.gs x)) ∧
  (∀ x : Nibble, sboxInverseTable[(coreParams.gs x).toNat]? = some x)

/-- 40_block_cipher.md R103: bit i moves to P128(i); P128 is the printed table, a bijection on 0..127 that keeps the position within
the nibble. -/
def Obligations.PermBitsMovesEveryBit : Prop :=
  (∀ (s : Block) (i : Nat), i < 128 → (permBits coreParams s).getLsbD (coreParams.p128 i) = s.getLsbD i) ∧
  (∀ i, i < 128 → bitPositionTable[i]? = some (coreParams.p128 i)) ∧
  (∀ i, i < 128 → coreParams.p128 i < 128 ∧ coreParams.p128 i % 4 = i % 4) ∧
  (∀ i j, i < 128 → j < 128 → coreParams.p128 i = coreParams.p128 j → i = j)

/-- 40_block_cipher.md R104: U enters slice word 2 and V slice word 1; slice words 3 and 0 are unchanged. -/
def Obligations.AddRoundKeyTouchesTwoSlices : Prop :=
  ∀ (s : Block) (k : RoundKey),
    (∀ i, i < 32 →
      (addRoundKey coreParams s k).getLsbD (4 * i + 2) = (s.getLsbD (4 * i + 2) ^^ (k.extractLsb' 32 32).getLsbD i) ∧
      (addRoundKey coreParams s k).getLsbD (4 * i + 1) = (s.getLsbD (4 * i + 1) ^^ (k.extractLsb' 0 32).getLsbD i) ∧
      (addRoundKey coreParams s k).getLsbD (4 * i) = s.getLsbD (4 * i) ∧
      (addRoundKey coreParams s k).getLsbD (4 * i + 3) = s.getLsbD (4 * i + 3)) ∧
    sliceWord (addRoundKey coreParams s k) 2 = sliceWord s 2 ^^^ k.extractLsb' 32 32 ∧
    sliceWord (addRoundKey coreParams s k) 1 = sliceWord s 1 ^^^ k.extractLsb' 0 32 ∧
    sliceWord (addRoundKey coreParams s k) 3 = sliceWord s 3 ∧ sliceWord (addRoundKey coreParams s k) 0 = sliceWord s 0

/-- 40_block_cipher.md R106: seven bits change, bit 127 always; equivalently CMASK(c) is added. -/
def Obligations.AddConstantTouchesSevenBits : Prop :=
  ∀ (s : Block) (c : RoundConst),
    (∀ k, k < 128 → (addConstant coreParams s c).getLsbD k =
      (s.getLsbD k ^^
        (if k = 127 then true else if k = 23 then c.getLsbD 5 else if k = 19 then c.getLsbD 4 else
         if k = 15 then c.getLsbD 3 else if k = 11 then c.getLsbD 2 else if k = 7 then c.getLsbD 1 else
         if k = 3 then c.getLsbD 0 else false))) ∧
    addConstant coreParams s c = s ^^^ BitVec.ofNat 128
      (2 ^ 127 + (c.getLsbD 5).toNat * 2 ^ 23 + (c.getLsbD 4).toNat * 2 ^ 19 + (c.getLsbD 3).toNat * 2 ^ 15 +
        (c.getLsbD 2).toNat * 2 ^ 11 + (c.getLsbD 1).toNat * 2 ^ 7 + (c.getLsbD 0).toNat * 2 ^ 3)

/-- 40_block_cipher.md R105: the register starts at 0 and steps as the rule says; the constant of round r is the value after r+1
updates, the printed table. -/
def Obligations.RoundConstantsArePrinted : Prop :=
  coreParams.rcStart = 0#6 ∧
  (∀ c : RoundConst, coreParams.rcNext c =
    BitVec.ofNat 6 ((c.toNat * 2) % 64 + ((c.getLsbD 5).toNat + (c.getLsbD 4).toNat + 1) % 2)) ∧
  (∀ r, r < 48 → roundConstTable[r]? = some (Nat.repeat coreParams.rcNext (r + 1) coreParams.rcStart))

/-- 40_block_cipher.md R108, R112: E is one round per round key with the printed constants, each round substitution, permutation,
round key, constant; no step before the first round or after the last. -/
def Obligations.CipherIsTheRoundsInOrder : Prop :=
  ∀ (rk : List RoundKey) (x : Block), rk.length ≤ 48 →
    cipherE coreParams rk x =
      (rk.zip roundConstTable).foldl
        (fun s e => permBits coreParams (subCells coreParams s) ^^^ keyMask coreParams e.1 ^^^ constMask coreParams e.2) x

/-- 40_block_cipher.md R109(b): for fixed round keys E is a bijection on blocks, whatever their number. -/
def Obligations.CipherIsBijective : Prop :=
  ∀ rk : List RoundKey, Function.Bijective (cipherE coreParams rk)

/-- 41_key_schedule.md R131 to R134 on the eight 16-bit words of a key state: the round key selected, the next key state, and ROUNDS
round keys of which the first is taken from the key itself. -/
def Obligations.KeyScheduleSelectsAndRotates : Prop :=
  (∀ k7 k6 k5 k4 k3 k2 k1 k0 : BitVec 16,
    coreParams.ksSelect (k7 ++ k6 ++ k5 ++ k4 ++ k3 ++ k2 ++ k1 ++ k0) = k5 ++ k4 ++ k1 ++ k0 ∧
    coreParams.ksUpdate (k7 ++ k6 ++ k5 ++ k4 ++ k3 ++ k2 ++ k1 ++ k0) =
      ((k1 >>> 2) ||| (k1 <<< 14)) ++ ((k0 >>> 12) ||| (k0 <<< 4)) ++ k7 ++ k6 ++ k5 ++ k4 ++ k3 ++ k2) ∧
  (∀ key : Block, (expand coreParams key).length = 40 ∧
    ∀ r, r < 40 → (expand coreParams key)[r]? = some (coreParams.ksSelect (Nat.repeat coreParams.ksUpdate r key)))

/-- 41_key_schedule.md R135: the closed form of every round key, for any number of rounds, and the period 32. -/
def Obligations.KeyScheduleClosedForm : Prop :=
  ∀ (key : Block) (n r : Nat),
    (r < n → (expandFrom coreParams n key)[r]? =
      some (rotatedWord ((r + 2) / 4) (keyWord key ((r + 2) % 4)) ++ rotatedWord (r / 4) (keyWord key (r % 4)))) ∧
    (r + 32 < n → (expandFrom coreParams n key)[r + 32]? = (expandFrom coreParams n key)[r]?)

/-! The primitives of the mode -/

/-- 42_mode_engine.md R156, byte by byte. -/
def Obligations.TruncAndPadByBytes : Prop :=
  ∀ (b : Block) (n j : Nat), n ≤ 16 → j < 16 →
    blockByte (trunc b n) j = (if j < n then blockByte b j else 0x00) ∧
    blockByte (pad coreParams b n) j = (if j < n then blockByte b j else if j = n then 0x80 else 0x00)

/-- 42_mode_engine.md R158: doubling is multiplication by x modulo x^128 + x^7 + x^2 + x + 1, linear and bijective. -/
def Obligations.DoublingInTheField : Prop :=
  (∀ (d : Block) (k : Nat), k < 128 → (dbl coreParams d).getLsbD k =
    ((decide (k ≠ 0) && d.getLsbD (k - 1)) ^^ (d.getLsbD 127 && decide (k = 0 ∨ k = 1 ∨ k = 2 ∨ k = 7)))) ∧
  (∀ a b : Block, dbl coreParams (a ^^^ b) = dbl coreParams a ^^^ dbl coreParams b) ∧
  Function.Bijective (dbl coreParams) ∧ dbl coreParams 0 = 0

/-- 42_mode_engine.md R159: G swaps the halves and rotates the upper one left by one; it is linear and bijective. -/
def Obligations.CombineIsALinearBijection : Prop :=
  (∀ y1 y2 : BitVec 64, coreParams.g (y1 ++ y2) = y2 ++ ((y1 <<< 1) ||| (y1 >>> 63))) ∧
  (∀ a b : Block, coreParams.g (a ^^^ b) = coreParams.g a ^^^ coreParams.g b) ∧
  Function.Bijective coreParams.g ∧ coreParams.g 0 = 0

/-- 42_mode_engine.md R160: with pairwise distinct constants, two blocks at the same position that differ in phase or kind get
different masks, for every admissible table. -/
def Obligations.DomainConstantsSeparateMasks : Prop :=
  ∀ (dc : DomainConstants) (d : Block) (dom dom' : Domain) (kind kind' : Kind),
    DistinctDomainConstants dc →
    nextMask coreParams (domainConst dc dom kind) d = nextMask coreParams (domainConst dc dom' kind') d →
    dom = dom' ∧ kind = kind'

/-! The nine commands -/

/-- 40_block_cipher.md R110: encoding, checks in order, effect, response. -/
def Obligations.EncblkRule : Prop :=
  ∀ (klen dlen : Nat) (din kin : Block) (s : State),
    (klen < 256 → dlen < 256 →
      decode ⟨BitVec.ofNat 32 (0x01000000 + klen * 256 + dlen), din, kin⟩ = some (.encblk klen dlen din kin)) ∧
    (s.phase ≠ .idle → exec (.encblk klen dlen din kin) s = .next (abort coreParams .errSeq s)) ∧
    (s.phase = .idle → klen ≠ 16 → exec (.encblk klen dlen din kin) s = .next (abort coreParams .errKeylen s)) ∧
    (s.phase = .idle → klen = 16 → dlen ≠ 16 → exec (.encblk klen dlen din kin) s = .next (abort coreParams .errLen s)) ∧
    (s.phase = .idle → klen = 16 → dlen = 16 → exec (.encblk klen dlen din kin) s =
      .next { s with lastcode := .ok, resp := some ⟨.ok, cipherE coreParams (expand coreParams kin) din, 16⟩ })

/-- 42_mode_engine.md R150 (with R152, R155): encoding, checks in order, every register written, response. -/
def Obligations.InitRule : Prop :=
  ∀ (dir : Dir) (klen nlen : Nat) (din kin : Block) (s : State),
    (klen < 256 → nlen < 256 →
      decode ⟨BitVec.ofNat 32 (0x02000000 + (dirBit dir).toNat * 2 ^ 17 + klen * 256 + nlen), din, kin⟩ =
        some (.init dir klen nlen din kin)) ∧
    (s.phase ≠ .idle → exec (.init dir klen nlen din kin) s = .next (abort coreParams .errSeq s)) ∧
    (s.phase = .idle → klen ≠ 16 → exec (.init dir klen nlen din kin) s = .next (abort coreParams .errKeylen s)) ∧
    (s.phase = .idle → klen = 16 → nlen ≠ 16 → exec (.init dir klen nlen din kin) s = .next (abort coreParams .errNoncelen s)) ∧
    (s.phase = .idle → klen = 16 → nlen = 16 → exec (.init dir klen nlen din kin) s =
      .next { s with
        rk := expand coreParams kin
        y := cipherE coreParams (expand coreParams kin) din
        delta := (cipherE coreParams (expand coreParams kin) din).extractLsb' 64 64 ++ 0#64
        dir := dir
        first := true
        phase := .ad
        lastcode := .ok
        resp := some ⟨.ok, 0, 0⟩ })

/-- 42_mode_engine.md R161 (with R157, R162, R164): encoding, checks in order, every register written, response. -/
def Obligations.AdblkRule : Prop :=
  ∀ (last : Bool) (n : Nat) (din kin : Block) (s : State) (d' : Block) (kind : Kind),
    kind = (if n = 0 then .empty else if n = 16 ∧ last = false then .notLast else
      if n = 16 ∧ last = true then .lastFull else .lastPart) →
    d' = dbl coreParams s.delta ^^^ (domainConst s.cfg.dc .ad kind).setWidth 128 →
    (n < 65536 →
      decode ⟨BitVec.ofNat 32 (0x03000000 + last.toNat * 2 ^ 16 + n), din, kin⟩ = some (.adblk last n din)) ∧
    (s.phase ≠ .ad → exec (.adblk last n din) s = .next (abort coreParams .errSeq s)) ∧
    (s.phase = .ad → (n > 16 ∨ (last = false ∧ n ≠ 16) ∨ (n = 0 ∧ s.first = false)) →
      exec (.adblk last n din) s = .next (abort coreParams .errLen s)) ∧
    (s.phase = .ad → n ≤ 16 → (last = true ∨ n = 16) → (n ≠ 0 ∨ s.first = true) → exec (.adblk last n din) s =
      .next { s with
        y := cipherE coreParams s.rk (pad coreParams din n ^^^ coreParams.g s.y ^^^ d')
        delta := d'
        first := last
        phase := if last then .msg else .ad
        lastcode := .ok
        resp := some ⟨.ok, 0, 0⟩ })

/-- 42_mode_engine.md R165 in direction ENC (with R157, R166): encoding, checks in order, every register written, response. HOLD and
HOLDLEN are untouched. -/
def Obligations.MsgblkEncryptRule : Prop :=
  ∀ (last : Bool) (n : Nat) (din kin : Block) (s : State) (d' : Block) (kind : Kind),
    s.dir = .enc →
    kind = (if n = 0 then .empty else if n = 16 ∧ last = false then .notLast else
      if n = 16 ∧ last = true then .lastFull else .lastPart) →
    d' = dbl coreParams s.delta ^^^ (domainConst s.cfg.dc .msg kind).setWidth 128 →
    (n < 65536 →
      decode ⟨BitVec.ofNat 32 (0x04000000 + last.toNat * 2 ^ 16 + n), din, kin⟩ = some (.msgblk last n din)) ∧
    (s.phase ≠ .msg → exec (.msgblk last n din) s = .next (abort coreParams .errSeq s)) ∧
    (s.phase = .msg → (n > 16 ∨ (last = false ∧ n ≠ 16) ∨ (n = 0 ∧ s.first = false)) →
      exec (.msgblk last n din) s = .next (abort coreParams .errLen s)) ∧
    (s.phase = .msg → n ≤ 16 → (last = true ∨ n = 16) → (n ≠ 0 ∨ s.first = true) → exec (.msgblk last n din) s =
      .next { s with
        y := cipherE coreParams s.rk (pad coreParams (trunc din n) n ^^^ coreParams.g s.y ^^^ d')
        delta := d'
        first := false
        phase := if last then .fin else .msg
        lastcode := .ok
        resp := some ⟨.ok, trunc (din ^^^ coreParams.g s.y) n, n⟩ })

/-- 42_mode_engine.md R165 in direction DEC (with R157, R166): checks in order with the capacity, every register written, the
plaintext into block HOLDLEN div 16 and every other byte of HOLD unchanged, a response without data. -/
def Obligations.MsgblkDecryptRule : Prop :=
  ∀ (last : Bool) (n : Nat) (din : Block) (s : State) (d' plain : Block) (kind : Kind),
    s.dir = .dec →
    kind = (if n = 0 then .empty else if n = 16 ∧ last = false then .notLast else
      if n = 16 ∧ last = true then .lastFull else .lastPart) →
    d' = dbl coreParams s.delta ^^^ (domainConst s.cfg.dc .msg kind).setWidth 128 →
    plain = trunc (din ^^^ coreParams.g s.y) n →
    (s.phase ≠ .msg → exec (.msgblk last n din) s = .next (abort coreParams .errSeq s)) ∧
    (s.phase = .msg → (n > 16 ∨ (last = false ∧ n ≠ 16) ∨ (n = 0 ∧ s.first = false)) →
      exec (.msgblk last n din) s = .next (abort coreParams .errLen s)) ∧
    (s.phase = .msg → n ≤ 16 → (last = true ∨ n = 16) → (n ≠ 0 ∨ s.first = true) →
      s.holdlen.toNat + n > 16 * s.holdBlocks → exec (.msgblk last n din) s = .next (abort coreParams .errOverflow s)) ∧
    (s.phase = .msg → n ≤ 16 → (last = true ∨ n = 16) → (n ≠ 0 ∨ s.first = true) →
      s.holdlen.toNat + n ≤ 16 * s.holdBlocks →
      ∃ hold' : Memory,
        exec (.msgblk last n din) s =
          .next { s with
            y := cipherE coreParams s.rk (pad coreParams plain n ^^^ coreParams.g s.y ^^^ d')
            delta := d'
            first := false
            phase := if last then .fin else .msg
            hold := hold'
            holdlen := s.holdlen + BitVec.ofNat 32 n
            lastcode := .ok
            resp := some ⟨.ok, 0, 0⟩ } ∧
        (n = 0 → hold' = s.hold) ∧
        (Memory.wf s.hold = true → Memory.wf hold' = true ∧
          (n ≠ 0 → ∀ a, Memory.read hold' a =
            if 16 * holdWriteBlock s ≤ a ∧ a < 16 * holdWriteBlock s + 16 then blockByte plain (a - 16 * holdWriteBlock s)
            else Memory.read s.hold a)))

/-- 43_tag_and_release.md R190: encoding, checks in order, the tag answered, the core wiped. -/
def Obligations.GettagRule : Prop :=
  ∀ (s : State) (din kin : Block),
    decode ⟨0x05000000#32, din, kin⟩ = some .gettag ∧
    (s.phase ≠ .fin ∨ s.dir = .dec → exec .gettag s = .next (abort coreParams .errSeq s)) ∧
    (s.phase = .fin → s.dir = .enc → exec .gettag s =
      .next { State.reset with cfg := s.cfg, pending := s.pending, resp := some ⟨.ok, s.y, 16⟩ })

/-- 43_tag_and_release.md R193: encoding, checks in order, what a match keeps and clears, that a mismatch wipes the core. -/
def Obligations.VerifyRule : Prop :=
  ∀ (n : Nat) (din kin : Block) (s : State),
    (n < 65536 → decode ⟨BitVec.ofNat 32 (0x06000000 + n), din, kin⟩ = some (.verify n din)) ∧
    (s.phase ≠ .fin ∨ s.dir = .enc → exec (.verify n din) s = .next (abort coreParams .errSeq s)) ∧
    (s.phase = .fin → s.dir = .dec → n ≠ 16 → exec (.verify n din) s = .next (abort coreParams .errLen s)) ∧
    (s.phase = .fin → s.dir = .dec → n = 16 → din ≠ s.y → exec (.verify n din) s = .next (abort coreParams .errAuth s)) ∧
    (s.phase = .fin → s.dir = .dec → n = 16 → din = s.y → exec (.verify n din) s =
      .next { s with
        rk := List.replicate 40 0
        y := 0
        delta := 0
        first := false
        phase := .rel
        lastcode := .ok
        resp := some ⟨.ok, 0, 0⟩ })

/-- 43_tag_and_release.md R196 (with 20_memory.md R55): encoding, checks in order, the plaintext block answered byte by byte, no
register but LASTCODE written. HOLDLEN within the capacity keeps an accepted block number inside the buffer; a block number at or
past HOLD_BLOCKS, which no state meeting the invariant accepts, is RdbufOutsideTheBufferStops. -/
def Obligations.RdbufRule : Prop :=
  ∀ (idx n : Nat) (din kin : Block) (s : State), n = min 16 (s.holdlen.toNat - 16 * idx) →
    (idx < 65536 → decode ⟨BitVec.ofNat 32 (0x07000000 + idx), din, kin⟩ = some (.rdbuf idx)) ∧
    (s.phase ≠ .rel → exec (.rdbuf idx) s = .next (abort coreParams .errSeq s)) ∧
    (s.phase = .rel → 16 * idx ≥ s.holdlen.toNat → exec (.rdbuf idx) s = .next (abort coreParams .errRange s)) ∧
    (s.phase = .rel → 16 * idx < s.holdlen.toNat → idx < s.holdBlocks →
      ∃ d : Block, exec (.rdbuf idx) s = .next { s with lastcode := .ok, resp := some ⟨.ok, d, n⟩ } ∧
        ∀ j, j < 16 → blockByte d j = if j < n then Memory.read s.hold (16 * idx + j) else 0) ∧
    (16 * idx < s.holdlen.toNat → s.holdlen.toNat ≤ 16 * s.holdBlocks → idx < s.holdBlocks)

/-- The model's choice (log 7; 93_implementation_defined.md U11): MemRead is not defined outside the buffer, and the machine stops
there by name. -/
def Obligations.RdbufOutsideTheBufferStops : Prop :=
  ∀ (idx : Nat) (s : State), s.phase = .rel → 16 * idx < s.holdlen.toNat → s.holdBlocks ≤ idx →
    exec (.rdbuf idx) s = .fault (.holdBlockOutside idx)

/-- 43_tag_and_release.md R191: encoding; from every state the core is wiped and OK answered. -/
def Obligations.ClearRule : Prop :=
  ∀ (s : State) (din kin : Block),
    decode ⟨0x08000000#32, din, kin⟩ = some .clear ∧
    exec .clear s = .next { State.reset with cfg := s.cfg, pending := s.pending, resp := some ⟨.ok, 0, 0⟩ }

/-- 43_tag_and_release.md R195, 10_state.md R30: encoding; from every state the status word is answered and no register written. -/
def Obligations.RdstatRule : Prop :=
  ∀ (s : State) (din kin : Block),
    decode ⟨0x09000000#32, din, kin⟩ = some .rdstat ∧
    exec .rdstat s =
      .next { s with
        resp := some ⟨.ok, BitVec.ofNat 128
          (s.holdlen.toNat * 2 ^ 32 + (codeByte s.lastcode).toNat * 2 ^ 8 + s.first.toNat * 2 ^ 4 +
            (dirBit s.dir).toNat * 2 ^ 3 + (phaseBits s.phase).toNat), 16⟩ }

/-! Faults, responses, legality -/

/-- 60_exceptions.md R224: a command answered with a code other than OK leaves the wiped core, whatever the command, the code and the
phase; the response carries the code and nothing else. -/
def Obligations.EveryFaultAborts : Prop :=
  ∀ (s t : State) (c : Command) (rest : List HostEvent) (r : Response),
    s.pending = .command c :: rest → step s = .next t → t.resp = some r → r.code ≠ .ok →
    r.dout = 0 ∧ r.dlen = 0 ∧ responseWord r = codeByte r.code ++ 0#24 ∧
    t = { State.reset with cfg := s.cfg, pending := rest, lastcode := r.code, resp := some r }

/-- 60_exceptions.md R221, R223: the code reported is the first cause present in the order of the rule; ERR_ILLEGAL comes before
all. -/
def Obligations.ReportedCodeFollowsPriority : Prop :=
  (∀ (i : Instr) (s t : State), exec i s = .next t → responseCode t = some (reportedCode i s)) ∧
  (∀ (s t : State) (c : Command) (rest : List HostEvent), s.pending = .command c :: rest → decode c = none →
    step s = .next t → responseCode t = some .errIllegal)

/-- 30_encoding.md R76: a command not legal in the phase and direction raises ERR_SEQ; one that is accepted moves PHASE as the table
says. -/
def Obligations.LegalityByPhase : Prop :=
  ∀ (i : Instr) (s t : State), exec i s = .next t →
    (legal i s.phase s.dir = false → t = abort coreParams .errSeq s) ∧
    (legal i s.phase s.dir = true → responseCode t ≠ some .errSeq) ∧
    (responseCode t = some .ok → t.phase = phaseAfter i s.phase)

/-- 10_state.md R22, 42_mode_engine.md R170: AD is entered by INIT alone, MSG by a last ADBLK, FIN by a last MSGBLK, REL by a VERIFY
that matched. -/
def Obligations.PhasesAreEnteredByTheirCommandAlone : Prop :=
  ∀ (i : Instr) (s t : State), exec i s = .next t → t.phase ≠ s.phase →
    (t.phase = .ad → s.phase = .idle ∧ ∃ dir din kin, i = .init dir 16 16 din kin) ∧
    (t.phase = .msg → s.phase = .ad ∧ ∃ n din, i = .adblk true n din) ∧
    (t.phase = .fin → s.phase = .msg ∧ ∃ n din, i = .msgblk true n din) ∧
    (t.phase = .rel → s.phase = .fin ∧ s.dir = .dec ∧ i = .verify 16 s.y)

/-- 30_encoding.md R71, R74: every command gives one response; its word is CODE and DLEN and zeros; bytes past DLEN are zero, and
there is no data unless the code is OK. -/
def Obligations.ResponsesHaveTheStatedForm : Prop :=
  ∀ (s t : State) (c : Command) (rest : List HostEvent), s.pending = .command c :: rest → step s = .next t →
    ∃ r, t.resp = some r ∧ r.dlen ≤ 16 ∧
      responseWord r = BitVec.ofNat 32 ((codeByte r.code).toNat * 2 ^ 24 + r.dlen) ∧
      (∀ j, r.dlen ≤ j → j < 16 → blockByte r.dout j = 0) ∧
      (r.code ≠ .ok → r.dlen = 0 ∧ r.dout = 0)

/-- 10_state.md R29: LASTCODE is the code of the last command other than a well-formed RDSTAT, RDSTAT leaves it, reset writes OK, it
is the only register zeroisation leaves, and only RDSTAT reads it. -/
def Obligations.LastcodeKeepsTheLastCode : Prop :=
  (∀ (s t : State) (c : Command) (rest : List HostEvent), s.pending = .command c :: rest → step s = .next t →
    (decode c ≠ some .rdstat → responseCode t = some t.lastcode) ∧ (decode c = some .rdstat → t.lastcode = s.lastcode)) ∧
  (∀ s : State, (resetEvent coreParams s).lastcode = .ok ∧
    zeroise coreParams s = { State.reset with lastcode := s.lastcode, cfg := s.cfg, pending := s.pending, resp := s.resp }) ∧
  (∀ (i : Instr) (s : State) (c : Code), i ≠ .rdstat → exec i { s with lastcode := c } = exec i s)

/-! Invariants -/

/-- 10_state.md R34, R35, R36: the state after reset meets the invariant. -/
def Obligations.ResetMeetsTheInvariant : Prop :=
  Inv coreParams State.reset

/-- 10_state.md R34, R35: every step keeps the invariant: an idle core is wiped, HOLD is empty when encrypting, HOLDLEN is whole
blocks in MSG and within the capacity, bytes past HOLDLEN are zero, REL holds no key material, and HOLD keeps its canonical form. -/
def Obligations.StepKeepsTheInvariant : Prop :=
  ∀ s t : State, Inv coreParams s → step s = .next t → Inv coreParams t

/-- 00_scope.md R9, 60_exceptions.md R225: in a state that meets the invariant every step gives a next state: the model's own fault
is never raised. -/
def Obligations.InvariantStepsNeverStop : Prop :=
  ∀ s : State, Inv coreParams s → ∃ t, step s = .next t

/-- 70_reset_and_hazards.md R251, 10_state.md R33: no command and no reset writes the parameters. -/
def Obligations.ParametersAreNeverWritten : Prop :=
  ∀ s t : State, step s = .next t → t.cfg = s.cfg

/-! Data movement -/

/-- 20_memory.md R56: KIN matters to INIT and ENCBLK alone, DIN not to GETTAG, RDBUF, CLEAR and RDSTAT, and bytes of DIN past LEN
not to a block command. -/
def Obligations.IgnoredOperandsDoNotMatter : Prop :=
  (∀ (cw : CmdWord) (din kin kin' : Block), cw.extractLsb' 24 8 ≠ 0x01#8 → cw.extractLsb' 24 8 ≠ 0x02#8 →
    decode ⟨cw, din, kin⟩ = decode ⟨cw, din, kin'⟩) ∧
  (∀ (cw : CmdWord) (din din' kin : Block),
    (cw.extractLsb' 24 8 = 0x05#8 ∨ cw.extractLsb' 24 8 = 0x07#8 ∨ cw.extractLsb' 24 8 = 0x08#8 ∨
      cw.extractLsb' 24 8 = 0x09#8) → decode ⟨cw, din, kin⟩ = decode ⟨cw, din', kin⟩) ∧
  (∀ (last : Bool) (n : Nat) (din din' : Block) (s : State),
    (∀ j, j < n → j < 16 → blockByte din j = blockByte din' j) →
    exec (.adblk last n din) s = exec (.adblk last n din') s ∧
    exec (.msgblk last n din) s = exec (.msgblk last n din') s)

/-- 20_memory.md R57: a message block of n bytes gives n bytes of ciphertext or adds n to HOLDLEN, and RDBUF answers the stored
bytes of its block; every byte of DOUT past DLEN is zero. -/
def Obligations.OutputLengthEqualsInputLength : Prop :=
  (∀ (last : Bool) (n : Nat) (din : Block) (s t : State), exec (.msgblk last n din) s = .next t →
    responseCode t = some .ok →
    (s.dir = .enc → ∃ d, t.resp = some ⟨.ok, d, n⟩ ∧ ∀ j, n ≤ j → j < 16 → blockByte d j = 0) ∧
    (s.dir = .dec → t.resp = some ⟨.ok, 0, 0⟩ ∧ t.holdlen.toNat = s.holdlen.toNat + n)) ∧
  (∀ (idx : Nat) (s t : State), exec (.rdbuf idx) s = .next t → responseCode t = some .ok →
    ∃ d n, t.resp = some ⟨.ok, d, n⟩ ∧ n = min 16 (s.holdlen.toNat - 16 * idx) ∧ 0 < n ∧
      ∀ j, n ≤ j → j < 16 → blockByte d j = 0)

/-- 20_memory.md R58: an accepted RDBUF changes no register but LASTCODE, so reading any block again, in any order, gives the same
response. -/
def Obligations.ReadingHeldBlocksRepeats : Prop :=
  ∀ (i j : Nat) (s t u v : State), exec (.rdbuf i) s = .next t → responseCode t = some .ok →
    exec (.rdbuf j) s = .next u → exec (.rdbuf j) t = .next v →
    v.resp = u.resp ∧ SameRegisters v u ∧ t.hold = s.hold ∧ t.holdlen = s.holdlen

/-- 43_tag_and_release.md R198: VERIFY's outcome depends on the supplied tag only through whether it equals Y. -/
def Obligations.VerifyDependsOnEqualityAlone : Prop :=
  ∀ (n : Nat) (din din' : Block) (s : State), (din = s.y ↔ din' = s.y) → exec (.verify n din) s = exec (.verify n din') s

/-! The mode as a whole -/

/-- 42_mode_engine.md R168: an encryption and a decryption fed with its ciphertext go through the same Y and DELTA, block by
block. -/
def Obligations.DirectionsTraceTheSamePath : Prop :=
  ∀ (last : Bool) (n : Nat) (plain : Block) (r : Response) (s s' t t' : State),
    s.dir = .enc → s'.dir = .dec → s'.phase = s.phase → s'.first = s.first → s'.y = s.y → s'.delta = s.delta →
    s'.rk = s.rk → s'.cfg = s.cfg →
    exec (.msgblk last n plain) s = .next t → t.resp = some r → r.code = .ok →
    exec (.msgblk last n r.dout) s' = .next t' → responseCode t' = some .ok →
    t'.y = t.y ∧ t'.delta = t.delta ∧ t'.first = t.first ∧ t'.phase = t.phase

/-- 42_mode_engine.md R166(c), R173: after a full message block Y is the encryption of the ciphertext block and the mask; the old Y
does not enter. -/
def Obligations.FullBlockForgetsTheChainingValue : Prop :=
  ∀ (last : Bool) (din : Block) (s t : State), exec (.msgblk last 16 din) s = .next t → responseCode t = some .ok →
    (s.dir = .dec → t.y = cipherE coreParams s.rk (din ^^^ t.delta)) ∧
    (s.dir = .enc → ∃ c, t.resp = some ⟨.ok, c, 16⟩ ∧ t.y = cipherE coreParams s.rk (c ^^^ t.delta))

/-- 42_mode_engine.md R173(a): in a decryption with a full ciphertext block, the final Y, against which the tag is checked, depends
neither on the content of the associated data nor on the ciphertext blocks before that block, only on their lengths and flags. -/
def Obligations.TagIgnoresEarlierContent : Prop :=
  ∀ (ads ads' before before' after : List Piece) (q : Piece) (s t t' : State),
    s.dir = .dec → s.phase = .ad → q.len = 16 →
    ads.map (fun e => (e.len, e.last)) = ads'.map (fun e => (e.len, e.last)) →
    before.map (fun e => (e.len, e.last)) = before'.map (fun e => (e.len, e.last)) →
    execAll (ads.map (fun e => .adblk e.last e.len e.block) ++
      (before ++ q :: after).map (fun e => .msgblk e.last e.len e.block)) s = some t →
    execAll (ads'.map (fun e => .adblk e.last e.len e.block) ++
      (before' ++ q :: after).map (fun e => .msgblk e.last e.len e.block)) s = some t' →
    t.phase = .fin → t'.phase = .fin ∧ t'.y = t.y ∧ t'.delta = t.delta

/-- 43_tag_and_release.md R194: while a decryption is unverified, no response depends on the recovered plaintext, the key material or
the chaining value, whatever commands other than VERIFY the host presents; and a VERIFY that fails leaves nothing of them. -/
def Obligations.UnverifiedPlaintextIsNotObservable : Prop :=
  (∀ (is : List Instr) (s s' : State), (∀ i ∈ is, isVerify i = false) → Unverified s → SamePublic s s' →
    responsesOf is s = responsesOf is s') ∧
  (∀ (n : Nat) (din : Block) (s s' : State), Unverified s → SamePublic s s' → din ≠ s.y → din ≠ s'.y →
    exec (.verify n din) s = exec (.verify n din) s')

/-- 42_mode_engine.md R171, 43_tag_and_release.md R199: ENCRYPT with a 16-byte key and nonce never fails, computes the mode's
ciphertext and tag for any lengths, and leaves the core wiped, on a core with any parameters that take a 16-byte nonce
(93_implementation_defined.md U3); this hardware is the one at coreParams (EveryCoreKeepsItsInvariant). -/
def Obligations.EncryptComputesTheMode : Prop :=
  ∀ (p : Params) (key nonce ad pt : List Byte) (s : State), p.nonceBytes = 16 → s.phase = .idle → key.length = 16 →
    nonce.length = 16 →
    ∃ t, runEncrypt p key nonce ad pt s =
        (.ok (aeadEnc p s.cfg.dc (packSequence key) (packSequence nonce) ad pt), t) ∧
      SameRegisters t (State.resetWith p)

/-- 42_mode_engine.md R171, 30_encoding.md R82: DECRYPT of a ciphertext that fits the hold buffer returns the mode's plaintext, or
ERR_AUTH and nothing when the tag does not match; either way the core is left wiped; on a core with any parameters that take a 16-byte
nonce. -/
def Obligations.DecryptComputesTheMode : Prop :=
  ∀ (p : Params) (key nonce ad ct : List Byte) (tag : Block) (s : State), p.nonceBytes = 16 → Inv p s → s.phase = .idle →
    key.length = 16 → nonce.length = 16 → ct.length ≤ s.holdBytes →
    ∃ t, Wiped p t ∧ runDecrypt p key nonce ad ct tag s =
      (match aeadDec p s.cfg.dc (packSequence key) (packSequence nonce) ad ct tag with
        | some pt => .ok pt
        | none => .error (.code .errAuth), t)

/-- 30_encoding.md R82, 90_conflicts.md C8: DECRYPT of a ciphertext longer than the hold buffer ends with ERR_OVERFLOW and a wiped
core, on a core with any parameters that take a 16-byte nonce. -/
def Obligations.LongCiphertextOverflows : Prop :=
  ∀ (p : Params) (key nonce ad ct : List Byte) (tag : Block) (s : State), p.nonceBytes = 16 → Inv p s → s.phase = .idle →
    key.length = 16 → nonce.length = 16 → ct.length > s.holdBytes →
    ∃ t, Wiped p t ∧ runDecrypt p key nonce ad ct tag s = (.error (.code .errOverflow), t)

/-- 42_mode_engine.md R172(a), (b): the round trip and the length, for every choice of the parameters and of the domain constants. -/
def Obligations.ModeRoundTrip : Prop :=
  ∀ (p : Params) (dc : DomainConstants) (key nonce : Block) (ad pt : List Byte),
    (aeadEnc p dc key nonce ad pt).1.length = pt.length ∧
    aeadDec p dc key nonce ad (aeadEnc p dc key nonce ad pt).1 (aeadEnc p dc key nonce ad pt).2 = some pt

/-- 42_mode_engine.md R169, 70_reset_and_hazards.md R258: what the calls R258 gives each command add up to over the commands of
ENCRYPT for associated data of a bytes and a message of m bytes. The calls per command are a declared table of the model that no
meaning reads (the model's choice, log 15): the statement is about that table and the host program, not about `exec`. -/
def Obligations.CipherCallCount : Prop :=
  ∀ (key nonce ad pt : List Byte),
    ((initCommand .enc key nonce :: (adCommands ad ++ msgCommands pt ++ [.gettag])).map cipherCalls).sum =
      1 + max 1 ((ad.length + 15) / 16) + max 1 ((pt.length + 15) / 16)

/-- 30_encoding.md R83, 42_mode_engine.md R152: a key or nonce of the wrong length is reported at once, whatever stands on the
ports, and the key first. -/
def Obligations.WrongLengthsAreReported : Prop :=
  ∀ (key nonce ad msg : List Byte) (s : State), s.phase = .idle →
    (key.length ≠ 16 → runEncrypt coreParams key nonce ad msg s = (.error (.code .errKeylen), abort coreParams .errKeylen s)) ∧
    (key.length = 16 → nonce.length ≠ 16 →
      runEncrypt coreParams key nonce ad msg s = (.error (.code .errNoncelen), abort coreParams .errNoncelen s))

/-- 00_scope.md R5, 93_implementation_defined.md U3: the machine is the core at the decided parameters, its default, and a core built
with any other parameters (rounds, tables, G, KSTR and the rest) starts in the invariant, keeps it and never stops. -/
def Obligations.EveryCoreKeepsItsInvariant : Prop :=
  (∀ (i : Instr) (s : State), exec i s = execWith coreParams i s ∧ step s = stepWith coreParams s) ∧
  coreWith coreParams = core ∧
  (∀ p : Params, Inv p (State.resetWith p)) ∧
  (∀ (p : Params) (s t : State), Inv p s → stepWith p s = .next t → Inv p t) ∧
  (∀ (p : Params) (s : State), Inv p s → ∃ t, stepWith p s = .next t)
end

