-- ==== Sys2Proof/Tests/Slice0.lean ====
section
/-! SUPPORT. Tests. Expected values are those of 95_test_vectors.md and of the examples in the rules, never the model's own answers;
each docstring names its source. Then, for each statement with hypotheses, a witness that its hypotheses can be met together. -/

namespace Sys2Proof.Tests

open Sys2Proof Sys2Proof.Machine

/-! Helpers -/

/-- The next state of a result, if there is one. -/
def nextOf : Result → Option State
  | .next s => some s
  | _ => none

/-- The response after an instruction. -/
def respOf (i : Instr) (s : State) : Option Response := (nextOf (exec i s)).bind State.resp

/-- One field after an instruction. -/
def after {α : Type} (f : State → α) (i : Instr) (s : State) : Option α := (nextOf (exec i s)).map f

/-- K1 of 95_test_vectors.md. -/
def k1 : Block := 0x000102030405060708090A0B0C0D0E0F

/-- N1 of 95_test_vectors.md. -/
def n1 : Block := 0x101112131415161718191A1B1C1D1E1F

/-- A16 of 95_test_vectors.md. -/
def a16 : Block := 0xA0A1A2A3A4A5A6A7A8A9AAABACADAEAF

/-- A core in a phase, the rest as after reset. -/
def inPhase (p : Phase) (d : Dir) (f : Bool) : State := { State.reset with phase := p, dir := d, first := f }

/-- The same with a chaining value and a mask, under K1. -/
def chained (p : Phase) (d : Dir) (f : Bool) (y mask : Block) : State :=
  { inPhase p d f with rk := expand coreParams k1, y := y, delta := mask }

/-- Phase REL with the 20 bytes of P20 held (95_test_vectors.md program P3 after command 7). -/
def released : State :=
  { inPhase .rel .dec false with
    hold := Memory.writeBlock (Memory.writeBlock [] 0 0x505152535455565758595A5B5C5D5E5F) 1 0x60616263000000000000000000000000
    holdlen := 20 }

/-! WellFormed: each check refuses a term that breaks it alone -/

theorem test_wf_encblk_key_length : ¬ (Instr.encblk 256 16 0 0).WellFormed := by decide
theorem test_wf_encblk_block_length : ¬ (Instr.encblk 16 256 0 0).WellFormed := by decide
theorem test_wf_init_key_length : ¬ (Instr.init .enc 256 16 0 0).WellFormed := by decide
theorem test_wf_init_nonce_length : ¬ (Instr.init .dec 16 256 0 0).WellFormed := by decide
theorem test_wf_adblk_length : ¬ (Instr.adblk true 65536 0).WellFormed := by decide
theorem test_wf_msgblk_length : ¬ (Instr.msgblk false 65536 0).WellFormed := by decide
theorem test_wf_verify_length : ¬ (Instr.verify 65536 0).WellFormed := by decide
theorem test_wf_rdbuf_block : ¬ (Instr.rdbuf 65536).WellFormed := by decide

/-! Decoding: words written out by the layout of 30_encoding.md R72, fields OPC, RSV0, DIR, LAST, ARG -/

/-- V-EN 01002010, with both operands. -/
theorem test_decode_encblk :
    decode ⟨0b00000001#8 ++ 0b000000#6 ++ 0b0#1 ++ 0b0#1 ++ 0b0010000000010000#16, n1, k1⟩ = some (.encblk 32 16 n1 k1) := by
  decide

/-- V-EN 0200100C with DIR set (R73, R81: 0x02020000 + klen·256 + nlen). -/
theorem test_decode_init_dec :
    decode ⟨0b00000010#8 ++ 0b000000#6 ++ 0b1#1 ++ 0b0#1 ++ 0b0001000000001100#16, n1, k1⟩ = some (.init .dec 16 12 n1 k1) := by
  decide

/-- V-EN 02001010. -/
theorem test_decode_init_enc :
    decode ⟨0b00000010#8 ++ 0b000000#6 ++ 0b0#1 ++ 0b0#1 ++ 0b0001000000010000#16, n1, k1⟩ = some (.init .enc 16 16 n1 k1) := by
  decide

/-- V-EN 0301FFFF: KIN is ignored. -/
theorem test_decode_adblk :
    decode ⟨0b00000011#8 ++ 0b000000#6 ++ 0b0#1 ++ 0b1#1 ++ 0b1111111111111111#16, a16, k1⟩ = some (.adblk true 65535 a16) := by
  decide

/-- V-EN 04010003 and its form without LAST. -/
theorem test_decode_msgblk :
    decode ⟨0b00000100#8 ++ 0b000000#6 ++ 0b0#1 ++ 0b1#1 ++ 0b0000000000000011#16, a16, k1⟩ = some (.msgblk true 3 a16) ∧
    decode ⟨0b00000100#8 ++ 0b000000#6 ++ 0b0#1 ++ 0b0#1 ++ 0b0000000000010000#16, a16, k1⟩ = some (.msgblk false 16 a16) := by
  decide

/-- V-EN 05000000. -/
theorem test_decode_gettag :
    decode ⟨0b00000101#8 ++ 0b000000#6 ++ 0b0#1 ++ 0b0#1 ++ 0b0000000000000000#16, a16, k1⟩ = some .gettag := by decide

/-- V-EN 06000010. -/
theorem test_decode_verify :
    decode ⟨0b00000110#8 ++ 0b000000#6 ++ 0b0#1 ++ 0b0#1 ++ 0b0000000000010000#16, a16, k1⟩ = some (.verify 16 a16) := by decide

/-- V-EN 07000001, and an index that uses both bytes of ARG. -/
theorem test_decode_rdbuf :
    decode ⟨0b00000111#8 ++ 0b000000#6 ++ 0b0#1 ++ 0b0#1 ++ 0b0000000000000001#16, a16, k1⟩ = some (.rdbuf 1) ∧
    decode ⟨0b00000111#8 ++ 0b000000#6 ++ 0b0#1 ++ 0b0#1 ++ 0b0001001000110100#16, a16, k1⟩ = some (.rdbuf 4660) := by decide

/-- V-EN 08000000. -/
theorem test_decode_clear :
    decode ⟨0b00001000#8 ++ 0b000000#6 ++ 0b0#1 ++ 0b0#1 ++ 0b0000000000000000#16, a16, k1⟩ = some .clear := by decide

/-- V-EN 09000000. -/
theorem test_decode_rdstat :
    decode ⟨0b00001001#8 ++ 0b000000#6 ++ 0b0#1 ++ 0b0#1 ++ 0b0000000000000000#16, a16, k1⟩ = some .rdstat := by decide

/-- V-EN, the words that match no row. -/
theorem test_decode_illegal :
    ([0x00000000, 0xFFFFFFFF, 0x0A000000, 0x02041010, 0x02011010, 0x03020010, 0x01011010] ++
      [0x05010000, 0x05000001, 0x06010010, 0x07020000, 0x08000001, 0x09000001, 0x09020000]).all
        (fun w => (decodeTableWord 32 w).isNone) = true := by decide

/-- log 11: DIN and KIN above CW. -/
theorem test_decode_operand_bits :
    decodeTableWord 288 (0x01001010 + n1.toNat * 2 ^ 32 + k1.toNat * 2 ^ 160) = some (.encblk 16 16 n1 k1) := by decide +kernel

/-- 30_encoding.md R81: the words of the textual forms. -/
theorem test_encode_words :
    (encode (asmEncblk k1 n1)).cw = 0x01001010 ∧ (encode (asmInit .dec k1 n1)).cw = 0x02021010 ∧
    (encode (asmInit .enc k1 n1 (nlen := 12))).cw = 0x0200100C ∧ (encode (asmAdblk a16 16)).cw = 0x03000010 ∧
    (encode (asmAdblkLast a16 0)).cw = 0x03010000 ∧ (encode (asmMsgblk a16 16)).cw = 0x04000010 ∧
    (encode (asmMsgblkLast a16 3)).cw = 0x04010003 ∧ (encode (asmVerify a16)).cw = 0x06000010 := by decide

/-! The block cipher and the key schedule -/

/-- V-BC-9 SubCells. -/
theorem test_subcells :
    subCells coreParams 0x0123456789ABCDEF0123456789ABCDEF = 0x1A4C6F392DB7508E1A4C6F392DB7508E := by decide +kernel

/-- V-BC-9 PermBits. -/
theorem test_permbits :
    permBits coreParams 0xFF = 0x000000090000000C0000000600000003 ∧
    permBits coreParams 0xF0000000000000000000000000000000 = 0x40000000200000001000000080000000 := by decide +kernel

/-- V-BC-9 KMASK. -/
theorem test_keymask :
    keyMask coreParams (0xFFFFFFFF#32 ++ 0#32) = 0x44444444444444444444444444444444 ∧
    keyMask coreParams (1#32 ++ 0#32) = 4 ∧
    keyMask coreParams (0#32 ++ 0x80000000#32) = 0x20000000000000000000000000000000 := by decide +kernel

/-- V-BC-9 CMASK. -/
theorem test_constmask :
    constMask coreParams 0x01 = 0x80000000000000000000000000000008 ∧
    constMask coreParams 0x2A = 0x80000000000000000000000000808080 := by decide +kernel

/-- V-BC-8: one and two rounds, all-zero key, and no round at all. -/
theorem test_reduced_rounds :
    cipherE { coreParams with rounds := 1 } (expand { coreParams with rounds := 1 } 0) 0 = 0x91111111111111111111111111111119 ∧
    cipherE { coreParams with rounds := 2 } (expand { coreParams with rounds := 2 } k1) n1 =
      0x33456D0482E131E232BF629334163754 ∧
    cipherE { coreParams with rounds := 0 } (expand { coreParams with rounds := 0 } k1) n1 = n1 := by decide +kernel

/-- V-BC-3, a recalled published vector. -/
theorem test_cipher_published :
    cipherE coreParams (expand coreParams 0xD0F5C59A7700D3E799028FA9F90AD837) 0xE39C141FA57DBA43F08A85B6A91F86C1 =
      0x13EDE67CBDCC3DBF400A62D6977265EA := by decide +kernel

/-- 41_key_schedule.md R136: the worked example. -/
theorem test_round_keys :
    (expand coreParams k1)[0]? = some 0x040506070C0D0E0F ∧ (expand coreParams k1)[1]? = some 0x0001020308090A0B ∧
    (expand coreParams k1)[2]? = some 0x4303E0F004050607 ∧ (expand coreParams k1)[39]? = some 0x90800B0A40002030 := by
  decide +kernel

/-! The primitives of the mode (V-PR) -/

/-- V-PR dbl. -/
theorem test_dbl :
    dbl coreParams 0x80000000000000000000000000000001 = 0x85 ∧
    dbl coreParams 0xFFFFFFFFFFFFFFFFFFFFFFFFFFFFFFFF = 0xFFFFFFFFFFFFFFFFFFFFFFFFFFFFFF79 ∧
    dbl coreParams k1 = 0x00020406080A0C0E10121416181A1C1E := by decide +kernel

/-- V-PR G. -/
theorem test_combine :
    coreParams.g 0x80000000000000010123456789ABCDEF = 0x0123456789ABCDEF0000000000000003 ∧
    coreParams.g 1 = 0x00000000000000010000000000000000 := by decide +kernel

/-- V-PR pad. -/
theorem test_pad :
    pad coreParams 0x1112131415161718191A1B1C1D1E1F20 0 = 0x80000000000000000000000000000000 ∧
    pad coreParams 0x1112131415161718191A1B1C1D1E1F20 5 = 0x11121314158000000000000000000000 ∧
    pad coreParams 0x1112131415161718191A1B1C1D1E1F20 15 = 0x1112131415161718191A1B1C1D1E1F80 ∧
    pad coreParams 0x1112131415161718191A1B1C1D1E1F20 16 = 0x1112131415161718191A1B1C1D1E1F20 := by decide +kernel

/-- V-PR trunc. -/
theorem test_trunc :
    trunc 0x1112131415161718191A1B1C1D1E1F20 0 = 0 ∧
    trunc 0x1112131415161718191A1B1C1D1E1F20 1 = 0x11000000000000000000000000000000 ∧
    trunc 0x1112131415161718191A1B1C1D1E1F20 15 = 0x1112131415161718191A1B1C1D1E1F00 := by decide +kernel

/-! The commands, one step each -/

/-- V-BC-4, program P1 command 2. -/
theorem test_encblk :
    respOf (asmEncblk k1 n1) State.reset = some ⟨.ok, 0x84C7900515B116F48051FE86B944FED6, 16⟩ := by decide +kernel

/-- V-FT-6: both lengths wrong, the key length is reported. -/
theorem test_encblk_both_lengths :
    respOf (.encblk 15 15 n1 k1) State.reset = some ⟨.errKeylen, 0, 0⟩ := by decide +kernel

/-- 42_mode_engine.md R150, the example. -/
theorem test_init :
    after (fun t => (t.y, t.delta, t.phase, t.first)) (asmInit .enc k1 n1) State.reset =
      some (0x84C7900515B116F48051FE86B944FED6, 0x84C7900515B116F40000000000000000, .ad, true) := by decide +kernel

/-- V-FT-3: both lengths wrong, the key length is reported. -/
theorem test_init_both_lengths : respOf (.init .enc 17 15 n1 k1) State.reset = some ⟨.errKeylen, 0, 0⟩ := by decide +kernel

/-- 42_mode_engine.md R161, the example. -/
theorem test_adblk :
    after (fun t => (t.y, t.delta, t.phase, t.first)) (asmAdblk a16 16)
        (chained .ad .enc true 0x84C7900515B116F48051FE86B944FED6 0x84C7900515B116F40000000000000000) =
      some (0xF727789C664B971C3C15DBA0FC992AB9, 0x098F200A2B622DE80000000000000086, .ad, false) := by decide +kernel

/-- V-FT-23: an empty last block after data. -/
theorem test_adblk_empty_after_data :
    respOf (asmAdblkLast 0 0) (inPhase .ad .enc false) = some ⟨.errLen, 0, 0⟩ := by decide +kernel

/-- 42_mode_engine.md R165, the example (V-ME-5), with the ignored bytes of DIN set. -/
theorem test_msgblk_enc :
    (respOf (asmMsgblkLast 0x505152FFFFFFFFFFFFFFFFFFFFFFFFFF 3)
        (chained .msg .enc true 0x3C021D6F2B7445F825FD099DEB898F17 0x098F200A2B622DE80000000000000083),
      after (fun t => (t.y, t.delta, t.phase)) (asmMsgblkLast 0x505152FFFFFFFFFFFFFFFFFFFFFFFFFF 3)
        (chained .msg .enc true 0x3C021D6F2B7445F825FD099DEB898F17 0x098F200A2B622DE80000000000000083)) =
    (some ⟨.ok, 0x75AC5B00000000000000000000000000, 3⟩,
      some (0xA3995145931DF4FF9E59657C2AC9F576, 0x131E401456C45BD00000000000000101, .fin)) := by decide +kernel

/-- Program P3 command 5: HOLD[1], HOLDLEN and Y. -/
theorem test_msgblk_dec :
    after (fun t => (Memory.readBlock t.hold 1, t.holdlen, t.y, t.phase)) (asmMsgblkLast 0x84C8709A000000000000000000000000 4)
        { chained .msg .dec false 0x4A03508E3A93F4D0E4A912F942477613 0x263C8028AD88B7A0000000000000021B with holdlen := 16 } =
      some (0x60616263000000000000000000000000, 20, 0xED88D3ED9A665057F7F4B5FBD0F00FC2, .fin) := by decide +kernel

/-- V-ME-1: the tag, and an idle core after it. -/
theorem test_gettag :
    (respOf .gettag (chained .fin .enc false 0xE074216828748E3CA8968A44E2F4125C 0x189),
      after (fun t => (t.phase, t.y, t.rk)) .gettag (chained .fin .enc false 0xE074216828748E3CA8968A44E2F4125C 0x189)) =
    (some ⟨.ok, 0xE074216828748E3CA8968A44E2F4125C, 16⟩, some (.idle, 0, List.replicate 40 0)) := by decide +kernel

/-- V-FT-16: GETTAG in direction DEC. -/
theorem test_gettag_dec : respOf .gettag (chained .fin .dec false 5 0) = some ⟨.errSeq, 0, 0⟩ := by decide +kernel

/-- Program P3 command 7: HOLDLEN kept, Y and DELTA zero. -/
theorem test_verify :
    after (fun t => (t.phase, t.dir, t.holdlen, t.y, t.delta)) (asmVerify 0xED88D3ED9A665057F7F4B5FBD0F00FC2)
        { chained .fin .dec false 0xED88D3ED9A665057F7F4B5FBD0F00FC2 0x4C7900515B116F400000000000000431 with holdlen := 20 } =
      some (.rel, .dec, 20, 0, 0) := by decide +kernel

/-- Program P4 command 6: the core wiped, LASTCODE 3. -/
theorem test_verify_mismatch :
    after (fun t => (t.phase, t.dir, t.holdlen, t.lastcode, t.resp)) (asmVerify 0xED88D3ED9A665057F7F4B5FBD0F00FC3)
        { chained .fin .dec false 0xED88D3ED9A665057F7F4B5FBD0F00FC2 0x4C7900515B116F400000000000000431 with holdlen := 20 } =
      some (.idle, .enc, 0, .errAuth, some ⟨.errAuth, 0, 0⟩) := by decide +kernel

/-- Program P3 commands 9 and 10. -/
theorem test_rdbuf :
    respOf (.rdbuf 1) released = some ⟨.ok, 0x60616263000000000000000000000000, 4⟩ ∧
    respOf (.rdbuf 0) released = some ⟨.ok, 0x505152535455565758595A5B5C5D5E5F, 16⟩ := by decide +kernel

/-- V-FT-26: 16·2 ≥ 20, and the plaintext is wiped. -/
theorem test_rdbuf_range :
    (respOf (.rdbuf 2) released, after (fun t => (t.hold, t.holdlen, t.phase)) (.rdbuf 2) released) =
      (some ⟨.errRange, 0, 0⟩, some ([], 0, .idle)) := by decide +kernel

/-- Program P3 command 12: the reset state. -/
theorem test_clear : after (fun t => { t with resp := none }) .clear released = some State.reset := by decide +kernel

/-- 43_tag_and_release.md R195, the examples: after INIT.DEC, and in REL with 20 bytes held. -/
theorem test_rdstat :
    respOf .rdstat (inPhase .ad .dec true) = some ⟨.ok, 0x19, 16⟩ ∧
    respOf .rdstat released = some ⟨.ok, 0x000000140000000C, 16⟩ := by decide +kernel

/-- V-ST: after a failed VERIFY; and LASTCODE stays. -/
theorem test_rdstat_lastcode :
    respOf .rdstat (abort coreParams .errAuth released) = some ⟨.ok, 0x300, 16⟩ ∧
    after State.lastcode .rdstat (abort coreParams .errAuth released) = some .errAuth := by decide +kernel

/-- V-FT-8: an illegal word aborts the operation; the word stands where the step takes it. -/
theorem test_step_illegal :
    (nextOf (step ((chained .ad .enc true 5 6).withFetchWord 32 0x02041010))).map (fun t => (t.phase, t.y, t.delta, t.lastcode)) =
      some (.idle, 0, 0, .errIllegal) := by decide +kernel

/-- 70_reset_and_hazards.md R250. -/
theorem test_step_reset : nextOf (step { released with pending := [.reset] }) = some State.reset := by decide +kernel

/-! The machine at other parameters (00_scope.md R5) -/

/-- V-BC-8 as a command: ENCBLK on a core of two rounds. -/
theorem test_reduced_round_core :
    (nextOf (execWith { coreParams with rounds := 2 } (asmEncblk k1 n1) State.reset)).bind State.resp =
      some ⟨.ok, 0x33456D0482E131E232BF629334163754, 16⟩ := by decide +kernel

/-- 42_mode_engine.md R166 on V-ME-5's state with KSTR = identity: the ciphertext is P ⊕ Y, that is 505152 ⊕ 3C021D by hand, and Y is
driven by the plaintext alone, so it is V-ME-5's. -/
theorem test_identity_keystream_core :
    (nextOf (execWith { coreParams with kstr := id } (asmMsgblkLast 0x50515200000000000000000000000000 3)
        (chained .msg .enc true 0x3C021D6F2B7445F825FD099DEB898F17 0x098F200A2B622DE80000000000000083))).map
      (fun t => (t.resp, t.y)) =
      some (some ⟨.ok, 0x6C534F00000000000000000000000000, 3⟩, 0xA3995145931DF4FF9E59657C2AC9F576) := by decide +kernel

/-- 30_encoding.md R74: the response word of V-FT-5 and of V-ME-5. -/
theorem test_response_word :
    responseWord ⟨.errLen, 0, 0⟩ = 0x06000000 ∧ responseWord ⟨.ok, 0x75AC5B00000000000000000000000000, 3⟩ = 0x00000003 := by decide

/-! Witnesses: for each statement of Certificates/Slice0/Obligations.lean that has hypotheses, a concrete state and operands that
meet them, clause by clause at the ends of their ranges. -/

/-- Phase MSG of a decryption with a buffer of one block, already full of zero bytes. -/
def fullBuffer : State := { inPhase .msg .dec false with cfg := ⟨defaultDomainConstants, 0⟩, holdlen := 16 }

/-- A core with one command presented. -/
def presenting (i : Instr) (s : State) : State := { s with pending := [.command (encode i)] }

theorem witness_DecodeOfEncode : (Instr.init .dec 255 255 n1 k1).WellFormed ∧ (Instr.rdbuf 65535).WellFormed := by decide

theorem witness_LegalWordHasNoIgnoredBit : decode ⟨0x0301FFFF, a16, k1⟩ = some (.adblk true 65535 a16) := by decide

theorem witness_IllegalWordsExactly :
    decode ⟨0x09000001, 0, 0⟩ = none ∧
    ({ State.reset with pending := [.command ⟨0x09000001, 0, 0⟩] } : State).pending = [.command ⟨0x09000001, 0, 0⟩] := by decide

theorem witness_StepRunsDecodedCommand :
    (presenting (.rdbuf 1) released).pending = [.command (encode (.rdbuf 1))] ∧
    decode (encode (.rdbuf 1)) = some (.rdbuf 1) ∧ decodeTableWord 32 0x07000001 = some (.rdbuf 1) := by decide

theorem witness_ResetEventRestoresReset : ({ released with pending := [.reset] } : State).pending = [.reset] := by decide

theorem witness_SilentPortKeepsState : released.pending = [] := by decide

theorem witness_PresentedCommandsRunInOrder :
    (∀ i ∈ [Instr.rdbuf 1, .rdstat, .clear], i.WellFormed) ∧
    ∃ t, execAll [.rdbuf 1, .rdstat, .clear] { released with pending := [.reset] } = some t :=
  ⟨by decide, _, rfl⟩

theorem witness_SubCellsActsOnEveryNibble : 31 < 32 := by decide

theorem witness_PermBitsMovesEveryBit : 127 < 128 ∧ coreParams.p128 127 = coreParams.p128 127 := by decide

theorem witness_AddRoundKeyTouchesTwoSlices : 31 < 32 := by decide

theorem witness_AddConstantTouchesSevenBits : 0 < 128 ∧ 127 < 128 := by decide

theorem witness_RoundConstantsArePrinted : 47 < 48 := by decide

theorem witness_CipherIsTheRoundsInOrder : (List.replicate 48 (7 : RoundKey)).length ≤ 48 := by decide

theorem witness_KeyScheduleSelectsAndRotates : 39 < 40 := by decide

theorem witness_KeyScheduleClosedForm : 39 < 40 ∧ 7 + 32 < 40 := by decide

theorem witness_TruncAndPadByBytes : (0 ≤ 16 ∧ 0 < 16) ∧ (16 ≤ 16 ∧ 15 < 16) := by decide

theorem witness_DoublingInTheField : 0 < 128 ∧ 127 < 128 := by decide

theorem witness_DomainConstantsSeparateMasks :
    DistinctDomainConstants defaultDomainConstants ∧
    nextMask coreParams (domainConst defaultDomainConstants .msg .empty) 5 =
      nextMask coreParams (domainConst defaultDomainConstants .msg .empty) 5 :=
  ⟨by rintro (_ | _) (_ | _ | _ | _) (_ | _) (_ | _ | _ | _) <;> decide, rfl⟩

theorem witness_EncblkRule :
    (255 < 256 ∧ (inPhase .rel .dec false).phase ≠ .idle) ∧ (State.reset.phase = .idle ∧ 15 ≠ 16 ∧ 17 ≠ 16) ∧
    (State.reset.phase = .idle ∧ 16 = 16) := by decide

theorem witness_InitRule :
    (255 < 256 ∧ (inPhase .ad .enc true).phase ≠ .idle) ∧ (State.reset.phase = .idle ∧ 0 ≠ 16 ∧ 255 ≠ 16) ∧
    (State.reset.phase = .idle ∧ 16 = 16) := by decide

theorem witness_AdblkRule (last : Bool) (n : Nat) (s : State) :
    (∃ (kind : Kind) (d' : Block),
      kind = (if n = 0 then .empty else if n = 16 ∧ last = false then .notLast else
        if n = 16 ∧ last = true then .lastFull else .lastPart) ∧
      d' = dbl coreParams s.delta ^^^ (domainConst s.cfg.dc .ad kind).setWidth 128) ∧
    (65535 < 65536 ∧ (inPhase .idle .enc false).phase ≠ .ad) ∧
    ((inPhase .ad .enc true).phase = .ad ∧ 17 > 16 ∧ (false = false ∧ 15 ≠ 16) ∧ (0 = 0 ∧ (inPhase .ad .enc false).first = false)) ∧
    ((0 ≤ 16 ∧ true = true ∧ (inPhase .ad .enc true).first = true) ∧ (16 ≤ 16 ∧ 16 = 16 ∧ 16 ≠ 0)) :=
  ⟨⟨_, _, rfl, rfl⟩, by decide⟩

theorem witness_MsgblkEncryptRule (last : Bool) (n : Nat) (s : State) :
    (∃ (kind : Kind) (d' : Block),
      kind = (if n = 0 then .empty else if n = 16 ∧ last = false then .notLast else
        if n = 16 ∧ last = true then .lastFull else .lastPart) ∧
      d' = dbl coreParams s.delta ^^^ (domainConst s.cfg.dc .msg kind).setWidth 128) ∧
    ((inPhase .msg .enc true).dir = .enc ∧ (inPhase .ad .enc true).phase ≠ .msg ∧ 65535 < 65536) ∧
    ((inPhase .msg .enc true).phase = .msg ∧ 17 > 16 ∧ (false = false ∧ 15 ≠ 16) ∧ (0 = 0 ∧ (inPhase .msg .enc false).first = false)) ∧
    ((0 ≤ 16 ∧ true = true ∧ (inPhase .msg .enc true).first = true) ∧ (16 ≤ 16 ∧ 16 = 16 ∧ 16 ≠ 0)) :=
  ⟨⟨_, _, rfl, rfl⟩, by decide⟩

theorem witness_MsgblkDecryptRule (last : Bool) (n : Nat) (din : Block) (s : State) :
    (∃ (kind : Kind) (d' plain : Block),
      kind = (if n = 0 then .empty else if n = 16 ∧ last = false then .notLast else
        if n = 16 ∧ last = true then .lastFull else .lastPart) ∧
      d' = dbl coreParams s.delta ^^^ (domainConst s.cfg.dc .msg kind).setWidth 128 ∧
      plain = trunc (din ^^^ coreParams.g s.y) n) ∧
    (fullBuffer.dir = .dec ∧ (inPhase .fin .dec true).phase ≠ .msg) ∧
    (fullBuffer.phase = .msg ∧ 17 > 16 ∧ (0 = 0 ∧ fullBuffer.first = false)) ∧
    (fullBuffer.holdlen.toNat + 1 > 16 * fullBuffer.holdBlocks ∧ 1 ≤ 16 ∧ 1 ≠ 0) ∧
    ({ fullBuffer with holdlen := 0 }.holdlen.toNat + 16 ≤ 16 * fullBuffer.holdBlocks ∧ 16 ≠ 0 ∧ Memory.wf fullBuffer.hold = true) ∧
    ({ fullBuffer with first := true }.holdlen.toNat + 0 ≤ 16 * fullBuffer.holdBlocks ∧ { fullBuffer with first := true }.first = true) :=
  ⟨⟨_, _, _, rfl, rfl, rfl⟩, by decide⟩

theorem witness_GettagRule :
    ((inPhase .msg .enc false).phase ≠ .fin ∧ (inPhase .fin .dec false).dir = .dec) ∧
    ((inPhase .fin .enc false).phase = .fin ∧ (inPhase .fin .enc false).dir = .enc) := by decide

theorem witness_VerifyRule :
    (65535 < 65536 ∧ (inPhase .rel .dec false).phase ≠ .fin ∧ (inPhase .fin .enc false).dir = .enc) ∧
    ((inPhase .fin .dec false).phase = .fin ∧ (inPhase .fin .dec false).dir = .dec ∧ 15 ≠ 16 ∧ 17 ≠ 16) ∧
    ((1 : Block) ≠ (inPhase .fin .dec false).y ∧ (0 : Block) = (inPhase .fin .dec false).y) := by decide

theorem witness_RdbufRule :
    (4 = min 16 (released.holdlen.toNat - 16 * 1) ∧ 65535 < 65536 ∧ (inPhase .fin .dec false).phase ≠ .rel) ∧
    (released.phase = .rel ∧ 16 * 2 ≥ released.holdlen.toNat) ∧
    (16 * 1 < released.holdlen.toNat ∧ 1 < released.holdBlocks ∧ released.holdlen.toNat ≤ 16 * released.holdBlocks) := by decide

theorem witness_RdbufOutsideTheBufferStops :
    { released with cfg := ⟨defaultDomainConstants, 0⟩ }.phase = .rel ∧ 16 * 1 < released.holdlen.toNat ∧
    { released with cfg := ⟨defaultDomainConstants, 0⟩ }.holdBlocks ≤ 1 := by decide

theorem witness_EveryFaultAborts :
    (presenting (.rdbuf 2) released).pending = [.command (encode (.rdbuf 2))] ∧
    ∃ t, step (presenting (.rdbuf 2) released) = .next t ∧ t.resp = some ⟨.errRange, 0, 0⟩ ∧ Code.errRange ≠ .ok :=
  ⟨rfl, _, rfl, rfl, by decide⟩

theorem witness_ReportedCodeFollowsPriority :
    (∃ t, exec (.msgblk true 17 0) fullBuffer = .next t) ∧ decode ⟨0x02041010, 0, 0⟩ = none ∧
    ∃ t, step { released with pending := [.command ⟨0x02041010, 0, 0⟩] } = .next t :=
  ⟨⟨_, rfl⟩, by decide, ⟨_, rfl⟩⟩

theorem witness_LegalityByPhase :
    (∃ t, exec (.verify 16 0) (inPhase .fin .enc false) = .next t) ∧
    legal (.verify 16 0) (inPhase .fin .enc false).phase (inPhase .fin .enc false).dir = false ∧
    legal (.verify 16 0) (inPhase .fin .dec false).phase (inPhase .fin .dec false).dir = true ∧
    ∃ t, exec (.verify 16 0) (inPhase .fin .dec false) = .next t ∧ responseCode t = some .ok :=
  ⟨⟨_, rfl⟩, rfl, rfl, ⟨_, rfl, rfl⟩⟩

theorem witness_PhasesAreEnteredByTheirCommandAlone :
    (∃ t, exec (.init .dec 16 16 n1 k1) State.reset = .next t ∧ t.phase = .ad) ∧
    (∃ t, exec (.adblk true 0 0) (inPhase .ad .enc true) = .next t ∧ t.phase = .msg) ∧
    (∃ t, exec (.msgblk true 0 0) (inPhase .msg .enc true) = .next t ∧ t.phase = .fin) ∧
    (∃ t, exec (.verify 16 0) (inPhase .fin .dec false) = .next t ∧ t.phase = .rel) :=
  ⟨⟨_, rfl, rfl⟩, ⟨_, rfl, rfl⟩, ⟨_, rfl, rfl⟩, ⟨_, rfl, rfl⟩⟩

theorem witness_ResponsesHaveTheStatedForm :
    (presenting (.rdbuf 1) released).pending = [.command (encode (.rdbuf 1))] ∧
    ∃ t, step (presenting (.rdbuf 1) released) = .next t :=
  ⟨rfl, _, rfl⟩

theorem witness_LastcodeKeepsTheLastCode :
    (∃ t, step (presenting (.rdbuf 1) released) = .next t) ∧ decode (encode (.rdbuf 1)) ≠ some .rdstat ∧
    (∃ t, step (presenting .rdstat released) = .next t) ∧ decode (encode .rdstat) = some .rdstat ∧ Instr.clear ≠ .rdstat :=
  ⟨⟨_, rfl⟩, by decide, ⟨_, rfl⟩, by decide, by decide⟩

/-- A wiped core whose last command failed meets the invariant. -/
theorem failed_inv : Inv coreParams { State.reset with lastcode := .errAuth } where
  holdWf := rfl
  idleWiped _ := ⟨rfl, rfl, rfl, rfl, rfl, rfl, rfl, rfl⟩
  encEmpty _ := ⟨rfl, rfl⟩
  adEmpty _ := ⟨rfl, rfl⟩
  msgWhole h := by cases h
  zeroPast _ _ := rfl
  relClean h := by cases h
  firstPhase h := by cases h
  capacity := by decide
  rkLength := rfl

theorem witness_StepKeepsTheInvariant :
    Inv coreParams { State.reset with lastcode := .errAuth } ∧ ∃ t, step { State.reset with lastcode := .errAuth } = .next t :=
  ⟨failed_inv, _, rfl⟩

theorem witness_EveryCoreKeepsItsInvariant :
    Inv coreParams { State.reset with lastcode := .errAuth } ∧
    ∃ t, stepWith coreParams (presenting (.encblk 16 16 0 0) { State.reset with lastcode := .errAuth }) = .next t :=
  ⟨failed_inv, _, rfl⟩

/-- A decryption whose buffer is full meets the invariant. -/
theorem witness_InvariantStepsNeverStop : Inv coreParams fullBuffer where
  holdWf := rfl
  idleWiped h := by cases h
  encEmpty h := by cases h
  adEmpty h := by cases h
  msgWhole _ := by decide
  zeroPast _ _ := rfl
  relClean h := by cases h
  firstPhase h := by cases h
  capacity := by decide
  rkLength := rfl

theorem witness_ParametersAreNeverWritten : ∃ t, step (presenting .clear released) = .next t := ⟨_, rfl⟩

theorem witness_IgnoredOperandsDoNotMatter :
    ((0x03000010#32).extractLsb' 24 8 ≠ 0x01#8 ∧ (0x03000010#32).extractLsb' 24 8 ≠ 0x02#8) ∧
    (0x05000000#32).extractLsb' 24 8 = 0x05#8 ∧ (0x09000000#32).extractLsb' 24 8 = 0x09#8 ∧
    ∀ j, j < 15 → j < 16 → blockByte (0xFF : Block) j = blockByte (0 : Block) j := by decide

theorem witness_OutputLengthEqualsInputLength :
    (∃ t, exec (.msgblk true 16 0) (inPhase .msg .enc true) = .next t ∧ responseCode t = some .ok) ∧
    (∃ t, exec (.msgblk true 16 0) (inPhase .msg .dec true) = .next t ∧ responseCode t = some .ok) ∧
    (∃ t, exec (.rdbuf 1) released = .next t ∧ responseCode t = some .ok) :=
  ⟨⟨_, rfl, rfl⟩, ⟨_, rfl, rfl⟩, ⟨_, rfl, rfl⟩⟩

theorem witness_ReadingHeldBlocksRepeats :
    ∃ t, exec (.rdbuf 1) released = .next t ∧ responseCode t = some .ok ∧
      (∃ u, exec (.rdbuf 0) released = .next u) ∧ ∃ v, exec (.rdbuf 0) t = .next v :=
  ⟨_, rfl, rfl, ⟨_, rfl⟩, ⟨_, rfl⟩⟩

theorem witness_VerifyDependsOnEqualityAlone :
    (1 : Block) = (inPhase .fin .dec false).y ↔ (1#128 <<< 127) = (inPhase .fin .dec false).y := by decide

theorem witness_DirectionsTraceTheSamePath :
    (inPhase .msg .dec true).y = (inPhase .msg .enc true).y ∧
    ∃ t r, exec (.msgblk true 3 a16) (inPhase .msg .enc true) = .next t ∧ t.resp = some r ∧ r.code = .ok ∧
      ∃ t', exec (.msgblk true 3 r.dout) (inPhase .msg .dec true) = .next t' ∧ responseCode t' = some .ok :=
  ⟨rfl, _, _, rfl, rfl, rfl, _, rfl, rfl⟩

theorem witness_FullBlockForgetsTheChainingValue :
    (∃ t, exec (.msgblk false 16 a16) (inPhase .msg .enc false) = .next t ∧ responseCode t = some .ok) ∧
    (∃ t, exec (.msgblk true 16 a16) (inPhase .msg .dec true) = .next t ∧ responseCode t = some .ok) :=
  ⟨⟨_, rfl, rfl⟩, ⟨_, rfl, rfl⟩⟩

theorem witness_TagIgnoresEarlierContent :
    (inPhase .ad .dec true).dir = .dec ∧ (inPhase .ad .dec true).phase = .ad ∧
    [Piece.mk 1 4 true].map (fun e => (e.len, e.last)) = [Piece.mk 2 4 true].map (fun e => (e.len, e.last)) ∧
    (∃ t, execAll [.adblk true 4 1, .msgblk false 16 3, .msgblk false 16 5, .msgblk true 7 6] (inPhase .ad .dec true) = some t ∧
      t.phase = .fin) ∧
    ∃ t', execAll [.adblk true 4 2, .msgblk false 16 4, .msgblk false 16 5, .msgblk true 7 6] (inPhase .ad .dec true) = some t' :=
  ⟨rfl, rfl, rfl, ⟨_, rfl, rfl⟩, ⟨_, rfl⟩⟩

theorem witness_UnverifiedPlaintextIsNotObservable :
    (∀ i ∈ [Instr.msgblk true 16 a16, .rdbuf 0, .rdstat], isVerify i = false) ∧ Unverified (inPhase .msg .dec true) ∧
    SamePublic (inPhase .msg .dec true) (chained .msg .dec true 1 2) ∧
    Unverified (inPhase .fin .dec false) ∧ SamePublic (inPhase .fin .dec false) (chained .fin .dec false 1 2) ∧
    (3 : Block) ≠ (inPhase .fin .dec false).y ∧ (3 : Block) ≠ (chained .fin .dec false 1 2).y :=
  ⟨by decide, ⟨rfl, .inr (.inl rfl)⟩, ⟨rfl, rfl, rfl, rfl, rfl, rfl, rfl, rfl⟩, ⟨rfl, .inr (.inr rfl)⟩,
    ⟨rfl, rfl, rfl, rfl, rfl, rfl, rfl, rfl⟩, by decide, by decide⟩

theorem witness_EncryptComputesTheMode : coreParams.nonceBytes = 16 ∧ State.reset.phase = .idle ∧ (List.replicate 16 (0 : Byte)).length = 16 := by decide

theorem witness_DecryptComputesTheMode :
    coreParams.nonceBytes = 16 ∧ Inv coreParams { State.reset with lastcode := .errAuth } ∧ ({ State.reset with lastcode := .errAuth } : State).phase = .idle ∧
    (List.replicate 16 (7 : Byte)).length = 16 ∧
    (List.replicate 64 (7 : Byte)).length ≤ ({ State.reset with lastcode := .errAuth } : State).holdBytes :=
  ⟨rfl, failed_inv, rfl, rfl, by decide⟩

theorem witness_LongCiphertextOverflows :
    coreParams.nonceBytes = 16 ∧ Inv coreParams { State.reset with lastcode := .errAuth } ∧ (List.replicate 16 (7 : Byte)).length = 16 ∧
    (List.replicate 65 (7 : Byte)).length > ({ State.reset with lastcode := .errAuth } : State).holdBytes :=
  ⟨rfl, failed_inv, rfl, by decide⟩

theorem witness_WrongLengthsAreReported :
    State.reset.phase = .idle ∧ (List.replicate 15 (0 : Byte)).length ≠ 16 ∧ (List.replicate 16 (0 : Byte)).length = 16 ∧
    (List.replicate 17 (0 : Byte)).length ≠ 16 := by decide

end Sys2Proof.Tests
end

section
/-! PROOFS, family 00_scope. A step runs the command it decodes; every core keeps its invariant; no step from a state that meets it
stops. The parameters are arbitrary throughout, and this hardware is the case `coreParams`. -/

namespace Sys2Proof.Machine

/-! A legal command at the port -/

/-- A legal command at the head of the port runs on the state with that command sampled (30_encoding.md R79). -/
theorem takeEvent_command (p : Params) (run : Instr → State → Result) {s : State} {c : Command} {rest : List HostEvent}
    {i : Instr} (hp : s.pending = .command c :: rest) (hd : decode c = some i) :
    takeEvent p run s = run i (sampled rest s) := by
  simp only [takeEvent, hp, hd]

/-- Sampling the command just presented gives back the state before. -/
@[simp] theorem sampled_present (c : Command) (s : State) : sampled s.pending (s.present c) = s := rfl

/-- Settles O6: both clauses are `takeEvent_command`, the second for the word that `withFetchWord` has just placed. -/
theorem stepRunsDecodedCommand : Obligations.StepRunsDecodedCommand := by
  unfold Obligations.StepRunsDecodedCommand
  refine ⟨fun s c rest i hp hd => takeEvent_command coreParams exec hp hd, fun s nbits w i hd => ?_⟩
  calc step (s.withFetchWord nbits w)
      = exec i (sampled s.pending (s.present (commandOfBits nbits w))) :=
        takeEvent_command coreParams exec (present_pending _ s) hd
    _ = exec i s := by rw [sampled_present]

/-! This hardware is the core at `coreParams` -/

theorem exec_eq_execWith : exec = execWith coreParams := by
  funext i s
  cases i <;> rfl

theorem step_eq_stepWith : step = stepWith coreParams := by
  funext s
  rw [step, stepWith, exec_eq_execWith]

theorem coreWith_coreParams : coreWith coreParams = core := by
  rw [coreWith, ← step_eq_stepWith]
  rfl

/-! The wiped states (10_state.md R31, R34): what zeroisation, an abort and reset leave -/

@[simp] theorem length_zeroRoundKeys (p : Params) : (zeroRoundKeys p).length = p.rounds := List.length_replicate

theorem wiped_zeroise (p : Params) (s : State) : Wiped p (zeroise p s) := ⟨rfl, rfl, rfl, rfl, rfl, rfl, rfl, rfl⟩

theorem wiped_abort (p : Params) (c : Code) (s : State) : Wiped p (abort p c s) := ⟨rfl, rfl, rfl, rfl, rfl, rfl, rfl, rfl⟩

theorem wiped_resetEvent (p : Params) (s : State) : Wiped p (resetEvent p s) := ⟨rfl, rfl, rfl, rfl, rfl, rfl, rfl, rfl⟩

theorem wiped_resetWith (p : Params) : Wiped p (State.resetWith p) := ⟨rfl, rfl, rfl, rfl, rfl, rfl, rfl, rfl⟩

/-- A wiped core meets the invariant: it is idle and its hold buffer is empty. -/
theorem Wiped.inv {p : Params} {s : State} (hw : Wiped p s) : Inv p s where
  holdWf := by rw [hw.hold]; rfl
  idleWiped _ := hw
  encEmpty _ := ⟨hw.hold, hw.holdlen⟩
  adEmpty _ := ⟨hw.hold, hw.holdlen⟩
  msgWhole _ := by simp [hw.holdlen]
  zeroPast a _ := by rw [hw.hold, Memory.read_nil]
  relClean hp := by simp [hw.phase] at hp
  firstPhase hf := by simp [hw.first] at hf
  capacity := by simp [hw.holdlen]
  rkLength := by rw [hw.rk, length_zeroRoundKeys]

/-! What ends a command writes LASTCODE and the ports, of which the invariant says nothing -/

theorem Inv.withPorts {p : Params} {s : State} (h : Inv p s) (c : Code) (events : List HostEvent) (r : Option Response) :
    Inv p { s with lastcode := c, pending := events, resp := r } :=
  { h with idleWiped := fun hp => { h.idleWiped hp with } }

theorem Inv.complete {p : Params} {s : State} (h : Inv p s) (d : Block) (n : Nat) : Inv p (complete d n s) :=
  h.withPorts .ok s.pending (some ⟨.ok, d, n⟩)

theorem Inv.respond {p : Params} {s : State} (h : Inv p s) (c : Code) (d : Block) (n : Nat) : Inv p (respond c d n s) :=
  h.withPorts s.lastcode s.pending (some ⟨c, d, n⟩)

theorem Inv.sampled {p : Params} {s : State} (h : Inv p s) (rest : List HostEvent) : Inv p (sampled rest s) :=
  h.withPorts s.lastcode rest s.resp

/-! What the accepted commands write keeps the invariant -/

/-- Phase AD is entered from IDLE, whose hold buffer is empty (42_mode_engine.md R153). -/
theorem Inv.initAccept {p : Params} {s : State} (h : Inv p s) (hidle : s.phase = .idle) (dir : Dir) (din kin : Block) :
    Inv p (initAccept p dir din kin s) :=
  have empty : s.hold = [] ∧ s.holdlen = 0 := ⟨(h.idleWiped hidle).hold, (h.idleWiped hidle).holdlen⟩
  { holdWf := h.holdWf
    idleWiped := nofun
    encEmpty := fun _ => empty
    adEmpty := fun _ => empty
    msgWhole := nofun
    zeroPast := h.zeroPast
    relClean := nofun
    firstPhase := fun _ => .inl rfl
    capacity := h.capacity
    rkLength := length_expand p kin }

/-- Phase MSG is entered with the empty buffer of phase AD. -/
theorem Inv.adblkAccept {p : Params} {s : State} (h : Inv p s) (had : s.phase = .ad) (last : Bool) (len : Nat) (din : Block) :
    Inv p (adblkAccept p last len din s) :=
  have empty : s.hold = [] ∧ s.holdlen = 0 := h.adEmpty had
  have hnext {ph : Phase} (e : phaseAfterAd last s.phase = ph) : ph = .ad ∨ ph = .msg := by
    rw [← e, had]; cases last <;> simp [phaseAfterAd]
  { h with
    idleWiped := fun e => absurd (hnext e) (by decide)
    adEmpty := fun _ => empty
    msgWhole := fun _ => by simp [empty]
    relClean := fun e => absurd (hnext e) (by decide)
    firstPhase := fun _ => hnext rfl }

/-- A message block moves on from MSG to MSG or FIN, and leaves the buffer to `holdAppend`. -/
theorem Inv.msgblkChain {p : Params} {s : State} (h : Inv p s) (hmsg : s.phase = .msg) (last : Bool) (len : Nat) (plain : Block) :
    Inv p (msgblkChain p last len plain s) :=
  have hnext {ph : Phase} (e : phaseAfterMsg last s.phase = ph) : ph = .msg ∨ ph = .fin := by
    rw [← e, hmsg]; cases last <;> simp [phaseAfterMsg]
  { h with
    idleWiped := fun e => absurd (hnext e) (by decide)
    adEmpty := fun e => absurd (hnext e) (by decide)
    msgWhole := fun _ => h.msgWhole hmsg
    relClean := fun e => absurd (hnext e) (by decide)
    firstPhase := nofun }

/-- A cut block written where the buffer ends leaves zeros past its valid bytes (20_memory.md R55). -/
theorem read_writeBlock_past {m : Memory} {i n : Nat} {v : Block} (hwf : Memory.wf m = true)
    (hzero : ∀ a, 16 * i ≤ a → Memory.read m a = 0) (a : Nat) (ha : 16 * i + n ≤ a) :
    Memory.read (Memory.writeBlock m i (trunc v n)) a = 0 := by
  rw [Memory.read_writeBlock m i _ a hwf]
  split
  · rw [blockByte_trunc v n _ (by omega), if_neg (by omega)]
  · exact hzero a (by omega)

/-- While a message is decrypted the buffer may become any one in canonical form that is zero past its length, fits, and in phase
MSG holds whole blocks (10_state.md R35). -/
theorem Inv.withHold {p : Params} {s : State} {m : Memory} {len : BitVec 32} (h : Inv p s) (hdec : s.dir = .dec)
    (hphase : s.phase = .msg ∧ len.toNat % 16 = 0 ∨ s.phase = .fin) (hwf : Memory.wf m = true)
    (hzero : ∀ a, len.toNat ≤ a → Memory.read m a = 0) (hcap : len.toNat ≤ s.holdBytes) :
    Inv p { s with hold := m, holdlen := len } :=
  have hph {ph : Phase} (e : s.phase = ph) : ph = .msg ∧ len.toNat % 16 = 0 ∨ ph = .fin := e ▸ hphase
  { h with
    holdWf := hwf
    idleWiped := fun e => by simpa using hph e
    encEmpty := fun e => by simp [hdec] at e
    adEmpty := fun e => by simpa using hph e
    msgWhole := fun e => by simpa using hph e
    zeroPast := hzero
    relClean := fun e => by simpa using hph e
    capacity := hcap }

/-- Recovered plaintext is appended to whole blocks of a buffer that has room for it, in phase MSG a whole block
(42_mode_engine.md R165). -/
theorem Inv.holdAppend {p : Params} {s t : State} {n : Nat} {v : Block} (h : Inv p s) (hdec : s.dir = .dec)
    (hphase : s.phase = .msg ∧ n = 16 ∨ s.phase = .fin) (hwhole : s.holdlen.toNat % 16 = 0)
    (hfits : s.holdlen.toNat + n ≤ s.holdBytes) (happend : holdAppend n v s = some t) : Inv p t := by
  have hend : 16 * holdWriteBlock s = s.holdlen.toNat := by unfold holdWriteBlock; omega
  have hlen := holdlen_append n s hfits
  rcases holdAppend_cases n v s with ⟨-, e⟩ | ⟨-, -, e⟩ | ⟨-, -, e⟩
  · cases e.symm.trans happend
    exact h
  · cases e.symm.trans happend
    refine h.withHold hdec (hphase.imp_left fun ⟨hmsg, hn⟩ => ⟨hmsg, by omega⟩) (Memory.wf_writeBlock _ _ _ h.holdWf)
      (fun a ha => ?_) (hlen.trans_le hfits)
    exact read_writeBlock_past h.holdWf (fun b hb => h.zeroPast b (by omega)) a (by omega)
  · cases e.symm.trans happend

/-- Phase REL is entered by a matching VERIFY in direction DEC, which keeps the buffer (43_tag_and_release.md R193). -/
theorem Inv.verifyAccept {p : Params} {s : State} (h : Inv p s) (hdec : s.dir = .dec) : Inv p (verifyAccept p s) :=
  { h with
    idleWiped := nofun
    adEmpty := nofun
    msgWhole := nofun
    relClean := fun _ => ⟨hdec, rfl, rfl, rfl, rfl⟩
    firstPhase := nofun
    rkLength := length_zeroRoundKeys p }

/-! Every command and every step keeps the invariant -/

/-- An answered MSGBLK keeps the invariant, in either direction. -/
theorem Inv.execMsgblkWith {p : Params} {s t : State} {last : Bool} {len : Nat} {din : Block} (h : Inv p s)
    (hx : execMsgblkWith p last len din s = .next t) : Inv p t := by
  rcases execMsgblkWith_next hx with ⟨c, -, rfl⟩ | ⟨hmsg, -, -, -, -, rfl⟩ | ⟨hmsg, -, hlast, -, hdec, hfits, u, hu, rfl⟩
  · exact (wiped_abort p c s).inv
  · exact (h.msgblkChain hmsg last len _).complete _ _
  · refine Inv.complete ?_ _ _
    refine (h.msgblkChain hmsg last len _).holdAppend hdec ?_ (h.msgWhole hmsg) hfits hu
    rw [msgblkChain_phase, hmsg]
    cases last with
    | false => exact .inl ⟨rfl, by simpa using hlast⟩
    | true => exact .inr rfl

/-- An answered command keeps the invariant. -/
theorem Inv.execWith {p : Params} {s t : State} {i : Instr} (h : Inv p s) (hx : execWith p i s = .next t) : Inv p t := by
  have aborted (c : Code) : Inv p (abort p c s) := (wiped_abort p c s).inv
  cases i with
  | encblk klen dlen din kin =>
    rcases execEncblkWith_next hx with ⟨c, -, rfl⟩ | ⟨-, -, -, rfl⟩
    · exact aborted c
    · exact h.complete _ _
  | init dir klen nlen din kin =>
    rcases execInitWith_next hx with ⟨c, -, rfl⟩ | ⟨hidle, -, -, rfl⟩
    · exact aborted c
    · exact h.initAccept hidle dir din kin
  | adblk last len din =>
    rcases execAdblkWith_next hx with ⟨c, -, rfl⟩ | ⟨had, -, -, -, rfl⟩
    · exact aborted c
    · exact h.adblkAccept had last len din
  | msgblk last len din => exact h.execMsgblkWith hx
  | gettag =>
    rcases execGettagWith_next hx with ⟨c, -, rfl⟩ | ⟨-, -, rfl⟩
    · exact aborted c
    · exact (wiped_zeroise p s).inv.complete _ _
  | verify len din =>
    rcases execVerifyWith_next hx with ⟨c, -, rfl⟩ | ⟨-, hdec, -, -, rfl⟩
    · exact aborted c
    · exact h.verifyAccept hdec
  | rdbuf idx =>
    rcases execRdbufWith_next hx with ⟨c, -, rfl⟩ | ⟨-, -, -, rfl⟩
    · exact aborted c
    · exact h.complete _ _
  | clear =>
    obtain rfl := execClearWith_next hx
    exact (wiped_zeroise p s).inv.complete _ _
  | rdstat =>
    obtain rfl := execRdstat_next hx
    exact h.respond _ _ _

/-- An answered step keeps the invariant, whatever the host presents (10_state.md R34, R35). -/
theorem Inv.stepWith {p : Params} {s t : State} (h : Inv p s) (hstep : stepWith p s = .next t) : Inv p t := by
  unfold Machine.stepWith at hstep
  rcases takeEvent_cases p (Machine.execWith p) s with ⟨-, e⟩ | ⟨rest, -, e⟩ | ⟨c, rest, i, -, -, e⟩ | ⟨c, rest, -, -, e⟩ <;>
    rw [e] at hstep
  · cases hstep; exact h
  · cases hstep; exact (wiped_resetEvent p _).inv
  · exact (h.sampled rest).execWith hstep
  · cases hstep; exact (wiped_abort p _ _).inv

/-! No step stops: the capacity bound keeps every access inside the hold buffer -/

/-- A guarded command answers when its accepted outcome, with every check met, does: a failed check aborts, which is an answer too. -/
theorem guarded_answers {p : Params} {checks : List (Bool × Code)} {s : State} {acc : Result}
    (hacc : (∀ e ∈ checks, e.1 = true) → ∃ t, acc = .next t) : ∃ t, guarded p checks s acc = .next t := by
  cases hf : firstFailed checks with
  | none =>
    rw [guarded_accept hf]
    exact hacc ((firstFailed_none_iff checks).1 hf)
  | some c => exact ⟨_, guarded_abort hf⟩

/-- MSGBLK answers: its capacity check comes before the write to the buffer (42_mode_engine.md R165). -/
theorem execMsgblkWith_answers (p : Params) (last : Bool) (len : Nat) (din : Block) (s : State) :
    ∃ t, execMsgblkWith p last len din s = .next t := by
  refine guarded_answers fun hchecks => ?_
  have hfits : holdFits len s = true := hchecks (holdFits len s, .errOverflow) (by simp)
  unfold msgblkAccept
  cases hdir : s.dir with
  | enc => exact ⟨_, rfl⟩
  | dec =>
    have hroom : s.holdlen.toNat + len ≤ s.holdBytes := by simpa [holdFits, hdir] using hfits
    obtain ⟨t, ht⟩ := holdAppend_fits len (messagePlain p .dec din len s.y)
      (msgblkChain p last len (messagePlain p .dec din len s.y) s) hroom
    exact ⟨complete 0 0 t, by simp only [ht]⟩

/-- RDBUF answers where HOLDLEN keeps its bound: its index check comes before the read (43_tag_and_release.md R196). -/
theorem execRdbufWith_answers (p : Params) (idx : Nat) {s : State} (hcap : s.holdlen.toNat ≤ s.holdBytes) :
    ∃ t, execRdbufWith p idx s = .next t := by
  refine guarded_answers fun hchecks => ?_
  have hidx : 16 * idx < s.holdlen.toNat := by
    simpa using hchecks (decide (16 * idx < s.holdlen.toNat), .errRange) (by simp)
  rw [memRead_inside s idx _ hidx hcap]
  exact ⟨_, rfl⟩

/-- Every command answers where HOLDLEN keeps its bound. -/
theorem execWith_answers (p : Params) (i : Instr) {s : State} (hcap : s.holdlen.toNat ≤ s.holdBytes) :
    ∃ t, execWith p i s = .next t := by
  cases i with
  | encblk klen dlen din kin => exact guarded_answers fun _ => ⟨_, rfl⟩
  | init dir klen nlen din kin => exact guarded_answers fun _ => ⟨_, rfl⟩
  | adblk last len din => exact guarded_answers fun _ => ⟨_, rfl⟩
  | msgblk last len din => exact execMsgblkWith_answers p last len din s
  | gettag => exact guarded_answers fun _ => ⟨_, rfl⟩
  | verify len din => exact guarded_answers fun _ => ⟨_, rfl⟩
  | rdbuf idx => exact execRdbufWith_answers p idx hcap
  | clear => exact ⟨_, rfl⟩
  | rdstat => exact ⟨_, rfl⟩

/-- Every step of a core answers where HOLDLEN keeps its bound. -/
theorem stepWith_answers (p : Params) {s : State} (hcap : s.holdlen.toNat ≤ s.holdBytes) : ∃ t, stepWith p s = .next t := by
  unfold stepWith
  rcases takeEvent_cases p (execWith p) s with ⟨-, e⟩ | ⟨rest, -, e⟩ | ⟨c, rest, i, -, -, e⟩ | ⟨c, rest, -, -, e⟩ <;> rw [e]
  · exact ⟨_, rfl⟩
  · exact ⟨_, rfl⟩
  · exact execWith_answers p i (s := sampled rest s) hcap
  · exact ⟨_, rfl⟩

/-- Settles O44: of the invariant only the capacity bound is needed. -/
theorem invariantStepsNeverStop : Obligations.InvariantStepsNeverStop := by
  unfold Obligations.InvariantStepsNeverStop
  intro s h
  rw [step_eq_stepWith]
  exact stepWith_answers coreParams h.capacity

/-- Settles O60: reset wipes, every answered step keeps the invariant, and the invariant's capacity bound makes every step answer. -/
theorem everyCoreKeepsItsInvariant : Obligations.EveryCoreKeepsItsInvariant := by
  unfold Obligations.EveryCoreKeepsItsInvariant
  exact ⟨fun i s => ⟨congrFun (congrFun exec_eq_execWith i) s, congrFun step_eq_stepWith s⟩,
    coreWith_coreParams,
    fun p => (wiped_resetWith p).inv,
    fun _ _ _ h hstep => h.stepWith hstep,
    fun p _ h => stepWith_answers p h.capacity⟩

end Sys2Proof.Machine
end

section
/-! PROOFS, family 10_state. The register values after reset, the invariant of this hardware, how PHASE moves, and LASTCODE. The
lemmas speak of arbitrary parameters, and this hardware is the case `coreParams`. -/

namespace Sys2Proof.Machine

/-! Reset and the invariant -/

/-- Settles O43: the case `coreParams` of `Inv.stepWith`. -/
theorem stepKeepsTheInvariant : Obligations.StepKeepsTheInvariant := by
  unfold Obligations.StepKeepsTheInvariant
  intro s t h hstep
  rw [step_eq_stepWith] at hstep
  exact h.stepWith hstep

/-- Settles O42: the state after reset is wiped. -/
theorem resetMeetsTheInvariant : Obligations.ResetMeetsTheInvariant :=
  (wiped_resetWith coreParams).inv

/-- Every block of the empty buffer is zero (10_state.md R36). -/
@[simp] theorem Memory.readBlock_nil (i : Nat) : Memory.readBlock [] i = 0 :=
  block_ext_bytes fun j hj => by
    rw [Memory.blockByte_readBlock [] i j hj, Memory.read_nil]
    simp [blockByte]

/-- Settles O9: each register is read off the definition, HOLD by `Memory.readBlock_nil`. -/
theorem resetRegisterValues : Obligations.ResetRegisterValues :=
  ⟨rfl, rfl, rfl, rfl, rfl, rfl, rfl, Memory.readBlock_nil, rfl, rfl⟩

/-! How a command moves PHASE -/

/-- Recovered plaintext goes to HOLD and HOLDLEN (42_mode_engine.md R165): PHASE is kept. -/
theorem holdAppend_phase {n : Nat} {v : Block} {s t : State} (h : holdAppend n v s = some t) : t.phase = s.phase := by
  rcases holdAppend_cases n v s with ⟨-, e⟩ | ⟨-, -, e⟩ | ⟨-, -, e⟩ <;> cases e.symm.trans h <;> rfl

/-- The phases a command may leave a core in (10_state.md R22): IDLE, the phase it was in, or the one phase that this command
enters. -/
inductive PhaseMove (p : Params) (s : State) : Instr → Phase → Prop
  | idle (i : Instr) : PhaseMove p s i .idle
  | kept (i : Instr) : PhaseMove p s i s.phase
  | init (dir : Dir) (din kin : Block) (hidle : s.phase = .idle) : PhaseMove p s (.init dir 16 p.nonceBytes din kin) .ad
  | lastAdblk (len : Nat) (din : Block) (had : s.phase = .ad) : PhaseMove p s (.adblk true len din) .msg
  | lastMsgblk (len : Nat) (din : Block) (hmsg : s.phase = .msg) : PhaseMove p s (.msgblk true len din) .fin
  | verify (hfin : s.phase = .fin) (hdec : s.dir = .dec) : PhaseMove p s (.verify 16 s.y) .rel

/-- A block of associated data enters MSG when it is the last, else it stays (42_mode_engine.md R161). -/
theorem PhaseMove.afterAd {p : Params} {s : State} (had : s.phase = .ad) (last : Bool) (len : Nat) (din : Block) :
    PhaseMove p s (.adblk last len din) (phaseAfterAd last s.phase) := by
  cases last with
  | false => exact .kept _
  | true => exact .lastAdblk len din had

/-- A message block enters FIN when it is the last, else it stays (42_mode_engine.md R165). -/
theorem PhaseMove.afterMsg {p : Params} {s : State} (hmsg : s.phase = .msg) (last : Bool) (len : Nat) (din : Block) :
    PhaseMove p s (.msgblk last len din) (phaseAfterMsg last s.phase) := by
  cases last with
  | false => exact .kept _
  | true => exact .lastMsgblk len din hmsg

/-- An answered command moves PHASE in one of these ways. -/
theorem execWith_phaseMove {p : Params} {i : Instr} {s t : State} (h : execWith p i s = .next t) :
    PhaseMove p s i t.phase := by
  cases i with
  | encblk klen dlen din kin =>
    rcases execEncblkWith_next h with ⟨c, -, rfl⟩ | ⟨-, -, -, rfl⟩
    · exact .idle _
    · exact .kept _
  | init dir klen nlen din kin =>
    rcases execInitWith_next h with ⟨c, -, rfl⟩ | ⟨hidle, rfl, rfl, rfl⟩
    · exact .idle _
    · exact .init dir din kin hidle
  | adblk last len din =>
    rcases execAdblkWith_next h with ⟨c, -, rfl⟩ | ⟨had, -, -, -, rfl⟩
    · exact .idle _
    · exact .afterAd had last len din
  | msgblk last len din =>
    rcases execMsgblkWith_next h with ⟨c, -, rfl⟩ | ⟨hmsg, -, -, -, -, rfl⟩ | ⟨hmsg, -, -, -, -, -, u, hu, rfl⟩
    · exact .idle _
    · exact .afterMsg hmsg last len din
    · rw [complete_phase, holdAppend_phase hu]
      exact .afterMsg hmsg last len din
  | gettag =>
    rcases execGettagWith_next h with ⟨c, -, rfl⟩ | ⟨-, -, rfl⟩
    · exact .idle _
    · exact .idle _
  | verify len din =>
    rcases execVerifyWith_next h with ⟨c, -, rfl⟩ | ⟨hfin, hdec, rfl, rfl, rfl⟩
    · exact .idle _
    · exact .verify hfin hdec
  | rdbuf idx =>
    rcases execRdbufWith_next h with ⟨c, -, rfl⟩ | ⟨-, -, -, rfl⟩
    · exact .idle _
    · exact .kept _
  | clear =>
    obtain rfl := execClearWith_next h
    exact .idle _
  | rdstat =>
    obtain rfl := execRdstat_next h
    exact .kept _

/-- Settles O39: of the moves of `PhaseMove` that change PHASE, one at most enters each phase other than IDLE. -/
theorem phasesAreEnteredByTheirCommandAlone : Obligations.PhasesAreEnteredByTheirCommandAlone := by
  unfold Obligations.PhasesAreEnteredByTheirCommandAlone
  intro i s t h hne
  rw [exec_eq_execWith] at h
  have hmove := execWith_phaseMove h
  generalize t.phase = ph at hmove hne
  cases hmove with
  | idle => exact ⟨nofun, nofun, nofun, nofun⟩
  | kept => exact absurd rfl hne
  | init dir din kin hidle => exact ⟨fun _ => ⟨hidle, dir, din, kin, rfl⟩, nofun, nofun, nofun⟩
  | lastAdblk len din had => exact ⟨nofun, fun _ => ⟨had, len, din, rfl⟩, nofun, nofun⟩
  | lastMsgblk len din hmsg => exact ⟨nofun, nofun, fun _ => ⟨hmsg, len, din, rfl⟩, nofun⟩
  | verify hfin hdec => exact ⟨nofun, nofun, nofun, fun _ => ⟨hfin, hdec, rfl⟩⟩

/-! LASTCODE holds the code of the response -/

/-- A command other than RDSTAT ends in one of two ways: it aborts, or it completes (00_scope.md R8, 60_exceptions.md R224). -/
theorem execWith_ends {p : Params} {i : Instr} {s t : State} (hi : i ≠ .rdstat) (h : execWith p i s = .next t) :
    (∃ c, t = abort p c s) ∨ ∃ d n u, t = complete d n u := by
  cases i with
  | encblk klen dlen din kin =>
    rcases execEncblkWith_next h with ⟨c, -, rfl⟩ | ⟨-, -, -, rfl⟩
    · exact .inl ⟨c, rfl⟩
    · exact .inr ⟨_, _, _, rfl⟩
  | init dir klen nlen din kin =>
    rcases execInitWith_next h with ⟨c, -, rfl⟩ | ⟨-, -, -, rfl⟩
    · exact .inl ⟨c, rfl⟩
    · exact .inr ⟨_, _, _, rfl⟩
  | adblk last len din =>
    rcases execAdblkWith_next h with ⟨c, -, rfl⟩ | ⟨-, -, -, -, rfl⟩
    · exact .inl ⟨c, rfl⟩
    · exact .inr ⟨_, _, _, rfl⟩
  | msgblk last len din =>
    rcases execMsgblkWith_next h with ⟨c, -, rfl⟩ | ⟨-, -, -, -, -, rfl⟩ | ⟨-, -, -, -, -, -, u, -, rfl⟩
    · exact .inl ⟨c, rfl⟩
    · exact .inr ⟨_, _, _, rfl⟩
    · exact .inr ⟨_, _, u, rfl⟩
  | gettag =>
    rcases execGettagWith_next h with ⟨c, -, rfl⟩ | ⟨-, -, rfl⟩
    · exact .inl ⟨c, rfl⟩
    · exact .inr ⟨_, _, _, rfl⟩
  | verify len din =>
    rcases execVerifyWith_next h with ⟨c, -, rfl⟩ | ⟨-, -, -, -, rfl⟩
    · exact .inl ⟨c, rfl⟩
    · exact .inr ⟨_, _, _, rfl⟩
  | rdbuf idx =>
    rcases execRdbufWith_next h with ⟨c, -, rfl⟩ | ⟨-, -, -, rfl⟩
    · exact .inl ⟨c, rfl⟩
    · exact .inr ⟨_, _, _, rfl⟩
  | clear => exact .inr ⟨_, _, _, execClearWith_next h⟩
  | rdstat => exact absurd rfl hi

theorem responseCode_complete (d : Block) (n : Nat) (s : State) :
    responseCode (complete d n s) = some (complete d n s).lastcode := rfl

theorem responseCode_abort (p : Params) (c : Code) (s : State) :
    responseCode (abort p c s) = some (abort p c s).lastcode := rfl

/-- A command other than RDSTAT leaves the code it answers in LASTCODE (10_state.md R29). -/
theorem execWith_lastcode {p : Params} {i : Instr} {s t : State} (hi : i ≠ .rdstat) (h : execWith p i s = .next t) :
    responseCode t = some t.lastcode := by
  rcases execWith_ends hi h with ⟨c, rfl⟩ | ⟨d, n, u, rfl⟩
  · exact responseCode_abort p c s
  · exact responseCode_complete d n u

/-- A presented command, legal or not, leaves the code it answers in LASTCODE unless it is RDSTAT, which leaves LASTCODE. -/
theorem stepWith_lastcode {p : Params} {s t : State} {c : Command} {rest : List HostEvent}
    (hp : s.pending = .command c :: rest) (hstep : stepWith p s = .next t) :
    (decode c ≠ some .rdstat → responseCode t = some t.lastcode) ∧ (decode c = some .rdstat → t.lastcode = s.lastcode) := by
  cases hd : decode c with
  | none =>
    have e : stepWith p s = .next (abort p .errIllegal (sampled rest s)) := by simp only [stepWith, takeEvent, hp, hd]
    cases e.symm.trans hstep
    exact ⟨fun _ => responseCode_abort p _ _, nofun⟩
  | some i =>
    have hx : execWith p i (sampled rest s) = .next t := (takeEvent_command p (execWith p) hp hd).symm.trans hstep
    refine ⟨fun hi => execWith_lastcode (fun e => hi (congrArg some e)) hx, fun hi => ?_⟩
    cases hi
    rw [execRdstat_next hx, respond_lastcode, sampled_lastcode]

/-! No command but RDSTAT reads LASTCODE: each ends in `complete` or `abort`, which write it, and checks registers other than it -/

/-- The checks and the outcome given, LASTCODE does not matter: an abort writes it. -/
theorem guarded_withLastcode (p : Params) (checks : List (Bool × Code)) (s : State) (acc : Result) (c : Code) :
    guarded p checks { s with lastcode := c } acc = guarded p checks s acc := rfl

/-- A block is stored whatever LASTCODE holds, which stays. -/
theorem memWrite_withLastcode (s : State) (i n : Nat) (v : Block) (c : Code) :
    memWrite { s with lastcode := c } i n v = (memWrite s i n v).map fun t => { t with lastcode := c } := by
  have hblocks : State.holdBlocks { s with lastcode := c } = s.holdBlocks := rfl
  by_cases hb : i < s.holdBlocks
  · simp only [memWrite, hblocks, if_pos hb, Option.map_some]
  · simp only [memWrite, hblocks, if_neg hb, Option.map_none]

/-- Recovered plaintext is held back whatever LASTCODE holds, which stays. -/
theorem holdAppend_withLastcode (n : Nat) (v : Block) (s : State) (c : Code) :
    holdAppend n v { s with lastcode := c } = (holdAppend n v s).map fun t => { t with lastcode := c } := by
  have hblock : holdWriteBlock { s with lastcode := c } = holdWriteBlock s := rfl
  unfold holdAppend
  by_cases hn : n = 0
  · simp only [if_pos hn, Option.map_some]
  · simp only [if_neg hn, hblock, memWrite_withLastcode]
    cases memWrite s (holdWriteBlock s) n v <;> rfl

theorem msgblkChain_withLastcode (p : Params) (last : Bool) (len : Nat) (plain : Block) (s : State) (c : Code) :
    msgblkChain p last len plain { s with lastcode := c } = { msgblkChain p last len plain s with lastcode := c } := rfl

/-- An accepted MSGBLK in direction ENC (42_mode_engine.md R165). -/
theorem msgblkAccept_enc {s : State} (hdir : s.dir = .enc) (p : Params) (last : Bool) (len : Nat) (din : Block) :
    msgblkAccept p last len din s =
      .next (complete (streamXor p din len s.y) len (msgblkChain p last len (trunc din len) s)) := by
  simp only [msgblkAccept, hdir, messagePlain]

/-- An accepted MSGBLK in direction DEC (42_mode_engine.md R165). -/
theorem msgblkAccept_dec {s : State} (hdir : s.dir = .dec) (p : Params) (last : Bool) (len : Nat) (din : Block) :
    msgblkAccept p last len din s =
      (holdAppend len (streamXor p din len s.y) (msgblkChain p last len (streamXor p din len s.y) s)).elim
        (.fault (.holdBlockOutside (holdWriteBlock s))) fun t => .next (complete 0 0 t) := by
  simp only [msgblkAccept, hdir, messagePlain]
  cases holdAppend len (streamXor p din len s.y) (msgblkChain p last len (streamXor p din len s.y) s) <;> rfl

theorem dir_cases (d : Dir) : d = .enc ∨ d = .dec := by cases d <;> simp

/-- In direction DEC the LASTCODE that `holdAppend` passes on is then written over. -/
theorem msgblkAccept_withLastcode (p : Params) (last : Bool) (len : Nat) (din : Block) (s : State) (c : Code) :
    msgblkAccept p last len din { s with lastcode := c } = msgblkAccept p last len din s := by
  rcases dir_cases s.dir with hdir | hdir
  · rw [msgblkAccept_enc hdir, msgblkAccept_enc (s := { s with lastcode := c }) hdir]
    rfl
  · rw [msgblkAccept_dec hdir, msgblkAccept_dec (s := { s with lastcode := c }) hdir, msgblkChain_withLastcode,
      holdAppend_withLastcode]
    cases holdAppend len (streamXor p din len s.y) (msgblkChain p last len (streamXor p din len s.y) s) <;> rfl

/-- What a command other than RDSTAT does is the same whatever LASTCODE holds (10_state.md R29). -/
theorem execWith_withLastcode (p : Params) {i : Instr} (hi : i ≠ .rdstat) (s : State) (c : Code) :
    execWith p i { s with lastcode := c } = execWith p i s := by
  cases i with
  | encblk klen dlen din kin => exact guarded_withLastcode p _ s _ c
  | init dir klen nlen din kin => exact guarded_withLastcode p _ s _ c
  | adblk last len din => exact guarded_withLastcode p _ s _ c
  | msgblk last len din =>
    exact (guarded_withLastcode p _ s _ c).trans
      (congrArg (guarded p _ s) (msgblkAccept_withLastcode p last len din s c))
  | gettag => exact guarded_withLastcode p _ s _ c
  | verify len din => exact guarded_withLastcode p _ s _ c
  | rdbuf idx => exact guarded_withLastcode p _ s _ c
  | clear => rfl
  | rdstat => exact absurd rfl hi

/-- Settles O41: the response and LASTCODE are written together, zeroisation is read off its definition, and no command but RDSTAT
reads LASTCODE. -/
theorem lastcodeKeepsTheLastCode : Obligations.LastcodeKeepsTheLastCode := by
  unfold Obligations.LastcodeKeepsTheLastCode
  rw [step_eq_stepWith, exec_eq_execWith]
  exact ⟨fun _ _ _ _ hp hstep => stepWith_lastcode hp hstep,
    fun s => ⟨resetEvent_lastcode coreParams s, rfl⟩,
    fun _ s c hi => execWith_withLastcode coreParams hi s c⟩

end Sys2Proof.Machine
end

section
/-! PROOFS, family 20_memory. Commands presented one after another run in that order; the operands the spec calls ignored; the bytes
that come out of MSGBLK and RDBUF. The lemmas about commands speak of arbitrary parameters, and this hardware is the case
`coreParams`. -/

namespace Sys2Proof.Machine

/-! The operands read back from a word of the encoder (30_encoding.md R72, R73) -/

/-- `ARG` of a word of the layout, as a count. -/
theorem argWhole_commandWord (o : Byte) (d : Dir) (l : Bool) (a : BitVec 16) : argWhole (commandWord o d l a) = a.toNat := by
  obtain ⟨-, -, -, -, harg⟩ := fields_of_word o 0#6 (dirBit d) (BitVec.ofBool l) a
  rw [argWhole, commandWord, harg]

theorem argHigh_eq_div (cw : CmdWord) : argHigh cw = argWhole cw / 256 := by
  simp only [argHigh, argWhole, BitVec.extractLsb'_toNat]
  omega

theorem argLow_eq_mod (cw : CmdWord) : argLow cw = argWhole cw % 256 := by
  simp only [argLow, argWhole, BitVec.extractLsb'_toNat]
  omega

/-- The flag bits of the word are its fields `DIR` and `LAST`. -/
theorem cwFlag_eq_field (cw : CmdWord) (i : Nat) : cwFlag cw i = (cw.extractLsb' i 1).getLsbD 0 := by
  simp [cwFlag]

theorem cwDir_commandWord (o : Byte) (d : Dir) (l : Bool) (a : BitVec 16) : cwDir (commandWord o d l a) = d := by
  obtain ⟨-, -, hdir, -, -⟩ := fields_of_word o 0#6 (dirBit d) (BitVec.ofBool l) a
  rw [cwDir, cwFlag_eq_field, commandWord, hdir]
  cases d <;> rfl

theorem cwLast_commandWord (o : Byte) (d : Dir) (l : Bool) (a : BitVec 16) : cwLast (commandWord o d l a) = l := by
  obtain ⟨-, -, -, hlast, -⟩ := fields_of_word o 0#6 (dirBit d) (BitVec.ofBool l) a
  rw [cwLast, cwFlag_eq_field, commandWord, hlast]
  cases l <;> rfl

/-- A count that fits `ARG` is held by it. -/
theorem toNat_argCount {n : Nat} (h : fitsArgField n) : (BitVec.ofNat 16 n).toNat = n := Nat.mod_eq_of_lt h

/-- Two counts that fit a byte each are held side by side. -/
theorem toNat_argPair {hi lo : Nat} (hhi : fitsByteField hi) (hlo : fitsByteField lo) :
    (argPair hi lo).toNat = 256 * hi + lo := by
  rw [argPair, BitVec.toNat_append, BitVec.toNat_ofNat, BitVec.toNat_ofNat, Nat.mod_eq_of_lt hhi, Nat.mod_eq_of_lt hlo,
    ← Nat.shiftLeft_add_eq_or_of_lt hlo]
  omega

theorem argHigh_argPair {hi lo : Nat} (o : Byte) (d : Dir) (l : Bool) (hhi : fitsByteField hi) (hlo : fitsByteField lo) :
    argHigh (commandWord o d l (argPair hi lo)) = hi := by
  rw [argHigh_eq_div, argWhole_commandWord, toNat_argPair hhi hlo]
  omega

theorem argLow_argPair {hi lo : Nat} (o : Byte) (d : Dir) (l : Bool) (hhi : fitsByteField hi) (hlo : fitsByteField lo) :
    argLow (commandWord o d l (argPair hi lo)) = lo := by
  rw [argLow_eq_mod, argWhole_commandWord, toNat_argPair hhi hlo]
  omega

/-- The word written for a well-formed instruction selects its row (`EncodedRow`), and every operand is read back. -/
theorem decode_encode {i : Instr} (h : i.WellFormed) : decode (encode i) = some i := by
  cases i with
  | encblk klen dlen din kin =>
    obtain ⟨hk, hd⟩ : fitsByteField klen ∧ fitsByteField dlen := by simpa [Instr.WellFormed, Instr.wf] using h
    rw [Laws.EncodedRow.encblk klen dlen din kin]
    simp only [Laws.rowOf, encode, argHigh_argPair _ _ _ hk hd, argLow_argPair _ _ _ hk hd]
  | init dir klen nlen din kin =>
    obtain ⟨hk, hn⟩ : fitsByteField klen ∧ fitsByteField nlen := by simpa [Instr.WellFormed, Instr.wf] using h
    rw [Laws.EncodedRow.init dir klen nlen din kin]
    simp only [Laws.rowOf, encode, cwDir_commandWord, argHigh_argPair _ _ _ hk hn, argLow_argPair _ _ _ hk hn]
  | adblk last len din =>
    rw [Laws.EncodedRow.adblk last len din]
    simp only [Laws.rowOf, encode, cwLast_commandWord, argWhole_commandWord, toNat_argCount (of_decide_eq_true h)]
  | msgblk last len din =>
    rw [Laws.EncodedRow.msgblk last len din]
    simp only [Laws.rowOf, encode, cwLast_commandWord, argWhole_commandWord, toNat_argCount (of_decide_eq_true h)]
  | gettag => exact Laws.EncodedRow.gettag
  | verify len din =>
    rw [Laws.EncodedRow.verify len din]
    simp only [Laws.rowOf, encode, argWhole_commandWord, toNat_argCount (of_decide_eq_true h)]
  | rdbuf idx =>
    rw [Laws.EncodedRow.rdbuf idx]
    simp only [Laws.rowOf, encode, argWhole_commandWord, toNat_argCount (of_decide_eq_true h)]
  | clear => exact Laws.EncodedRow.clear
  | rdstat => exact Laws.EncodedRow.rdstat

/-! No command reads or writes what the host does next: the script may be exchanged before a command or after it -/

/-- The checks being the same, a guarded command passes the script on when its accepted outcome does: an abort leaves it too. -/
theorem guarded_sampled {p : Params} {checks : List (Bool × Code)} {s t : State} {acc acc' : Result} {q : List HostEvent}
    (hacc : acc = .next t → acc' = .next (sampled q t)) (h : guarded p checks s acc = .next t) :
    guarded p checks (sampled q s) acc' = .next (sampled q t) := by
  rcases guarded_cases h with ⟨c, hf, ht⟩ | ⟨hf, ht⟩
  · cases ht
    exact guarded_abort hf
  · rw [guarded_accept hf]
    exact hacc ht.symm

/-- A block is stored under any script, which stays. -/
theorem memWrite_sampled (q : List HostEvent) (s : State) (i n : Nat) (v : Block) :
    memWrite (sampled q s) i n v = (memWrite s i n v).map (sampled q) := by
  rw [memWrite, memWrite, apply_ite (Option.map _)]
  rfl

/-- Recovered plaintext is held back under any script, which stays. -/
theorem holdAppend_sampled (q : List HostEvent) (n : Nat) (v : Block) (s : State) :
    holdAppend n v (sampled q s) = (holdAppend n v s).map (sampled q) := by
  have hblock : holdWriteBlock (sampled q s) = holdWriteBlock s := rfl
  unfold holdAppend
  by_cases hn : n = 0
  · simp only [if_pos hn, Option.map_some]
  · simp only [if_neg hn, hblock, memWrite_sampled]
    cases memWrite s (holdWriteBlock s) n v <;> rfl

theorem msgblkChain_sampled (p : Params) (last : Bool) (len : Nat) (plain : Block) (q : List HostEvent) (s : State) :
    msgblkChain p last len plain (sampled q s) = sampled q (msgblkChain p last len plain s) := rfl

/-- An accepted MSGBLK passes the script on, in either direction. -/
theorem msgblkAccept_sampled {p : Params} {last : Bool} {len : Nat} {din : Block} {s t : State} {q : List HostEvent}
    (h : msgblkAccept p last len din s = .next t) : msgblkAccept p last len din (sampled q s) = .next (sampled q t) := by
  rcases dir_cases s.dir with hdir | hdir
  · rw [msgblkAccept_enc hdir] at h
    rw [msgblkAccept_enc (s := sampled q s) hdir]
    cases h
    rfl
  · rw [msgblkAccept_dec hdir] at h
    rw [msgblkAccept_dec (s := sampled q s) hdir, msgblkChain_sampled, holdAppend_sampled, sampled_y]
    cases hu : holdAppend len (streamXor p din len s.y) (msgblkChain p last len (streamXor p din len s.y) s) with
    | none => simp [hu] at h
    | some u =>
      rw [hu] at h
      cases h
      rfl

/-- An accepted RDBUF passes the script on. -/
theorem execRdbufWith_sampled {p : Params} {idx : Nat} {s t : State} {q : List HostEvent}
    (h : execRdbufWith p idx s = .next t) : execRdbufWith p idx (sampled q s) = .next (sampled q t) := by
  refine guarded_sampled (fun hacc => ?_) h
  have hread : memRead (sampled q s) idx (heldBytes idx (sampled q s)) = memRead s idx (heldBytes idx s) := rfl
  rw [hread]
  cases hd : memRead s idx (heldBytes idx s) with
  | none => simp [hd] at hacc
  | some d =>
    rw [hd] at hacc
    cases hacc
    rfl

/-- Every command passes the script on: on the same registers it answers the same. -/
theorem execWith_sampled {p : Params} {i : Instr} {s t : State} (q : List HostEvent) (h : execWith p i s = .next t) :
    execWith p i (sampled q s) = .next (sampled q t) := by
  cases i with
  | encblk klen dlen din kin => exact guarded_sampled (by rintro ⟨⟩; rfl) h
  | init dir klen nlen din kin => exact guarded_sampled (by rintro ⟨⟩; rfl) h
  | adblk last len din => exact guarded_sampled (by rintro ⟨⟩; rfl) h
  | msgblk last len din => exact guarded_sampled msgblkAccept_sampled h
  | gettag => exact guarded_sampled (by rintro ⟨⟩; rfl) h
  | verify len din => exact guarded_sampled (by rintro ⟨⟩; rfl) h
  | rdbuf idx => exact execRdbufWith_sampled h
  | clear => cases h; rfl
  | rdstat => cases h; rfl

/-! A run of presented commands -/

/-- Commands answered in order: the first is answered, and the others are from the state it leaves. -/
theorem execAll_cons {i : Instr} {is : List Instr} {s t : State} (h : execAll (i :: is) s = some t) :
    ∃ u, exec i s = .next u ∧ execAll is u = some t := by
  unfold execAll at h
  cases hx : exec i s with
  | next u => rw [hx] at h; exact ⟨u, rfl, h⟩
  | fault r => simp [hx] at h
  | refused r => simp [hx] at h

theorem run_succ {s u : State} (k : Nat) (h : step s = .next u) :
    Host.Core.run core (k + 1) s = Host.Core.run core k u := by
  have hstep : core.step s = .next u := h
  simp only [Host.Core.run, hstep]

theorem exec_sampled {i : Instr} {s t : State} (q : List HostEvent) (h : exec i s = .next t) :
    exec i (sampled q s) = .next (sampled q t) := by
  rw [exec_eq_execWith] at h ⊢
  exact execWith_sampled q h

/-- A command leaves the script it was answered under. -/
theorem exec_keeps_script {i : Instr} {s u : State} {rest : List HostEvent} (hx : exec i (sampled rest s) = .next u) :
    sampled rest u = u := by
  have hsame : exec i (sampled rest s) = .next (sampled rest u) :=
    exec_sampled (s := sampled rest s) rest hx
  injection hsame.symm.trans hx

/-- The command word at the head of the script runs the instruction it was written for, and leaves the rest of the script. -/
theorem step_encode {i : Instr} {s u : State} (q : List HostEvent) (hi : i.WellFormed) (hx : exec i s = .next u) :
    step (sampled (.command (encode i) :: q) s) = .next (sampled q u) :=
  calc step (sampled (.command (encode i) :: q) s)
      = exec i (sampled q s) := takeEvent_command coreParams exec (sampled_pending _ s) (decode_encode hi)
    _ = .next (sampled q u) := exec_sampled q hx

/-- Settles O7, by induction on the commands: the step of the first one (`step_encode`) leaves the words of the others at the port. -/
theorem presentedCommandsRunInOrder : Obligations.PresentedCommandsRunInOrder := by
  unfold Obligations.PresentedCommandsRunInOrder
  intro is
  induction is with
  | nil =>
    intro s t rest _ h
    cases h
    rfl
  | cons i is ih =>
    intro s t rest hwf h
    obtain ⟨hi, his⟩ := List.forall_mem_cons.1 hwf
    obtain ⟨u, hx, hrest⟩ := execAll_cons h
    have hfirst := step_encode (is.map (fun i => HostEvent.command (encode i)) ++ rest) hi hx
    rw [← exec_keeps_script hx] at hrest
    exact (run_succ is.length hfirst).trans (ih u t rest his hrest)

/-! Operands the spec calls ignored (20_memory.md R56) -/

/-- Blocks with the same first n bytes are cut alike. -/
theorem trunc_congr {a b : Block} {n : Nat} (h : ∀ j, j < n → j < 16 → blockByte a j = blockByte b j) : trunc a n = trunc b n := by
  refine block_ext_bytes fun j hj => ?_
  rw [blockByte_trunc a n j hj, blockByte_trunc b n j hj]
  split
  · exact h j ‹_› hj
  · rfl

theorem streamXor_congr (p : Params) {a b : Block} {n : Nat} (y : Block) (h : trunc a n = trunc b n) :
    streamXor p a n y = streamXor p b n y := by
  rw [streamXor, streamXor, trunc_xor, trunc_xor, h]

/-- ADBLK reads its block through the padding alone (42_mode_engine.md R161). -/
theorem execAdblkWith_congr (p : Params) (last : Bool) {n : Nat} {a b : Block} (s : State) (h : trunc a n = trunc b n) :
    execAdblkWith p last n a s = execAdblkWith p last n b s := by
  rw [execAdblkWith, execAdblkWith, adblkAccept, adblkAccept, nextY, nextY, cipherInput, cipherInput, pad_congr p h]

/-- MSGBLK reads its block cut, and cut after the keystream is added (42_mode_engine.md R165). -/
theorem execMsgblkWith_congr (p : Params) (last : Bool) {n : Nat} {a b : Block} (s : State) (h : trunc a n = trunc b n) :
    execMsgblkWith p last n a s = execMsgblkWith p last n b s := by
  have hacc : msgblkAccept p last n a s = msgblkAccept p last n b s := by
    rcases dir_cases s.dir with hdir | hdir
    · rw [msgblkAccept_enc hdir, msgblkAccept_enc hdir, h, streamXor_congr p s.y h]
    · rw [msgblkAccept_dec hdir, msgblkAccept_dec hdir, streamXor_congr p s.y h]
  rw [execMsgblkWith, execMsgblkWith, hacc]

/-- The rows of the opcode map other than ENCBLK's and INIT's do not read KIN. -/
theorem decode_ignores_kin {cw : CmdWord} (din kin kin' : Block) (hencblk : cw.extractLsb' 24 8 ≠ 0x01#8)
    (hinit : cw.extractLsb' 24 8 ≠ 0x02#8) : decode ⟨cw, din, kin⟩ = decode ⟨cw, din, kin'⟩ := by
  rw [decode_by_fields ⟨cw, din, kin⟩ _ _ _ _ _ rfl rfl rfl rfl rfl,
    decode_by_fields ⟨cw, din, kin'⟩ _ _ _ _ _ rfl rfl rfl rfl rfl]
  simp only [hencblk, hinit, false_and, if_false]

/-- The rows of GETTAG, RDBUF, CLEAR and RDSTAT do not read DIN. -/
theorem decode_ignores_din {cw : CmdWord} (din din' kin : Block)
    (h : cw.extractLsb' 24 8 = 0x05#8 ∨ cw.extractLsb' 24 8 = 0x07#8 ∨ cw.extractLsb' 24 8 = 0x08#8 ∨
      cw.extractLsb' 24 8 = 0x09#8) : decode ⟨cw, din, kin⟩ = decode ⟨cw, din', kin⟩ := by
  rcases h with ho | ho | ho | ho <;>
    rw [decode_by_fields ⟨cw, din, kin⟩ _ _ _ _ _ ho rfl rfl rfl rfl,
      decode_by_fields ⟨cw, din', kin⟩ _ _ _ _ _ ho rfl rfl rfl rfl] <;>
    simp

/-- Settles O46: an opcode's row builds its instruction from the operands it reads, and a block command reads its block cut to LEN
bytes. -/
theorem ignoredOperandsDoNotMatter : Obligations.IgnoredOperandsDoNotMatter := by
  unfold Obligations.IgnoredOperandsDoNotMatter
  refine ⟨fun _ din kin kin' => decode_ignores_kin din kin kin', fun _ din din' kin => decode_ignores_din din din' kin,
    fun last n din din' s hbytes => ?_⟩
  have hcut : trunc din n = trunc din' n := trunc_congr hbytes
  exact ⟨execAdblkWith_congr coreParams last s hcut, execMsgblkWith_congr coreParams last s hcut⟩

/-! Lengths of what comes out (20_memory.md R57) -/

theorem responseCode_abort_ne_ok {p : Params} {c : Code} {s : State} (hc : c ≠ .ok) :
    responseCode (abort p c s) ≠ some .ok := by
  simpa [responseCode] using hc

theorem blockByte_trunc_past (b : Block) {n j : Nat} (hn : n ≤ j) (hj : j < 16) : blockByte (trunc b n) j = 0 := by
  rw [blockByte_trunc b n j hj, if_neg (by omega)]

/-- Plaintext held back within the capacity adds its length to HOLDLEN. -/
theorem holdAppend_holdlen {n : Nat} {v : Block} {s t : State} (hfits : s.holdlen.toNat + n ≤ s.holdBytes)
    (h : holdAppend n v s = some t) : t.holdlen.toNat = s.holdlen.toNat + n := by
  rcases holdAppend_cases n v s with ⟨rfl, e⟩ | ⟨-, -, e⟩ | ⟨-, -, e⟩ <;> cases e.symm.trans h
  · rfl
  · exact holdlen_append n s hfits

/-- Settles O47: the ciphertext and the block read are cut to the length answered, and the capacity check keeps HOLDLEN from
wrapping. -/
theorem outputLengthEqualsInputLength : Obligations.OutputLengthEqualsInputLength := by
  unfold Obligations.OutputLengthEqualsInputLength
  constructor
  · intro last n din s t h hok
    rcases execMsgblkWith_next h with ⟨c, hc, rfl⟩ | ⟨-, -, -, -, henc, rfl⟩ | ⟨-, -, -, -, hdec, hfits, u, hu, rfl⟩
    · exact absurd hok (responseCode_abort_ne_ok hc)
    · exact ⟨fun _ => ⟨_, rfl, fun j => blockByte_trunc_past _⟩, fun hdec => by simp [henc] at hdec⟩
    · have hlen : u.holdlen.toNat = s.holdlen.toNat + n := holdAppend_holdlen (s := msgblkChain _ _ _ _ s) hfits hu
      exact ⟨fun henc => by simp [hdec] at henc, fun _ => ⟨rfl, hlen⟩⟩
  · intro idx s t h hok
    rcases execRdbufWith_next h with ⟨c, hc, rfl⟩ | ⟨-, hidx, -, rfl⟩
    · exact absurd hok (responseCode_abort_ne_ok hc)
    · exact ⟨_, heldBytes idx s, rfl, rfl, by unfold heldBytes; omega, fun j => blockByte_trunc_past _⟩

/-! Reading held blocks (43_tag_and_release.md R196) -/

/-- Settles O33: both checks of RDBUF hold, and MemRead is not defined past HOLD_BLOCKS. -/
theorem rdbufOutsideTheBufferStops : Obligations.RdbufOutsideTheBufferStops := by
  unfold Obligations.RdbufOutsideTheBufferStops
  intro idx s hrel hidx hout
  have hnone : memRead s idx (heldBytes idx s) = none := by
    rcases memRead_cases s idx (heldBytes idx s) with ⟨hin, -⟩ | ⟨-, e⟩
    · omega
    · exact e
  calc exec (.rdbuf idx) s
      = _ := guarded_accept (by simp [hrel, hidx])
    _ = .fault (.holdBlockOutside idx) := by rw [hnone]

/-- RDBUF reads neither LASTCODE nor the response port, and writes both: after a completed command it answers as before it. -/
theorem execRdbufWith_complete (p : Params) (idx : Nat) (d : Block) (n : Nat) (s : State) :
    execRdbufWith p idx (complete d n s) = execRdbufWith p idx s := rfl

/-- Settles O48: an accepted RDBUF only completes, and so the second read ends in the same state with the first as without it. -/
theorem readingHeldBlocksRepeats : Obligations.ReadingHeldBlocksRepeats := by
  unfold Obligations.ReadingHeldBlocksRepeats
  intro i j s t u v ht hok hu hv
  rcases execRdbufWith_next ht with ⟨c, hc, rfl⟩ | ⟨-, -, -, rfl⟩
  · exact absurd hok (responseCode_abort_ne_ok hc)
  · have hsame : u = v := by
      injection hu.symm.trans ((execRdbufWith_complete coreParams j _ _ s).symm.trans hv)
    cases hsame
    exact ⟨rfl, ⟨rfl, rfl, rfl, rfl, rfl, rfl, rfl, rfl, rfl⟩, rfl, rfl⟩

end Sys2Proof.Machine
end

section
/-! PROOFS, family 30_encoding. The command word and its fields read both ways, the illegal words, where a command is legal, the
response word, and how the host programs end early. The lemmas about commands speak of arbitrary parameters, and this hardware is the
case `coreParams`. -/

namespace Sys2Proof.Machine

/-! The command word by its fields (30_encoding.md R72, R73) -/

/-- Settles O1: `decode_encode`, which goes by the row that the encoded word selects. -/
theorem decodeOfEncode : Obligations.DecodeOfEncode := by
  unfold Obligations.DecodeOfEncode
  exact fun _ h => decode_encode h

/-- A one-bit field is its bit. -/
theorem ofBool_cwFlag (cw : CmdWord) (i : Nat) : BitVec.ofBool (cwFlag cw i) = cw.extractLsb' i 1 := by
  apply BitVec.eq_of_getLsbD_eq
  intro k hk
  obtain rfl : k = 0 := by omega
  simp [cwFlag]

theorem ofBool_cwLast (cw : CmdWord) : BitVec.ofBool (cwLast cw) = cw.extractLsb' 16 1 := ofBool_cwFlag cw 16

theorem dirBit_cwDir (cw : CmdWord) : dirBit (cwDir cw) = cw.extractLsb' 17 1 := by
  rw [← ofBool_cwFlag cw 17, cwDir]
  cases cwFlag cw 17 <;> rfl

/-- The direction field is ENC exactly when its bit is 0. -/
theorem cwDir_eq_enc {cw : CmdWord} (h : cw.extractLsb' 17 1 = 0#1) : cwDir cw = .enc := by
  rw [← dirBit_cwDir] at h
  cases hd : cwDir cw with
  | enc => rfl
  | dec => simp [hd, dirBit] at h

theorem cwLast_eq_false {cw : CmdWord} (h : cw.extractLsb' 16 1 = 0#1) : cwLast cw = false := by
  rw [← ofBool_cwLast] at h
  cases hl : cwLast cw with
  | false => rfl
  | true => simp [hl] at h

/-- The two counts of `ARG` put it together again. -/
theorem argPair_fields (cw : CmdWord) : argPair (argHigh cw) (argLow cw) = cw.extractLsb' 0 16 := by
  have hhigh : fitsByteField (argHigh cw) := (cw.extractLsb' 8 8).isLt
  have hlow : fitsByteField (argLow cw) := (cw.extractLsb' 0 8).isLt
  apply BitVec.eq_of_toNat_eq
  rw [toNat_argPair hhigh hlow, argHigh_eq_div, argLow_eq_mod]
  exact Nat.div_add_mod (argWhole cw) 256

theorem ofNat_argWhole (cw : CmdWord) : BitVec.ofNat 16 (argWhole cw) = cw.extractLsb' 0 16 :=
  BitVec.ofNat_toNat ..

/-- A word whose reserved field is zero is the word of the layout with its own fields. -/
theorem commandWord_fields {cw : CmdWord} {o : Byte} (ho : cw.extractLsb' 24 8 = o) (hr : cw.extractLsb' 18 6 = 0#6) :
    commandWord o (cwDir cw) (cwLast cw) (cw.extractLsb' 0 16) = cw := by
  rw [commandWord, dirBit_cwDir, ofBool_cwLast, ← ho, ← hr]
  exact (cmdWord_fields cw).symm

/-- The counts of a decoded instruction come from fields that bound them (30_encoding.md R73). -/
theorem wellFormed_of_decode {c : Command} {i : Instr} (h : decode c = some i) : i.WellFormed := by
  have hhigh : argHigh c.cw < 256 := (c.cw.extractLsb' 8 8).isLt
  have hlow : argLow c.cw < 256 := (c.cw.extractLsb' 0 8).isLt
  have hwhole : argWhole c.cw < 65536 := (c.cw.extractLsb' 0 16).isLt
  rw [decode_by_fields c _ _ _ _ _ rfl rfl rfl rfl rfl] at h
  split_ifs at h <;> cases h <;> simp [Instr.WellFormed, Instr.wf, hhigh, hlow, hwhole]

/-- Row by row of the opcode map: the fields the row fixes are those the encoder writes, and the others are operands. -/
theorem encode_of_decode {c : Command} {i : Instr} (h : decode c = some i) : (encode i).cw = c.cw := by
  rw [decode_by_fields c _ _ _ _ _ rfl rfl rfl rfl rfl] at h
  split_ifs at h with encblk init adblk msgblk gettag verify rdbuf clear rdstat <;> cases h
  · obtain ⟨ho, hr, hd, hl⟩ := encblk
    simpa only [encode, argPair_fields, cwDir_eq_enc hd, cwLast_eq_false hl] using commandWord_fields ho hr
  · obtain ⟨ho, hr, hl⟩ := init
    simpa only [encode, argPair_fields, cwLast_eq_false hl] using commandWord_fields ho hr
  · obtain ⟨ho, hr, hd⟩ := adblk
    simpa only [encode, ofNat_argWhole, cwDir_eq_enc hd] using commandWord_fields ho hr
  · obtain ⟨ho, hr, hd⟩ := msgblk
    simpa only [encode, ofNat_argWhole, cwDir_eq_enc hd] using commandWord_fields ho hr
  · obtain ⟨ho, hr, hd, hl, ha⟩ := gettag
    simpa only [encode, cwDir_eq_enc hd, cwLast_eq_false hl, ha, BitVec.ofNat_eq_ofNat] using commandWord_fields ho hr
  · obtain ⟨ho, hr, hd, hl⟩ := verify
    simpa only [encode, ofNat_argWhole, cwDir_eq_enc hd, cwLast_eq_false hl] using commandWord_fields ho hr
  · obtain ⟨ho, hr, hd, hl⟩ := rdbuf
    simpa only [encode, ofNat_argWhole, cwDir_eq_enc hd, cwLast_eq_false hl] using commandWord_fields ho hr
  · obtain ⟨ho, hr, hd, hl, ha⟩ := clear
    simpa only [encode, cwDir_eq_enc hd, cwLast_eq_false hl, ha, BitVec.ofNat_eq_ofNat] using commandWord_fields ho hr
  · obtain ⟨ho, hr, hd, hl, ha⟩ := rdstat
    simpa only [encode, cwDir_eq_enc hd, cwLast_eq_false hl, ha, BitVec.ofNat_eq_ofNat] using commandWord_fields ho hr

/-- Settles O2: `wellFormed_of_decode` and `encode_of_decode`. -/
theorem legalWordHasNoIgnoredBit : Obligations.LegalWordHasNoIgnoredBit := by
  unfold Obligations.LegalWordHasNoIgnoredBit
  exact fun _ _ h => ⟨wellFormed_of_decode h, encode_of_decode h⟩

/-! Illegal words (30_encoding.md R78) -/

/-- The bit of a one-bit field is set exactly when the field is not 0. -/
theorem getLsbD_eq_true_iff (cw : CmdWord) (i : Nat) : cw.getLsbD i = true ↔ cw.extractLsb' i 1 ≠ 0#1 := by
  rw [← ofBool_cwFlag, cwFlag]
  cases cw.getLsbD i <;> simp

/-- An opcode is 0, one of the nine of the map, or at least 0x0A. -/
theorem opcode_cases (o : Byte) :
    o = 0x00#8 ∨ (o = 0x01#8 ∨ o = 0x02#8 ∨ o = 0x03#8 ∨ o = 0x04#8 ∨ o = 0x05#8 ∨ o = 0x06#8 ∨ o = 0x07#8 ∨ o = 0x08#8 ∨
      o = 0x09#8) ∨ o ≥ 0x0A#8 := by
  bv_omega

/-- R78 opcode by opcode: each row of the map leaves its own operand fields free and no other. -/
theorem decode_eq_none_iff (c : Command) :
    decode c = none ↔
      (c.cw.extractLsb' 24 8 = 0x00#8 ∨ c.cw.extractLsb' 24 8 ≥ 0x0A#8 ∨ c.cw.extractLsb' 18 6 ≠ 0#6 ∨
        (c.cw.getLsbD 17 = true ∧ c.cw.extractLsb' 24 8 ≠ 0x02#8) ∨
        (c.cw.getLsbD 16 = true ∧ c.cw.extractLsb' 24 8 ≠ 0x03#8 ∧ c.cw.extractLsb' 24 8 ≠ 0x04#8) ∨
        (c.cw.extractLsb' 0 16 ≠ 0#16 ∧
          (c.cw.extractLsb' 24 8 = 0x05#8 ∨ c.cw.extractLsb' 24 8 = 0x08#8 ∨ c.cw.extractLsb' 24 8 = 0x09#8))) := by
  rw [decode_by_fields c _ _ _ _ _ rfl rfl rfl rfl rfl, getLsbD_eq_true_iff, getLsbD_eq_true_iff]
  rcases opcode_cases (c.cw.extractLsb' 24 8) with ho | ho | ho
  · simp [ho]
  · rcases ho with ho | ho | ho | ho | ho | ho | ho | ho | ho <;> simp [ho] <;> tauto
  · have hne (n : Nat) (hn : n < 10) : c.cw.extractLsb' 24 8 ≠ BitVec.ofNat 8 n := by
      bv_omega
    simp [ho, hne]

/-- An illegal word at the head of the port aborts with ERR_ILLEGAL (30_encoding.md R79 step 1). -/
theorem takeEvent_illegal (p : Params) (run : Instr → State → Result) {s : State} {c : Command} {rest : List HostEvent}
    (hp : s.pending = .command c :: rest) (hd : decode c = none) :
    takeEvent p run s = .next (abort p .errIllegal (sampled rest s)) := by
  simp only [takeEvent, hp, hd]

/-- Settles O3: the list is `decode_eq_none_iff`, the abort `takeEvent_illegal`. -/
theorem illegalWordsExactly : Obligations.IllegalWordsExactly := by
  unfold Obligations.IllegalWordsExactly
  exact fun c => ⟨decode_eq_none_iff c, fun hd _ _ hp => takeEvent_illegal coreParams exec hp hd⟩

/-! The opcode map (30_encoding.md R77) -/

/-- Rows that check the whole opcode and differ in it are selected by no common word. -/
theorem rowSelects_disjoint {r q : OpcodeRow} (hr : r.mask.extractLsb' 24 8 = 0xFF#8) (hq : q.mask.extractLsb' 24 8 = 0xFF#8)
    (hne : r.matchWord.extractLsb' 24 8 ≠ q.matchWord.extractLsb' 24 8) (cw : CmdWord) :
    ¬ (cw &&& r.mask = r.matchWord ∧ cw &&& q.mask = q.matchWord) := by
  rintro ⟨hselr, hselq⟩
  have opcode {row : OpcodeRow} (hm : row.mask.extractLsb' 24 8 = 0xFF#8) (hsel : cw &&& row.mask = row.matchWord) :
      cw.extractLsb' 24 8 = row.matchWord.extractLsb' 24 8 := by
    by_contra h
    simpa [rowSelects, hsel] using Laws.rowSelects_other cw row hm h
  exact hne ((opcode hr hselr).symm.trans (opcode hq hselq))

/-- Settles O4: every row checks the whole opcode, and the nine opcodes differ. -/
theorem opcodePatternsDisjoint : Obligations.OpcodePatternsDisjoint := by
  unfold Obligations.OpcodePatternsDisjoint
  have hmask : ∀ r ∈ opcodeRows, r.mask.extractLsb' 24 8 = 0xFF#8 := by decide
  have hopcode : opcodeRows.Pairwise fun r q => r.matchWord.extractLsb' 24 8 ≠ q.matchWord.extractLsb' 24 8 := by decide
  exact hopcode.imp_of_mem fun hr hq hne => rowSelects_disjoint (hmask _ hr) (hmask _ hq) hne

/-- Settles O5: each word is decoded by evaluation. -/
theorem specWordsDecode : Obligations.SpecWordsDecode := by
  unfold Obligations.SpecWordsDecode
  decide

/-! Where a command is legal (30_encoding.md R76): the form all nine commands share -/

/-- The checks of a command after legality, in order: its arguments, the capacity of the buffer, the tag (60_exceptions.md R223). -/
def argChecks (p : Params) : Instr → State → List (Bool × Code)
  | .encblk klen dlen _ _, _ => [(decide (klen = keyBytes), .errKeylen), (decide (dlen = blockBytes), .errLen)]
  | .init _ klen nlen _ _, _ => [(decide (klen = keyBytes), .errKeylen), (decide (nlen = p.nonceBytes), .errNoncelen)]
  | .adblk last len _, s => lengthChecks s.first last len
  | .msgblk last len _, s => lengthChecks s.first last len ++ [(holdFits len s, .errOverflow)]
  | .gettag, _ => []
  | .verify len din, s => [(decide (len = tagBytes), .errLen), (decide (din = s.y), .errAuth)]
  | .rdbuf idx, s => [(decide (16 * idx < s.holdlen.toNat), .errRange)]
  | .clear, _ => []
  | .rdstat, _ => []

/-- What a command does once every check holds. -/
def accepted (p : Params) : Instr → State → Result
  | .encblk _ _ din kin, s => .next (complete (cipherE p (expand p kin) din) 16 s)
  | .init dir _ _ din kin, s => .next (initAccept p dir din kin s)
  | .adblk last len din, s => .next (adblkAccept p last len din s)
  | .msgblk last len din, s => msgblkAccept p last len din s
  | .gettag, s => .next (complete s.y 16 (zeroise p s))
  | .verify _ _, s => .next (verifyAccept p s)
  | .rdbuf idx, s =>
    match memRead s idx (heldBytes idx s) with
    | some d => .next (complete d (heldBytes idx s) s)
    | none => .fault (.holdBlockOutside idx)
  | .clear, s => .next (complete 0 0 (zeroise p s))
  | .rdstat, s => .next (respond .ok (statusWord s) 16 s)

/-- Two checks in a row with one code are one check. -/
theorem guarded_and (p : Params) (a b : Bool) (c : Code) (checks : List (Bool × Code)) (s : State) (acc : Result) :
    guarded p ((a, c) :: (b, c) :: checks) s acc = guarded p ((a && b, c) :: checks) s acc := by
  cases a <;> rfl

/-- Checks that all hold leave the decision to those after them. -/
theorem firstFailed_append {checks : List (Bool × Code)} (later : List (Bool × Code)) (h : firstFailed checks = none) :
    firstFailed (checks ++ later) = firstFailed later := by
  induction checks with
  | nil => rfl
  | cons check checks ih =>
    obtain ⟨holds, c⟩ := check
    cases holds with
    | false => simp at h
    | true => exact ih h

/-- Every command checks legality first, then its arguments, and is then accepted. -/
theorem execWith_eq_guarded (p : Params) (i : Instr) (s : State) :
    execWith p i s = guarded p ((legal i s.phase s.dir, .errSeq) :: argChecks p i s) s (accepted p i s) := by
  cases i with
  | gettag => exact guarded_and p _ _ .errSeq [] s _
  | verify len din => exact guarded_and p _ _ .errSeq _ s _
  | _ => rfl

theorem execWith_illegal {p : Params} {i : Instr} {s : State} (h : legal i s.phase s.dir = false) :
    execWith p i s = .next (abort p .errSeq s) := by
  rw [execWith_eq_guarded, h]
  exact guarded_abort rfl

/-- A legal command that fails a check aborts with that check's code. -/
theorem execWith_failed {p : Params} {i : Instr} {s : State} {c : Code} (hlegal : legal i s.phase s.dir = true)
    (h : firstFailed (argChecks p i s) = some c) : execWith p i s = .next (abort p c s) := by
  rw [execWith_eq_guarded, hlegal]
  exact guarded_abort h

theorem execWith_accepted {p : Params} {i : Instr} {s : State} (hlegal : legal i s.phase s.dir = true)
    (h : firstFailed (argChecks p i s) = none) : execWith p i s = accepted p i s := by
  rw [execWith_eq_guarded, hlegal]
  exact guarded_accept h

/-- ERR_SEQ is raised for legality alone, and OK is the code of no check. -/
theorem argChecks_codes {p : Params} {i : Instr} {s : State} {c : Code} (h : firstFailed (argChecks p i s) = some c) :
    c ≠ .errSeq ∧ c ≠ .ok := by
  have hcodes : ∀ e ∈ argChecks p i s, e.2 ≠ .errSeq ∧ e.2 ≠ .ok := by
    cases i <;> simp [argChecks, lengthChecks]
  exact hcodes _ (firstFailed_some_mem h)

/-- A legal command that is accepted is answered OK and moves PHASE as the table says. -/
theorem accepted_next {p : Params} {i : Instr} {s t : State} (hlegal : legal i s.phase s.dir = true)
    (h : accepted p i s = .next t) : responseCode t = some .ok ∧ t.phase = phaseAfter i s.phase := by
  cases i with
  | encblk klen dlen din kin => cases h; exact ⟨rfl, of_decide_eq_true hlegal⟩
  | init dir klen nlen din kin => cases h; exact ⟨rfl, rfl⟩
  | adblk last len din =>
    cases h
    have had : s.phase = .ad := of_decide_eq_true hlegal
    exact ⟨rfl, by rw [adblkAccept_phase, had]; rfl⟩
  | msgblk last len din =>
    have hmsg : s.phase = .msg := of_decide_eq_true hlegal
    have hphase : phaseAfterMsg last s.phase = phaseAfter (.msgblk last len din) s.phase := by rw [hmsg]; rfl
    rcases dir_cases s.dir with hdir | hdir
    · cases (msgblkAccept_enc hdir p last len din).symm.trans h
      exact ⟨rfl, hphase⟩
    · have hdec := (msgblkAccept_dec hdir p last len din).symm.trans h
      cases hu : holdAppend len (streamXor p din len s.y) (msgblkChain p last len (streamXor p din len s.y) s) with
      | none => simp [hu] at hdec
      | some u =>
        rw [hu] at hdec
        cases hdec
        exact ⟨rfl, (holdAppend_phase hu).trans hphase⟩
  | gettag => cases h; exact ⟨rfl, rfl⟩
  | verify len din => cases h; exact ⟨rfl, rfl⟩
  | rdbuf idx =>
    have hrel : s.phase = .rel := of_decide_eq_true hlegal
    rcases memRead_cases s idx (heldBytes idx s) with ⟨-, e⟩ | ⟨-, e⟩
    · simp only [accepted, e] at h
      cases h
      exact ⟨rfl, hrel⟩
    · simp [accepted, e] at h
  | clear => cases h; exact ⟨rfl, rfl⟩
  | rdstat => cases h; exact ⟨rfl, rfl⟩

/-- Settles O38: legality is every command's first check, no later check has its code, and an accepted command moves PHASE by the
table. -/
theorem legalityByPhase : Obligations.LegalityByPhase := by
  unfold Obligations.LegalityByPhase
  intro i s t h
  rw [exec_eq_execWith] at h
  cases hlegal : legal i s.phase s.dir with
  | false =>
    cases (execWith_illegal hlegal).symm.trans h
    exact ⟨fun _ => rfl, nofun, fun hok => absurd hok (responseCode_abort_ne_ok (by decide))⟩
  | true =>
    refine ⟨nofun, ?_⟩
    cases hfailed : firstFailed (argChecks coreParams i s) with
    | some c =>
      obtain ⟨hseq, hok⟩ := argChecks_codes hfailed
      cases (execWith_failed hlegal hfailed).symm.trans h
      exact ⟨fun _ => by simpa [responseCode] using hseq, fun e => absurd e (responseCode_abort_ne_ok hok)⟩
    | none =>
      obtain ⟨hok, hphase⟩ := accepted_next hlegal ((execWith_accepted hlegal hfailed).symm.trans h)
      exact ⟨fun _ => by simp [hok], fun _ => hphase⟩

/-! The form of a response (30_encoding.md R74) -/

/-- At most 16 valid bytes, the bytes of DOUT past them zero, and no data unless the code is OK. -/
structure Response.WellFormed (r : Response) : Prop where
  dlen : r.dlen ≤ 16
  past : ∀ j, r.dlen ≤ j → j < 16 → blockByte r.dout j = 0
  fault : r.code ≠ .ok → r.dlen = 0 ∧ r.dout = 0

/-- The fields of the response word do not overlap: DLEN fits its five bits. -/
theorem responseWord_eq {r : Response} (h : r.dlen ≤ 16) :
    responseWord r = BitVec.ofNat 32 ((codeByte r.code).toNat * 2 ^ 24 + r.dlen) := by
  have hcode : (codeByte r.code).toNat < 2 ^ 8 := (codeByte r.code).isLt
  have hdlen : (BitVec.ofNat 5 r.dlen).toNat = r.dlen := Nat.mod_eq_of_lt (by omega)
  have hlow : r.dlen < 2 ^ 5 := by omega
  apply BitVec.eq_of_toNat_eq
  rw [responseWord, BitVec.toNat_append, BitVec.toNat_append, hdlen, ← Nat.shiftLeft_add_eq_or_of_lt hlow]
  simp only [BitVec.toNat_ofNat, Nat.zero_mod, Nat.or_zero, Nat.shiftLeft_eq]
  omega

theorem blockByte_zero (j : Nat) : blockByte 0 j = 0 := by
  simp [blockByte]

/-- A response without data. -/
theorem Response.WellFormed.empty (c : Code) : Response.WellFormed ⟨c, 0, 0⟩ :=
  ⟨Nat.zero_le 16, fun j _ _ => blockByte_zero j, fun _ => ⟨rfl, rfl⟩⟩

/-- A response whose data is cut to the length it states. -/
theorem Response.WellFormed.trunc (b : Block) {n : Nat} (hn : n ≤ 16) : Response.WellFormed ⟨.ok, trunc b n, n⟩ :=
  ⟨hn, fun _ => blockByte_trunc_past b, fun h => absurd rfl h⟩

/-- A response with a whole block. -/
theorem Response.WellFormed.full (b : Block) : Response.WellFormed ⟨.ok, b, 16⟩ := by
  simpa only [trunc_full] using Response.WellFormed.trunc b le_rfl

/-- Every command leaves one response, in the stated form. -/
theorem execWith_response {p : Params} {i : Instr} {s t : State} (h : execWith p i s = .next t) :
    ∃ r, t.resp = some r ∧ r.WellFormed := by
  have aborted (c : Code) : ∃ r, (abort p c s).resp = some r ∧ r.WellFormed := ⟨_, rfl, .empty c⟩
  cases i with
  | encblk klen dlen din kin =>
    rcases execEncblkWith_next h with ⟨c, -, rfl⟩ | ⟨-, -, -, rfl⟩
    · exact aborted c
    · exact ⟨_, rfl, .full _⟩
  | init dir klen nlen din kin =>
    rcases execInitWith_next h with ⟨c, -, rfl⟩ | ⟨-, -, -, rfl⟩
    · exact aborted c
    · exact ⟨_, rfl, .empty _⟩
  | adblk last len din =>
    rcases execAdblkWith_next h with ⟨c, -, rfl⟩ | ⟨-, -, -, -, rfl⟩
    · exact aborted c
    · exact ⟨_, rfl, .empty _⟩
  | msgblk last len din =>
    rcases execMsgblkWith_next h with ⟨c, -, rfl⟩ | ⟨-, hlen, -, -, -, rfl⟩ | ⟨-, -, -, -, -, -, u, -, rfl⟩
    · exact aborted c
    · exact ⟨_, rfl, .trunc _ hlen⟩
    · exact ⟨_, rfl, .empty _⟩
  | gettag =>
    rcases execGettagWith_next h with ⟨c, -, rfl⟩ | ⟨-, -, rfl⟩
    · exact aborted c
    · exact ⟨_, rfl, .full _⟩
  | verify len din =>
    rcases execVerifyWith_next h with ⟨c, -, rfl⟩ | ⟨-, -, -, -, rfl⟩
    · exact aborted c
    · exact ⟨_, rfl, .empty _⟩
  | rdbuf idx =>
    rcases execRdbufWith_next h with ⟨c, -, rfl⟩ | ⟨-, -, -, rfl⟩
    · exact aborted c
    · exact ⟨_, rfl, .trunc _ (min_le_left 16 _)⟩
  | clear =>
    obtain rfl := execClearWith_next h
    exact ⟨_, rfl, .empty _⟩
  | rdstat =>
    obtain rfl := execRdstat_next h
    exact ⟨_, rfl, .full _⟩

/-- A step on a presented command, legal or not, leaves one response, in the stated form. -/
theorem stepWith_response {p : Params} {s t : State} {c : Command} {rest : List HostEvent}
    (hp : s.pending = .command c :: rest) (hstep : stepWith p s = .next t) : ∃ r, t.resp = some r ∧ r.WellFormed := by
  cases hd : decode c with
  | none =>
    cases (takeEvent_illegal p (execWith p) hp hd).symm.trans hstep
    exact ⟨_, rfl, .empty _⟩
  | some i => exact execWith_response ((takeEvent_command p (execWith p) hp hd).symm.trans hstep)

/-- Settles O40: the form of the response is `stepWith_response`, and its word is then `responseWord_eq`. -/
theorem responsesHaveTheStatedForm : Obligations.ResponsesHaveTheStatedForm := by
  unfold Obligations.ResponsesHaveTheStatedForm
  intro s t c rest hp hstep
  rw [step_eq_stepWith] at hstep
  obtain ⟨r, hr, hform⟩ := stepWith_response hp hstep
  exact ⟨r, hr, hform.dlen, responseWord_eq hform.dlen, hform.past, hform.fault⟩

/-! Commands in order, until one is answered with a code other than OK (30_encoding.md R82) -/

/-- An aborted command ends the program. -/
theorem runCommands_abort {p : Params} {i : Instr} {s : State} {c : Code} (rest : List Instr) (hc : c ≠ .ok)
    (h : execWith p i s = .next (abort p c s)) : runCommands p (i :: rest) s = (.error (.code c), abort p c s) := by
  simp only [runCommands, h, abort_resp, if_neg hc]

/-- After a command answered OK the program goes on from the state it leaves. -/
theorem runCommands_ok {p : Params} {i : Instr} {s t u : State} {r : Response} {rest : List Instr} {rs : List Response}
    (h : execWith p i s = .next t) (hresp : t.resp = some r) (hr : r.code = .ok)
    (hrest : runCommands p rest t = (.ok rs, u)) : runCommands p (i :: rest) s = (.ok (r :: rs), u) := by
  simp only [runCommands, h, hresp, hr, hrest, if_true]

/-- After a command answered OK the program ends early as the rest of it does. -/
theorem runCommands_error {p : Params} {i : Instr} {s t u : State} {r : Response} {rest : List Instr} {e : HostStop}
    (h : execWith p i s = .next t) (hresp : t.resp = some r) (hr : r.code = .ok)
    (hrest : runCommands p rest t = (.error e, u)) : runCommands p (i :: rest) s = (.error e, u) := by
  simp only [runCommands, h, hresp, hr, hrest, if_true]

/-- In a program that runs to its end every command is answered OK. -/
theorem runCommands_cons {p : Params} {i : Instr} {rest : List Instr} {s u : State} {rs : List Response}
    (h : runCommands p (i :: rest) s = (.ok rs, u)) :
    ∃ t r rs', execWith p i s = .next t ∧ t.resp = some r ∧ r.code = .ok ∧ runCommands p rest t = (.ok rs', u) := by
  unfold runCommands at h
  cases hx : execWith p i s with
  | fault e => simp [hx] at h
  | refused e => simp [hx] at h
  | next t =>
    cases hresp : t.resp with
    | none => simp [hx, hresp] at h
    | some r =>
      by_cases hr : r.code = .ok
      · cases hrest : runCommands p rest t with
        | mk outcome v =>
          cases outcome with
          | error e => simp [hx, hresp, hr, hrest] at h
          | ok rs' =>
            simp only [hx, hresp, hr, hrest, if_true, Prod.mk.injEq] at h
            exact ⟨t, r, rs', rfl, hresp, hr, by rw [hrest, h.2]⟩
      · simp [hx, hresp, hr] at h

/-- After a program that runs to its end the next one ends early as it does from the state left. -/
theorem runCommands_append_error {p : Params} {is js : List Instr} {t u : State} {e : HostStop}
    (hnext : runCommands p js t = (.error e, u)) :
    ∀ {s : State} {rs : List Response}, runCommands p is s = (.ok rs, t) → runCommands p (is ++ js) s = (.error e, u) := by
  induction is with
  | nil =>
    rintro s rs ⟨⟩
    exact hnext
  | cons i is ih =>
    intro s rs h
    obtain ⟨v, r, rs', hx, hresp, hr, hrest⟩ := runCommands_cons h
    exact runCommands_error hx hresp hr (ih hrest)

/-! A key or a nonce of the wrong length (30_encoding.md R83) -/

/-- The length reported is 16 for a sequence of 16 bytes alone. -/
theorem reportedLength_eq_iff (s : List Byte) : reportedLength s = 16 ↔ s.length = 16 := by
  unfold reportedLength
  omega

/-- ENCRYPT ends with the abort of its INIT. -/
theorem runEncrypt_abort {p : Params} {key nonce : List Byte} {s : State} {c : Code} (ad pt : List Byte) (hc : c ≠ .ok)
    (h : execWith p (initCommand .enc key nonce) s = .next (abort p c s)) :
    runEncrypt p key nonce ad pt s = (.error (.code c), abort p c s) := by
  simp only [runEncrypt, runCommands_abort (adCommands ad) hc h]

theorem legal_initCommand {s : State} (hidle : s.phase = .idle) (dir : Dir) (key nonce : List Byte) :
    legal (initCommand dir key nonce) s.phase s.dir = true := decide_eq_true hidle

/-- INIT checks the key's length first (42_mode_engine.md R152). -/
theorem firstFailed_init_key {p : Params} {key nonce : List Byte} (dir : Dir) (s : State) (hkey : key.length ≠ 16) :
    firstFailed (argChecks p (initCommand dir key nonce) s) = some .errKeylen := by
  have hlen : reportedLength key ≠ keyBytes := fun e => hkey ((reportedLength_eq_iff key).1 e)
  simp [initCommand, argChecks, hlen]

theorem firstFailed_init_nonce {p : Params} {key nonce : List Byte} (dir : Dir) (s : State) (hp : p.nonceBytes = 16)
    (hkey : key.length = 16) (hnonce : nonce.length ≠ 16) :
    firstFailed (argChecks p (initCommand dir key nonce) s) = some .errNoncelen := by
  have hklen : reportedLength key = keyBytes := (reportedLength_eq_iff key).2 hkey
  have hnlen : reportedLength nonce ≠ 16 := fun e => hnonce ((reportedLength_eq_iff nonce).1 e)
  simp [initCommand, argChecks, hklen, hp, hnlen]

theorem firstFailed_init_none {p : Params} {key nonce : List Byte} (dir : Dir) (s : State) (hp : p.nonceBytes = 16)
    (hkey : key.length = 16) (hnonce : nonce.length = 16) : firstFailed (argChecks p (initCommand dir key nonce) s) = none := by
  have hklen : reportedLength key = keyBytes := (reportedLength_eq_iff key).2 hkey
  have hnlen : reportedLength nonce = 16 := (reportedLength_eq_iff nonce).2 hnonce
  simp [initCommand, argChecks, hklen, hp, hnlen]

/-- Settles O59: INIT is legal in IDLE, and its first failed check is of the key, else of the nonce. -/
theorem wrongLengthsAreReported : Obligations.WrongLengthsAreReported := by
  unfold Obligations.WrongLengthsAreReported
  intro key nonce ad msg s hidle
  have hlegal := legal_initCommand hidle .enc key nonce
  refine ⟨fun hkey => ?_, fun hkey hnonce => ?_⟩
  · exact runEncrypt_abort ad msg (by decide) (execWith_failed hlegal (firstFailed_init_key .enc s hkey))
  · exact runEncrypt_abort ad msg (by decide) (execWith_failed hlegal (firstFailed_init_nonce .enc s rfl hkey hnonce))

/-! A byte sequence cut into blocks (20_memory.md R51) -/

/-- Blocks as the block commands take them: full ones, then the last, which is empty only where FIRST is still set
(42_mode_engine.md R157). -/
inductive Cut : Bool → List Piece → Prop
  | last {first : Bool} {q : Piece} (hlast : q.last = true) (hlen : q.len ≤ 16) (hne : first = true ∨ q.len ≠ 0) :
      Cut first [q]
  | more {first : Bool} {q : Piece} {rest : List Piece} (hlast : q.last = false) (hlen : q.len = 16)
      (hrest : Cut false rest) : Cut first (q :: rest)

/-- The blocks of a sequence from number `i` on are cut so, and hold its bytes from `16 * i` on. -/
theorem cut_pieceAt (s : List Byte) (n : Nat) : ∀ (first : Bool) (i : Nat), i + (n + 1) = blockCount s.length →
    Cut first ((List.range' i (n + 1)).map (pieceAt s)) ∧
      (((List.range' i (n + 1)).map (pieceAt s)).map Piece.len).sum = s.length - 16 * i := by
  induction n with
  | zero =>
    intro first i hi
    have hlen : (pieceAt s i).len = s.length - 16 * i ∧ s.length - 16 * i ≤ 16 ∧ s.length - 16 * i ≠ 0 := by
      unfold blockCount at hi
      simp only [pieceAt]
      omega
    obtain ⟨e, hle, hne⟩ := hlen
    refine ⟨.last (by simpa [pieceAt] using hi) (by omega) (.inr (by omega)), ?_⟩
    simpa using e
  | succ n ih =>
    intro first i hi
    obtain ⟨hcut, hsum⟩ := ih false (i + 1) (by omega)
    have hlen : (pieceAt s i).len = 16 ∧ 16 * (i + 1) ≤ s.length := by
      unfold blockCount at hi
      simp only [pieceAt]
      omega
    obtain ⟨e, hle⟩ := hlen
    rw [List.range'_succ, List.map_cons, List.map_cons, List.sum_cons, hsum, e]
    refine ⟨.more (decide_eq_false (by omega)) e hcut, by omega⟩

/-- The pieces of a sequence are cut as the block commands take them, and their lengths add up to its length. -/
theorem cut_pieces (s : List Byte) : Cut true (pieces s) ∧ ((pieces s).map Piece.len).sum = s.length := by
  unfold pieces
  split_ifs with h
  · exact ⟨.last rfl (by simp) (.inl rfl), by simp [h]⟩
  · obtain ⟨n, hn⟩ : ∃ n, blockCount s.length = n + 1 := ⟨blockCount s.length - 1, by unfold blockCount; omega⟩
    simpa [List.range_eq_range', hn] using cut_pieceAt s n true 0 (by omega)

/-! The commands AD and MSG of a host program (30_encoding.md R82) -/

/-- The state after the blocks of associated data, the chain being c (42_mode_engine.md R161, R171). -/
def afterAd (c : Chain) (s : State) : State :=
  complete 0 0 { s with y := c.y, delta := c.d, first := true, phase := .msg }

/-- A block cut as R157 asks is absorbed in phase AD (42_mode_engine.md R161). -/
theorem execWith_adblk (p : Params) {s : State} {q : Piece} (had : s.phase = .ad) (hlen : q.len ≤ 16)
    (hlast : q.last = true ∨ q.len = 16) (hne : s.first = true ∨ q.len ≠ 0) :
    execWith p (.adblk q.last q.len q.block) s = .next (adblkAccept p q.last q.len q.block s) :=
  execWith_accepted (decide_eq_true had) ((lengthChecks_none s.first q.last q.len).2 ⟨hlen, hlast, hne⟩)

/-- AD is answered OK throughout and leaves phase MSG and the chain of the mode's first loop (42_mode_engine.md R171). -/
theorem runCommands_ad (p : Params) {first : Bool} {qs : List Piece} (hcut : Cut first qs) :
    ∀ {s : State}, s.phase = .ad → s.first = first →
      ∃ rs, runCommands p (qs.map fun q => .adblk q.last q.len q.block) s =
        (.ok rs, afterAd (absorbPieces p s.cfg.dc s.rk qs ⟨s.y, s.delta⟩) s) := by
  induction hcut with
  | @last first q hlast hlen hne =>
    rintro s had rfl
    have hend : adblkAccept p q.last q.len q.block s = afterAd (absorbPieces p s.cfg.dc s.rk [q] ⟨s.y, s.delta⟩) s := by
      simp only [adblkAccept, absorbPieces, pieceMask, hlast]
      rfl
    have hx := execWith_adblk p had hlen (.inl hlast) hne
    exact ⟨_, runCommands_ok hx (adblkAccept_resp ..) rfl (by rw [hend]; rfl)⟩
  | @more first q rest hlast hlen _ ih =>
    rintro s had rfl
    have hx := execWith_adblk p had hlen.le (.inr hlen) (.inr (by omega))
    obtain ⟨rs, hrest⟩ := ih (s := adblkAccept p q.last q.len q.block s) (by rw [adblkAccept_phase, hlast, had]; rfl) hlast
    exact ⟨_, runCommands_ok hx (adblkAccept_resp ..) rfl hrest⟩

/-! A message that does not fit the hold buffer (42_mode_engine.md R165) -/

theorem legal_msgblk {s : State} (hmsg : s.phase = .msg) (q : Piece) :
    legal (.msgblk q.last q.len q.block) s.phase s.dir = true := decide_eq_true hmsg

/-- The capacity check of MSGBLK comes after the length checks. -/
theorem firstFailed_msgblk {p : Params} {s : State} {q : Piece} (hlen : q.len ≤ 16) (hlast : q.last = true ∨ q.len = 16)
    (hne : s.first = true ∨ q.len ≠ 0) :
    firstFailed (argChecks p (.msgblk q.last q.len q.block) s) = if holdFits q.len s then none else some .errOverflow := by
  rw [argChecks, firstFailed_append _ ((lengthChecks_none s.first q.last q.len).2 ⟨hlen, hlast, hne⟩)]
  rfl

/-- A ciphertext block past the capacity is answered ERR_OVERFLOW. -/
theorem execWith_msgblk_overflow (p : Params) {s : State} {q : Piece} (hmsg : s.phase = .msg) (hdec : s.dir = .dec)
    (hlen : q.len ≤ 16) (hlast : q.last = true ∨ q.len = 16) (hne : s.first = true ∨ q.len ≠ 0)
    (hfull : s.holdBytes < s.holdlen.toNat + q.len) :
    execWith p (.msgblk q.last q.len q.block) s = .next (abort p .errOverflow s) := by
  refine execWith_failed (legal_msgblk hmsg q) ?_
  rw [firstFailed_msgblk hlen hlast hne]
  simp [holdFits, hdec, hfull]

/-- A ciphertext block within the capacity is answered OK, and its plaintext held back. -/
theorem execWith_msgblk_held (p : Params) {s : State} {q : Piece} (hmsg : s.phase = .msg) (hdec : s.dir = .dec)
    (hlen : q.len ≤ 16) (hlast : q.last = true ∨ q.len = 16) (hne : s.first = true ∨ q.len ≠ 0)
    (hfits : s.holdlen.toNat + q.len ≤ s.holdBytes) :
    ∃ u, holdAppend q.len (streamXor p q.block q.len s.y)
        (msgblkChain p q.last q.len (streamXor p q.block q.len s.y) s) = some u ∧
      execWith p (.msgblk q.last q.len q.block) s = .next (complete 0 0 u) := by
  obtain ⟨u, hu⟩ := holdAppend_fits q.len (streamXor p q.block q.len s.y)
    (msgblkChain p q.last q.len (streamXor p q.block q.len s.y) s) hfits
  refine ⟨u, hu, ?_⟩
  have hnone : firstFailed (argChecks p (.msgblk q.last q.len q.block) s) = none := by
    rw [firstFailed_msgblk hlen hlast hne]
    simp [holdFits, hfits]
  calc execWith p (.msgblk q.last q.len q.block) s
      = msgblkAccept p q.last q.len q.block s := execWith_accepted (legal_msgblk hmsg q) hnone
    _ = .next (complete 0 0 u) := by rw [msgblkAccept_dec hdec, hu]; rfl

/-- Recovered plaintext goes to HOLD and HOLDLEN alone (42_mode_engine.md R165). -/
theorem holdAppend_frame {n : Nat} {v : Block} {s t : State} (h : holdAppend n v s = some t) :
    t = { s with hold := t.hold, holdlen := t.holdlen } := by
  rcases holdAppend_cases n v s with ⟨-, e⟩ | ⟨-, -, e⟩ | ⟨-, -, e⟩ <;> cases e.symm.trans h <;> rfl

/-- A message longer than the room left ends with ERR_OVERFLOW at the first block that does not fit. -/
theorem runCommands_msg_overflow (p : Params) {first : Bool} {qs : List Piece} (hcut : Cut first qs) (rest : List Instr) :
    ∀ {s : State}, s.phase = .msg → s.dir = .dec → s.first = first → s.holdlen.toNat ≤ s.holdBytes →
      s.holdBytes < s.holdlen.toNat + (qs.map Piece.len).sum →
      ∃ t, runCommands p ((qs.map fun q => .msgblk q.last q.len q.block) ++ rest) s =
        (.error (.code .errOverflow), abort p .errOverflow t) := by
  induction hcut with
  | @last first q hlast hlen hne =>
    rintro s hmsg hdec rfl - hlong
    have hx := execWith_msgblk_overflow p hmsg hdec hlen (.inl hlast) hne (by simpa using hlong)
    exact ⟨s, runCommands_abort _ (by decide) hx⟩
  | @more first q qs hlast hlen _ ih =>
    rintro s hmsg hdec rfl hcap hlong
    have hne : s.first = true ∨ q.len ≠ 0 := .inr (by omega)
    rcases Nat.lt_or_ge s.holdBytes (s.holdlen.toNat + q.len) with hfull | hfits
    · have hx := execWith_msgblk_overflow p hmsg hdec hlen.le (.inr hlen) hne hfull
      exact ⟨s, runCommands_abort _ (by decide) hx⟩
    · obtain ⟨u, hu, hx⟩ := execWith_msgblk_held p hmsg hdec hlen.le (.inr hlen) hne hfits
      have hframe := holdAppend_frame hu
      have hheld : u.holdlen.toNat = s.holdlen.toNat + q.len :=
        holdAppend_holdlen (s := msgblkChain p q.last q.len _ s) hfits hu
      have hphase : u.phase = .msg := by rw [holdAppend_phase hu, msgblkChain_phase, hmsg, hlast]; rfl
      have hdir : u.dir = .dec := (congrArg State.dir hframe).trans hdec
      have hfirst : u.first = false := congrArg State.first hframe
      have hbytes : u.holdBytes = s.holdBytes := (congrArg State.holdBytes hframe).trans rfl
      have hroom : u.holdlen.toNat ≤ u.holdBytes := by omega
      have hmore : u.holdBytes < u.holdlen.toNat + (qs.map Piece.len).sum := by
        simp only [List.map_cons, List.sum_cons] at hlong
        omega
      obtain ⟨t, ht⟩ := ih (s := complete 0 0 u) hphase hdir hfirst hroom hmore
      exact ⟨t, runCommands_error hx (complete_resp ..) rfl ht⟩

/-- INIT with a key and a nonce of 16 bytes is accepted in IDLE (42_mode_engine.md R150). -/
theorem execWith_initCommand {p : Params} {key nonce : List Byte} {s : State} (dir : Dir) (hp : p.nonceBytes = 16)
    (hidle : s.phase = .idle) (hkey : key.length = 16) (hnonce : nonce.length = 16) :
    execWith p (initCommand dir key nonce) s = .next (initAccept p dir (packSequence nonce) (packSequence key) s) :=
  execWith_accepted (legal_initCommand hidle dir key nonce) (firstFailed_init_none dir s hp hkey hnonce)

/-- INIT and AD are answered OK throughout and leave phase MSG, the hold buffer as it was. -/
theorem runCommands_init_ad {p : Params} {key nonce : List Byte} {s : State} (dir : Dir) (ad : List Byte)
    (hp : p.nonceBytes = 16) (hidle : s.phase = .idle) (hkey : key.length = 16) (hnonce : nonce.length = 16) :
    ∃ rs, runCommands p (initCommand dir key nonce :: adCommands ad) s =
      (.ok rs, afterAd (absorbPieces p s.cfg.dc (expand p (packSequence key)) (pieces ad)
        (initialChain p (packSequence key) (packSequence nonce)))
        (initAccept p dir (packSequence nonce) (packSequence key) s)) := by
  have hx := execWith_initCommand dir hp hidle hkey hnonce
  obtain ⟨rs, hrs⟩ := runCommands_ad p (cut_pieces ad).1 (initAccept_phase p dir _ _ s) (initAccept_first p dir _ _ s)
  exact ⟨_, runCommands_ok hx (initAccept_resp ..) rfl hrs⟩

/-- DECRYPT ends as its first commands do when these end early. -/
theorem runDecrypt_error {p : Params} {key nonce ad ct : List Byte} {tag : Block} {s t : State} {e : HostStop}
    (h : runCommands p (initCommand .dec key nonce :: (adCommands ad ++ msgCommands ct ++ [.verify 16 tag])) s = (.error e, t)) :
    runDecrypt p key nonce ad ct tag s = (.error e, t) := by
  simp only [runDecrypt, h]

/-- Settles O56: INIT and AD are accepted, the idle core's buffer is empty, and the ciphertext overflows it before VERIFY. -/
theorem longCiphertextOverflows : Obligations.LongCiphertextOverflows := by
  unfold Obligations.LongCiphertextOverflows
  intro p key nonce ad ct tag s hp hinv hidle hkey hnonce hlong
  have hempty : s.holdlen = 0 := (hinv.idleWiped hidle).holdlen
  obtain ⟨hcut, hsum⟩ := cut_pieces ct
  obtain ⟨rs, hstart⟩ := runCommands_init_ad .dec ad hp hidle hkey hnonce
  obtain ⟨t, hmsg⟩ := runCommands_msg_overflow p hcut [.verify 16 tag]
    (s := afterAd _ (initAccept p .dec (packSequence nonce) (packSequence key) s)) rfl rfl rfl hinv.capacity
    (show s.holdBytes < s.holdlen.toNat + ((pieces ct).map Piece.len).sum by simpa [hempty, hsum] using hlong)
  refine ⟨abort p .errOverflow t, wiped_abort p _ t, runDecrypt_error ?_⟩
  rw [List.append_assoc, ← List.cons_append]
  exact runCommands_append_error hmsg hstart

end Sys2Proof.Machine
end

section
/-! PROOFS, family 40_block_cipher. What each layer of a round does to nibbles, bits and slice words; the cipher as a fold of rounds
over the printed constants; its bijectivity; ENCBLK. The lemmas about layers and rounds speak of arbitrary parameters where the rule
does, and this hardware is the case `coreParams`. -/

namespace Sys2Proof.Machine

/-! Nibbles and SubCells (40_block_cipher.md R100 to R102) -/

/-- Bit j of nibble i is bit 4i+j of the block (40_block_cipher.md R100). -/
theorem getLsbD_nibble (s : Block) (i : Nat) {j : Nat} (hj : j < 4) : (nibble s i).getLsbD j = s.getLsbD (4 * i + j) := by
  simp [nibble, hj]

theorem nibble_subCells (p : Params) (s : Block) {i : Nat} (hi : i < 32) : nibble (subCells p s) i = p.gs (nibble s i) := by
  apply BitVec.eq_of_getLsbD_eq
  intro j hj
  have hnibble : (4 * i + j) / 4 = i := by omega
  have hbit : (4 * i + j) % 4 = j := by omega
  rw [getLsbD_nibble _ _ hj, getLsbD_subCells p s _ (by omega), hnibble, hbit]

/-- Two blocks are equal when their thirty-two nibbles are. -/
theorem block_ext_nibbles {a b : Block} (h : ∀ i, i < 32 → nibble a i = nibble b i) : a = b := by
  apply block_ext
  intro k hk
  have hsplit : 4 * (k / 4) + k % 4 = k := Nat.div_add_mod k 4
  have hmod : k % 4 < 4 := Nat.mod_lt k (by decide)
  rw [← hsplit, ← getLsbD_nibble a _ hmod, ← getLsbD_nibble b _ hmod, h (k / 4) (by omega)]

theorem subCells_injective {p : Params} (hgs : Function.Injective p.gs) : Function.Injective (subCells p) := by
  intro a b hab
  apply block_ext_nibbles
  intro i hi
  apply hgs
  rw [← nibble_subCells p a hi, ← nibble_subCells p b hi, hab]

/-- Settles O11: `nibble_subCells`. -/
theorem subCellsActsOnEveryNibble : Obligations.SubCellsActsOnEveryNibble := by
  unfold Obligations.SubCellsActsOnEveryNibble
  exact fun p s _ hi => nibble_subCells p s hi

/-- Settles O12: each of the sixteen nibble values is looked up in both printed tables. -/
theorem sboxIsThePrintedBijection : Obligations.SboxIsThePrintedBijection := by
  unfold Obligations.SboxIsThePrintedBijection
  exact ⟨by decide, by decide⟩

/-- The printed inverse table maps each value of the S-box back, so no two nibbles share one (40_block_cipher.md R111). -/
theorem gs_coreParams_injective : Function.Injective coreParams.gs := by
  obtain ⟨-, hinverse⟩ := sboxIsThePrintedBijection
  intro x y hxy
  apply Option.some.inj
  rw [← hinverse x, ← hinverse y, hxy]

/-! PermBits (40_block_cipher.md R103) -/

/-- `P128` moves the 128 bits of a block to 128 different places of it. -/
structure PermutesBits (pos : Nat → Nat) : Prop where
  lt : ∀ i, i < 128 → pos i < 128
  injective : ∀ i j, i < 128 → j < 128 → pos i = pos j → i = j

theorem permutesBits_coreParams : PermutesBits coreParams.p128 := ⟨bitPosition_lt, bitPosition_injective⟩

theorem getLsbD_permBits {p : Params} (hpos : PermutesBits p.p128) (s : Block) {i : Nat} (hi : i < 128) :
    (permBits p s).getLsbD (p.p128 i) = s.getLsbD i :=
  getLsbD_scatter p.p128 s.getLsbD 128 i hi hpos.lt hpos.injective

theorem permBits_injective {p : Params} (hpos : PermutesBits p.p128) : Function.Injective (permBits p) := by
  intro a b hab
  apply block_ext
  intro i hi
  rw [← getLsbD_permBits hpos a hi, ← getLsbD_permBits hpos b hi, hab]

theorem bitPosition_mod_four (i : Nat) : bitPosition i % 4 = i % 4 := by
  unfold bitPosition
  omega

theorem bitPositionTable_eq_map : bitPositionTable = (List.range 128).map bitPosition := by decide

/-- Settles O13: the move is `getLsbD_permBits`, and the printed table is the formula row by row. -/
theorem permBitsMovesEveryBit : Obligations.PermBitsMovesEveryBit := by
  unfold Obligations.PermBitsMovesEveryBit
  refine ⟨fun s i hi => getLsbD_permBits permutesBits_coreParams s hi, fun i hi => ?_,
    fun i hi => ⟨bitPosition_lt i hi, bitPosition_mod_four i⟩, bitPosition_injective⟩
  rw [bitPositionTable_eq_map, List.getElem?_map, List.getElem?_range hi]
  rfl

/-! AddRoundKey and the slice words (40_block_cipher.md R100, R104) -/

/-- Bit j of nibble i of the sum: U and V arrive at one place of the nibble each (40_block_cipher.md R104). -/
theorem getLsbD_addRoundKey_slice (s : Block) (k : RoundKey) {i j : Nat} (hi : i < 32) (hj : j < 4) :
    (addRoundKey coreParams s k).getLsbD (4 * i + j) =
      (s.getLsbD (4 * i + j) ^^
        ((decide (j = 2) && (k.extractLsb' 32 32).getLsbD i) ^^ (decide (j = 1) && (k.extractLsb' 0 32).getLsbD i))) := by
  have hmod : (4 * i + j) % 4 = j := by omega
  have hdiv : (4 * i + j) / 4 = i := by omega
  rw [addRoundKey, BitVec.getLsbD_xor, getLsbD_keyMask k _ (by omega), hmod, hdiv]
  simp [hi]

/-- Bit i of slice word j is bit 4i+j of the block (40_block_cipher.md R100). -/
theorem getLsbD_sliceWord (s : Block) (j : Nat) {i : Nat} (hi : i < 32) : (sliceWord s j).getLsbD i = s.getLsbD (4 * i + j) := by
  have hscatter : (scatter (fun i => i) (fun i => s.getLsbD (4 * i + j)) 32).getLsbD i = s.getLsbD (4 * i + j) :=
    getLsbD_scatter _ _ 32 i hi (fun _ _ => by omega) (fun _ _ _ _ h => h)
  rw [sliceWord, BitVec.getLsbD_setWidth, hscatter, decide_eq_true hi, Bool.true_and]

/-- Slice word j of the sum: U is added to word 2, V to word 1 (40_block_cipher.md R104). -/
theorem sliceWord_addRoundKey (s : Block) (k : RoundKey) {j : Nat} (hj : j < 4) :
    sliceWord (addRoundKey coreParams s k) j =
      sliceWord s j ^^^ ((if j = 2 then k.extractLsb' 32 32 else 0) ^^^ (if j = 1 then k.extractLsb' 0 32 else 0)) := by
  apply BitVec.eq_of_getLsbD_eq
  intro i hi
  rw [getLsbD_sliceWord _ _ hi, getLsbD_addRoundKey_slice s k hi hj, BitVec.getLsbD_xor, getLsbD_sliceWord _ _ hi,
    BitVec.getLsbD_xor]
  obtain htwo | hone | hother : j = 2 ∨ j = 1 ∨ (j ≠ 2 ∧ j ≠ 1) := by omega
  · simp [htwo]
  · simp [hone]
  · simp [hother]

/-- Settles O14: bit by bit `getLsbD_addRoundKey_slice`, in slice words `sliceWord_addRoundKey`, each at the four residues. -/
theorem addRoundKeyTouchesTwoSlices : Obligations.AddRoundKeyTouchesTwoSlices := by
  unfold Obligations.AddRoundKeyTouchesTwoSlices
  intro s k
  refine ⟨fun i hi => ⟨?_, ?_, ?_, ?_⟩, ?_, ?_, ?_, ?_⟩
  · simpa using getLsbD_addRoundKey_slice s k hi (j := 2) (by decide)
  · simpa using getLsbD_addRoundKey_slice s k hi (j := 1) (by decide)
  · simpa using getLsbD_addRoundKey_slice s k hi (j := 0) (by decide)
  · simpa using getLsbD_addRoundKey_slice s k hi (j := 3) (by decide)
  · simpa using sliceWord_addRoundKey s k (j := 2) (by decide)
  · simpa using sliceWord_addRoundKey s k (j := 1) (by decide)
  · simpa using sliceWord_addRoundKey s k (j := 3) (by decide)
  · simpa using sliceWord_addRoundKey s k (j := 0) (by decide)

/-! AddConstant and the round-constant register (40_block_cipher.md R105, R106) -/

/-- `CMASK(c)` as R106 sums it, for every value of the six-bit register. -/
theorem constMask_eq_sum (c : RoundConst) :
    constMask coreParams c = BitVec.ofNat 128
      (2 ^ 127 + (c.getLsbD 5).toNat * 2 ^ 23 + (c.getLsbD 4).toNat * 2 ^ 19 + (c.getLsbD 3).toNat * 2 ^ 15 +
        (c.getLsbD 2).toNat * 2 ^ 11 + (c.getLsbD 1).toNat * 2 ^ 7 + (c.getLsbD 0).toNat * 2 ^ 3) := by
  revert c
  decide

/-- Settles O15: bit k of the mask is `getLsbD_constMask`, whose seven positions are written out; the sum is `constMask_eq_sum`. -/
theorem addConstantTouchesSevenBits : Obligations.AddConstantTouchesSevenBits := by
  unfold Obligations.AddConstantTouchesSevenBits
  refine fun s c => ⟨fun k hk => ?_, by rw [addConstant, constMask_eq_sum]⟩
  rw [addConstant, BitVec.getLsbD_xor, getLsbD_constMask]
  congr 1
  split_ifs with h127 h23 h19 h15 h11 h7 h3
  case neg =>
    have hnone : ¬ (k % 4 = 3 ∧ k / 4 < 6) := by omega
    simp [h127, ← Bool.decide_and, hnone]
  all_goals subst k; simp

/-- The printed constants are the register's values from the first update on. -/
theorem roundConstTable_eq_iterate :
    roundConstTable = List.iterate coreParams.rcNext (coreParams.rcNext coreParams.rcStart) 48 := by decide

theorem repeat_succ_eq_iterate {α : Type} (f : α → α) (n : Nat) (a : α) : Nat.repeat f (n + 1) a = f^[n] (f a) := by
  induction n with
  | zero => rfl
  | succ n ih => rw [Nat.repeat, ih, Function.iterate_succ_apply']

/-- Settles O16: the update is read off for each of the 64 register values, the constants are `roundConstTable_eq_iterate`. -/
theorem roundConstantsArePrinted : Obligations.RoundConstantsArePrinted := by
  unfold Obligations.RoundConstantsArePrinted
  refine ⟨rfl, by decide, fun r hr => ?_⟩
  rw [roundConstTable_eq_iterate, List.getElem?_iterate _ _ _ _ hr, repeat_succ_eq_iterate]

/-! The rounds in order (40_block_cipher.md R108, R112) -/

/-- The rounds are a fold over the round keys, each with its own value of the register, if these are listed far enough. -/
theorem cipherRounds_eq_foldl (p : Params) (rk : List RoundKey) :
    ∀ {n : Nat} (c : RoundConst) (s : Block), rk.length ≤ n →
      cipherRounds p rk c s =
        (rk.zip (List.iterate p.rcNext (p.rcNext c) n)).foldl (fun s e => cipherRound p s e.1 e.2) s := by
  induction rk with
  | nil => intro n c s _; rfl
  | cons k rk ih =>
    intro n c s hn
    cases n with
    | zero => simp at hn
    | succ n =>
      rw [List.iterate, List.zip_cons_cons, List.foldl_cons]
      exact ih (p.rcNext c) (cipherRound p s k (p.rcNext c)) (Nat.le_of_succ_le_succ hn)

/-- Settles O17: the fold of `cipherRounds_eq_foldl` over the printed constants; one round is the four steps of R112 by definition. -/
theorem cipherIsTheRoundsInOrder : Obligations.CipherIsTheRoundsInOrder := by
  unfold Obligations.CipherIsTheRoundsInOrder
  intro rk x hlength
  rw [roundConstTable_eq_iterate]
  exact cipherRounds_eq_foldl coreParams rk coreParams.rcStart x hlength

/-! The cipher as a bijection (40_block_cipher.md R109) -/

theorem addRoundKey_injective (p : Params) (k : RoundKey) : Function.Injective (addRoundKey p · k) :=
  fun _ _ h => BitVec.xor_left_inj _ |>.1 h

theorem addConstant_injective (p : Params) (c : RoundConst) : Function.Injective (addConstant p · c) :=
  fun _ _ h => BitVec.xor_left_inj _ |>.1 h

/-- A round is injective in the block, for its four layers are. -/
theorem cipherRound_injective {p : Params} (hgs : Function.Injective p.gs) (hpos : PermutesBits p.p128) (k : RoundKey)
    (c : RoundConst) : Function.Injective (cipherRound p · k c) :=
  (addConstant_injective p c).comp <| (addRoundKey_injective p k).comp <|
    (permBits_injective hpos).comp (subCells_injective hgs)

/-- By induction over the round keys, whatever the register holds. -/
theorem cipherRounds_injective {p : Params} (hgs : Function.Injective p.gs) (hpos : PermutesBits p.p128) (rk : List RoundKey) :
    ∀ c : RoundConst, Function.Injective (cipherRounds p rk c) := by
  induction rk with
  | nil => exact fun _ => Function.injective_id
  | cons k rk ih => exact fun c => (ih (p.rcNext c)).comp (cipherRound_injective hgs hpos k (p.rcNext c))

/-- There are finitely many blocks, so an injective map of them is onto. -/
theorem bijective_of_injective_on_blocks {f : Block → Block} (h : Function.Injective f) : Function.Bijective f :=
  Finite.injective_iff_bijective.1 h

/-- Settles O18: the S-box is injective and `P128` permutes the bits, so every round, and with them the cipher, is injective on the
finitely many blocks. -/
theorem cipherIsBijective : Obligations.CipherIsBijective := by
  unfold Obligations.CipherIsBijective
  intro rk
  exact bijective_of_injective_on_blocks
    (cipherRounds_injective gs_coreParams_injective permutesBits_coreParams rk coreParams.rcStart)

/-! ENCBLK (40_block_cipher.md R110) -/

/-- The value of a word of the layout, by the weights of its fields (30_encoding.md R72). -/
theorem toNat_commandWord (o : Byte) (d : Dir) (l : Bool) (a : BitVec 16) :
    (commandWord o d l a).toNat = o.toNat * 2 ^ 24 + (dirBit d).toNat * 2 ^ 17 + l.toNat * 2 ^ 16 + a.toNat := by
  simp only [commandWord, BitVec.toNat_append, ← Nat.shiftLeft_add_eq_or_of_lt (BitVec.isLt _)]
  simp only [Nat.shiftLeft_eq, BitVec.toNat_ofBool, BitVec.toNat_ofNat]
  omega

/-- The word of ENCBLK as a number (40_block_cipher.md R110). -/
theorem encode_encblk {klen dlen : Nat} (hk : fitsByteField klen) (hd : fitsByteField dlen) (din kin : Block) :
    encode (.encblk klen dlen din kin) = ⟨BitVec.ofNat 32 (0x01000000 + klen * 256 + dlen), din, kin⟩ := by
  have hword : commandWord 0x01#8 .enc false (argPair klen dlen) = BitVec.ofNat 32 (0x01000000 + klen * 256 + dlen) := by
    apply BitVec.eq_of_toNat_eq
    rw [toNat_commandWord, toNat_argPair hk hd, BitVec.toNat_ofNat]
    simp only [dirBit, BitVec.toNat_ofNat, Bool.toNat_false]
    omega
  rw [encode, hword]

/-- Settles O25: the encoding is read back by `decode_encode`; then legality, the two length checks and the accepted command, each by
the lemma for all commands. -/
theorem encblkRule : Obligations.EncblkRule := by
  unfold Obligations.EncblkRule
  intro klen dlen din kin s
  rw [exec_eq_execWith]
  refine ⟨fun hk hd => ?_, fun hphase => ?_, fun hidle hklen => ?_, fun hidle hklen hdlen => ?_, fun hidle hklen hdlen => ?_⟩
  · rw [← encode_encblk hk hd]
    exact decode_encode (by simp [Instr.WellFormed, Instr.wf, hk, hd])
  · exact execWith_illegal (decide_eq_false hphase)
  · exact execWith_failed (decide_eq_true hidle) (by simp [argChecks, keyBytes, hklen])
  · exact execWith_failed (decide_eq_true hidle) (by simp [argChecks, keyBytes, blockBytes, hklen, hdlen])
  · exact execWith_accepted (decide_eq_true hidle) (by simp [argChecks, keyBytes, blockBytes, hklen, hdlen])

end Sys2Proof.Machine
end

section
/-! PROOFS, family 41_key_schedule. The schedule as iterates of the update, its selection and update in 16-bit and in 32-bit words, the
rotations of a wrapped word, the closed form and the period. -/

namespace Sys2Proof.Machine

/-! The round keys as iterates of the update (41_key_schedule.md R134), for any parameters -/

theorem repeat_eq_iterate {α : Type} (f : α → α) (n : Nat) (a : α) : Nat.repeat f n a = f^[n] a := by
  cases n with
  | zero => rfl
  | succ n => exact repeat_succ_eq_iterate f n a

/-- The schedule selects from each iterate of the update in turn (41_key_schedule.md R134). -/
theorem expandFrom_eq_map_iterate (p : Params) (n : Nat) :
    ∀ kst : Block, expandFrom p n kst = (List.iterate p.ksUpdate kst n).map p.ksSelect := by
  induction n with
  | zero => exact fun _ => rfl
  | succ n ih => exact fun kst => congrArg (p.ksSelect kst :: ·) (ih (p.ksUpdate kst))

/-- Round key r is selected after r updates (41_key_schedule.md R134). -/
theorem getElem?_expandFrom (p : Params) (kst : Block) {n r : Nat} (hr : r < n) :
    (expandFrom p n kst)[r]? = some (p.ksSelect (p.ksUpdate^[r] kst)) := by
  rw [expandFrom_eq_map_iterate, List.getElem?_map, List.getElem?_iterate _ _ _ _ hr, Option.map_some]

/-! Selection and update on 16-bit words (41_key_schedule.md R131 to R133) -/

/-- Of the four 32-bit words of a key state, selection takes the second from the top and the lowest (41_key_schedule.md R132). -/
theorem selectRoundKey_append (w3 w2 w1 w0 : BitVec 32) : selectRoundKey (w3 ++ w2 ++ w1 ++ w0) = w2 ++ w0 := by
  have hw2 : (w3 ++ w2 ++ w1 ++ w0).extractLsb' 64 32 = w2 := by
    rw [BitVec.extractLsb'_append_eq_of_le (by decide), BitVec.extractLsb'_append_eq_of_le (by decide)]
    exact BitVec.extractLsb'_append_eq_right
  have hw0 : (w3 ++ w2 ++ w1 ++ w0).extractLsb' 0 32 = w0 := BitVec.extractLsb'_append_eq_right
  rw [selectRoundKey, hw2, hw0]

/-- The two lowest 16-bit words wrap round to the top, rotated; the other six move down (41_key_schedule.md R133). -/
theorem nextKeyState_append (hi : BitVec 96) (k1 k0 : BitVec 16) :
    nextKeyState (hi ++ k1 ++ k0) = k1.rotateRight 2 ++ k0.rotateRight 12 ++ hi := by
  have hk0 : (hi ++ k1 ++ k0).extractLsb' 0 16 = k0 := BitVec.extractLsb'_append_eq_right
  have hk1 : (hi ++ k1 ++ k0).extractLsb' 16 16 = k1 := by
    rw [BitVec.extractLsb'_append_eq_of_le (by decide)]
    exact BitVec.extractLsb'_append_eq_right
  have hhi : (hi ++ k1 ++ k0).extractLsb' 32 96 = hi := by
    rw [BitVec.extractLsb'_append_eq_of_le (by decide)]
    exact BitVec.extractLsb'_append_eq_left
  rw [nextKeyState, hk0, hk1, hhi]

/-- Settles O19: the eight words are regrouped for `selectRoundKey_append` and `nextKeyState_append`; the round keys are
`getElem?_expandFrom`. -/
theorem keyScheduleSelectsAndRotates : Obligations.KeyScheduleSelectsAndRotates := by
  unfold Obligations.KeyScheduleSelectsAndRotates
  refine ⟨fun k7 k6 k5 k4 k3 k2 k1 k0 => ⟨?_, ?_⟩, fun key => ⟨length_expand coreParams key, fun r hr => ?_⟩⟩
  · have hpairs : k7 ++ k6 ++ k5 ++ k4 ++ k3 ++ k2 ++ k1 ++ k0 = k7 ++ k6 ++ (k5 ++ k4) ++ (k3 ++ k2) ++ (k1 ++ k0) := by
      simp only [BitVec.append_assoc', BitVec.cast_eq]
    calc coreParams.ksSelect (k7 ++ k6 ++ k5 ++ k4 ++ k3 ++ k2 ++ k1 ++ k0)
      _ = selectRoundKey (k7 ++ k6 ++ (k5 ++ k4) ++ (k3 ++ k2) ++ (k1 ++ k0)) := congrArg selectRoundKey hpairs
      _ = k5 ++ k4 ++ (k1 ++ k0) := selectRoundKey_append (k7 ++ k6) (k5 ++ k4) (k3 ++ k2) (k1 ++ k0)
      _ = k5 ++ k4 ++ k1 ++ k0 := BitVec.append_assoc'
  · calc coreParams.ksUpdate (k7 ++ k6 ++ k5 ++ k4 ++ k3 ++ k2 ++ k1 ++ k0)
      _ = nextKeyState (k7 ++ k6 ++ k5 ++ k4 ++ k3 ++ k2 ++ k1 ++ k0) := rfl
      _ = k1.rotateRight 2 ++ k0.rotateRight 12 ++ (k7 ++ k6 ++ k5 ++ k4 ++ k3 ++ k2) :=
        nextKeyState_append (k7 ++ k6 ++ k5 ++ k4 ++ k3 ++ k2) k1 k0
      _ = (k1 >>> 2 ||| k1 <<< 14) ++ (k0 >>> 12 ||| k0 <<< 4) ++ (k7 ++ k6 ++ k5 ++ k4 ++ k3 ++ k2) := by
        rw [BitVec.rotateRight_def, BitVec.rotateRight_def]
      _ = (k1 >>> 2 ||| k1 <<< 14) ++ (k0 >>> 12 ||| k0 <<< 4) ++ k7 ++ k6 ++ k5 ++ k4 ++ k3 ++ k2 := by
        simp only [BitVec.append_assoc', BitVec.cast_eq]
  · rw [repeat_eq_iterate]
    exact getElem?_expandFrom coreParams key hr

/-! Rotations of a wrapped word (41_key_schedule.md R135) -/

theorem getLsbD_rotateRight_of_lt {w : Nat} (x : BitVec w) (r : Nat) {i : Nat} (hi : i < w) :
    (x.rotateRight r).getLsbD i = x.getLsbD ((i + r) % w) := by
  have hr : r % w < w := Nat.mod_lt r (by omega)
  rw [BitVec.getLsbD_rotateRight, ← Nat.add_mod_mod]
  generalize r % w = q at hr
  by_cases h : i < w - q
  · have hmod : (i + q) % w = q + i := by rw [Nat.mod_eq_of_lt (by omega), Nat.add_comm]
    rw [hmod, decide_eq_true h, cond_true]
  · have hmod : (i + q) % w = i - (w - q) := by
      rw [Nat.mod_eq_sub_mod (by omega), Nat.mod_eq_of_lt (by omega)]
      omega
    rw [hmod, decide_eq_false h, decide_eq_true hi, cond_false, Bool.true_and]

theorem rotateRight_zero {w : Nat} (x : BitVec w) : x.rotateRight 0 = x := by
  apply BitVec.eq_of_getLsbD_eq
  intro i hi
  rw [getLsbD_rotateRight_of_lt x 0 hi, Nat.add_zero, Nat.mod_eq_of_lt hi]

theorem rotateRight_rotateRight {w : Nat} (x : BitVec w) (a b : Nat) : (x.rotateRight a).rotateRight b = x.rotateRight (a + b) := by
  apply BitVec.eq_of_getLsbD_eq
  intro i hi
  have hmod : (i + b) % w < w := Nat.mod_lt _ (by omega)
  rw [getLsbD_rotateRight_of_lt _ b hi, getLsbD_rotateRight_of_lt _ a hmod, getLsbD_rotateRight_of_lt _ (a + b) hi,
    Nat.mod_add_mod, Nat.add_assoc, Nat.add_comm b a]

/-- `f^e` without the reduction of its rotation amounts modulo 16. -/
theorem rotatedWord_eq (e : Nat) (w : BitVec 32) :
    rotatedWord e w = (w.extractLsb' 16 16).rotateRight (2 * e) ++ (w.extractLsb' 0 16).rotateRight (12 * e) := by
  rw [rotatedWord, BitVec.rotateRight_mod_eq_rotateRight, BitVec.rotateRight_mod_eq_rotateRight]

/-- The exponents of `f` add up, as R135 writes it. -/
theorem rotatedWord_rotatedWord (a b : Nat) (w : BitVec 32) : rotatedWord a (rotatedWord b w) = rotatedWord (b + a) w := by
  rw [rotatedWord_eq a, rotatedWord_eq b, BitVec.extractLsb'_append_eq_left, BitVec.extractLsb'_append_eq_right,
    rotateRight_rotateRight, rotateRight_rotateRight, ← Nat.mul_add, ← Nat.mul_add, ← rotatedWord_eq]

theorem rotatedWord_zero (w : BitVec 32) : rotatedWord 0 w = w := by
  have hjoin : w.extractLsb' 16 16 ++ w.extractLsb' 0 16 = w :=
    (BitVec.extractLsb'_append_extractLsb'_eq_extractLsb' (Nat.zero_add 16).symm).trans BitVec.extractLsb'_eq_self
  rw [rotatedWord_eq, Nat.mul_zero, rotateRight_zero, rotateRight_zero, hjoin]

/-- `f^8` is the identity (41_key_schedule.md R135). -/
theorem rotatedWord_add_eight (e : Nat) (w : BitVec 32) : rotatedWord (e + 8) w = rotatedWord e w := by
  have hupper : 2 * (e + 8) % 16 = 2 * e % 16 := by omega
  have hlower : 12 * (e + 8) % 16 = 12 * e % 16 := by omega
  rw [rotatedWord, rotatedWord, hupper, hlower]

/-! Selection and update on 32-bit words (41_key_schedule.md R132, R133, R135) -/

theorem extractLsb'_extractLsb' {w n m : Nat} (x : BitVec w) (a : Nat) {b : Nat} (h : b + m ≤ n) :
    (x.extractLsb' a n).extractLsb' b m = x.extractLsb' (a + b) m := by
  apply BitVec.eq_of_getLsbD_eq
  intro i hi
  have hlt : b + i < n := by omega
  simp only [BitVec.getLsbD_extractLsb', hlt, decide_true, Bool.true_and, Nat.add_assoc]

/-- The selected words are `W_2` and `W_0` of the current key state (41_key_schedule.md R132). -/
theorem selectRoundKey_eq_keyWords (kst : Block) : selectRoundKey kst = keyWord kst 2 ++ keyWord kst 0 := rfl

/-- The update moves three words down and brings the lowest, rotated once, to the top (41_key_schedule.md R133). -/
theorem nextKeyState_eq_append (kst : Block) :
    nextKeyState kst = (rotatedWord 1 (keyWord kst 0) ++ kst.extractLsb' 32 96 : BitVec (32 + 96)) := by
  have hupper : (keyWord kst 0).extractLsb' 16 16 = kst.extractLsb' 16 16 := BitVec.extractLsb'_extractLsb'_of_le (by decide)
  have hlower : (keyWord kst 0).extractLsb' 0 16 = kst.extractLsb' 0 16 := BitVec.extractLsb'_extractLsb'_of_le (by decide)
  rw [rotatedWord_eq, hupper, hlower]
  rfl

theorem keyWord_nextKeyState_of_lt (kst : Block) {j : Nat} (hj : j < 3) : keyWord (nextKeyState kst) j = keyWord kst (j + 1) := by
  rw [nextKeyState_eq_append, keyWord, BitVec.extractLsb'_append_eq_of_add_le (by omega),
    extractLsb'_extractLsb' kst 32 (by omega), keyWord, Nat.mul_succ, Nat.add_comm]

theorem keyWord_nextKeyState_three (kst : Block) : keyWord (nextKeyState kst) 3 = rotatedWord 1 (keyWord kst 0) := by
  rw [nextKeyState_eq_append]
  exact BitVec.extractLsb'_append_eq_left

/-! The closed form and the period (41_key_schedule.md R135) -/

/-- Word i of the sequence that the key state is a window of four words of: `f^(i div 4)(W_(i mod 4))` (41_key_schedule.md R135). -/
def scheduleWord (key : Block) (i : Nat) : BitVec 32 := rotatedWord (i / 4) (keyWord key (i % 4))

/-- The first four words are the key's own, not rotated. -/
theorem scheduleWord_of_lt (key : Block) {i : Nat} (hi : i < 4) : scheduleWord key i = keyWord key i := by
  rw [scheduleWord, Nat.div_eq_of_lt hi, Nat.mod_eq_of_lt hi, rotatedWord_zero]

/-- A word comes back four words on, rotated once more. -/
theorem scheduleWord_add_four (key : Block) (i : Nat) : scheduleWord key (i + 4) = rotatedWord 1 (scheduleWord key i) := by
  rw [scheduleWord, scheduleWord, rotatedWord_rotatedWord, Nat.add_mod_right, Nat.add_div_right i (by decide)]

/-- The word sequence has period 32, for `f^8` is the identity. -/
theorem scheduleWord_add_thirtytwo (key : Block) (i : Nat) : scheduleWord key (i + 32) = scheduleWord key i := by
  have hword : (i + 32) % 4 = i % 4 := by omega
  have hexponent : (i + 32) / 4 = i / 4 + 8 := by omega
  rw [scheduleWord, scheduleWord, hword, hexponent, rotatedWord_add_eight]

/-- After r updates the key state holds words r to r+3 of the sequence: the closed form, by induction on the updates. -/
theorem keyWord_iterate_nextKeyState (key : Block) (r : Nat) :
    ∀ {j : Nat}, j < 4 → keyWord (nextKeyState^[r] key) j = scheduleWord key (r + j) := by
  induction r with
  | zero =>
    intro j hj
    rw [Nat.zero_add, scheduleWord_of_lt key hj, Function.iterate_zero_apply]
  | succ r ih =>
    intro j hj
    rw [Function.iterate_succ_apply']
    obtain hlow | rfl : j < 3 ∨ j = 3 := by omega
    · rw [keyWord_nextKeyState_of_lt _ hlow, ih (by omega), Nat.add_right_comm, Nat.add_assoc]
    · rw [keyWord_nextKeyState_three, ih (by decide), Nat.add_zero, ← scheduleWord_add_four, Nat.add_right_comm]

/-- Round key r is words r+2 and r of the sequence (41_key_schedule.md R135). -/
theorem getElem?_expandFrom_scheduleWords (key : Block) {n r : Nat} (hr : r < n) :
    (expandFrom coreParams n key)[r]? = some (scheduleWord key (r + 2) ++ scheduleWord key r) := by
  calc (expandFrom coreParams n key)[r]?
      = some (selectRoundKey (nextKeyState^[r] key)) := getElem?_expandFrom coreParams key hr
    _ = some (scheduleWord key (r + 2) ++ scheduleWord key r) := by
      rw [selectRoundKey_eq_keyWords, keyWord_iterate_nextKeyState key r (by decide),
        keyWord_iterate_nextKeyState key r (by decide)]
      rfl

/-- Settles O20: the closed form is `getElem?_expandFrom_scheduleWords`, and the words it names have period 32. -/
theorem keyScheduleClosedForm : Obligations.KeyScheduleClosedForm := by
  unfold Obligations.KeyScheduleClosedForm
  refine fun key n r => ⟨fun hr => getElem?_expandFrom_scheduleWords key hr, fun hr => ?_⟩
  rw [getElem?_expandFrom_scheduleWords key hr, getElem?_expandFrom_scheduleWords key (Nat.lt_of_add_right_lt hr),
    Nat.add_right_comm, scheduleWord_add_thirtytwo, scheduleWord_add_thirtytwo]

end Sys2Proof.Machine
end

section
/-! PROOFS, family 42_mode_engine. The host programs against the mode as one pure function, in both directions; the round trip; what
the final Y does not depend on; the primitives of the mode and the rules of INIT, ADBLK and MSGBLK. The lemmas speak of arbitrary
parameters where the statement does not fix them, and this hardware is the case `coreParams`. -/

namespace Sys2Proof.Machine

/-! A byte sequence cut into blocks, by recursion on the sequence (20_memory.md R51) -/

/-- A sequence of at most one block is one block, the last. -/
theorem pieces_of_length_le {s : List Byte} (h : s.length ≤ 16) : pieces s = [⟨packSequence s, s.length, true⟩] := by
  unfold pieces
  split_ifs with hz
  · obtain rfl := List.length_eq_zero_iff.1 hz
    decide
  · have hcount : blockCount s.length = 1 := by unfold blockCount; omega
    simp [hcount, pieceAt, h]

/-- A block of what follows the first 16 bytes is the next block of the whole sequence. -/
theorem pieceAt_drop {s : List Byte} (h : 16 < s.length) (i : Nat) : pieceAt (s.drop 16) i = pieceAt s (i + 1) := by
  have hcount : blockCount (s.length - 16) + 1 = blockCount s.length := by unfold blockCount; omega
  simp only [pieceAt, List.drop_drop, List.length_drop, Piece.mk.injEq, decide_eq_decide]
  exact ⟨by rw [Nat.mul_add_one, Nat.add_comm], by omega, by omega⟩

/-- A longer sequence starts with a full block that is not the last. -/
theorem pieces_of_lt_length {s : List Byte} (h : 16 < s.length) :
    pieces s = ⟨packSequence s, 16, false⟩ :: pieces (s.drop 16) := by
  have hcount : blockCount s.length = blockCount (s.length - 16) + 1 := by unfold blockCount; omega
  have hpos : 0 < blockCount (s.length - 16) := by unfold blockCount; omega
  have hfirst : pieceAt s 0 = ⟨packSequence s, 16, false⟩ := by
    simp only [pieceAt, Nat.mul_zero, List.drop_zero, Piece.mk.injEq, true_and]
    exact ⟨by omega, decide_eq_false (by omega)⟩
  have hrest : pieceAt s ∘ Nat.succ = pieceAt (s.drop 16) := funext fun i => (pieceAt_drop h i).symm
  rw [pieces, if_neg (by omega), pieces, if_neg (by simp; omega), hcount, List.length_drop, List.range_succ_eq_map,
    List.map_cons, List.map_map, hfirst, hrest]

/-- Induction on a sequence block by block, as `pieces` cuts it. -/
theorem blockwise_induction {motive : List Byte → Prop} (short : ∀ s, s.length ≤ 16 → motive s)
    (long : ∀ s, 16 < s.length → motive (s.drop 16) → motive s) (s : List Byte) : motive s := by
  induction hn : s.length using Nat.strong_induction_on generalizing s with
  | _ n ih =>
    rcases Nat.lt_or_ge 16 s.length with h | h
    · exact long s h (ih _ (by rw [List.length_drop]; omega) _ rfl)
    · exact short s h

/-! Bytes out of blocks and blocks out of bytes (20_memory.md R52) -/

@[simp] theorem length_firstBytes (b : Block) (n : Nat) : (firstBytes b n).length = n := by simp [firstBytes]

theorem blockByte_packSequence (s : List Byte) {j : Nat} (hj : j < 16) : blockByte (packSequence s) j = s.getD j 0 :=
  blockByte_blockOfBytes _ j hj

theorem firstBytes_packSequence (s : List Byte) {n : Nat} (hn : n ≤ 16) (hlen : n ≤ s.length) :
    firstBytes (packSequence s) n = s.take n := by
  refine List.ext_getElem (by simp [hlen]) fun j hj _ => ?_
  have hlt : j < n := by simpa using hj
  have hbyte := blockByte_packSequence s (hlt.trans_le hn)
  rw [List.getD_eq_getElem s 0 (hlt.trans_le hlen)] at hbyte
  simpa [firstBytes] using hbyte

theorem getD_firstBytes (b : Block) (n j : Nat) : (firstBytes b n).getD j 0 = if j < n then blockByte b j else 0 := by
  split
  · simp [firstBytes, List.getD_eq_getElem?_getD, ‹j < n›]
  · exact List.getD_eq_default _ _ (by simpa using ‹¬ j < n›)

/-- The first n bytes of a block, packed again, are the block cut to them. -/
theorem packSequence_firstBytes (b : Block) (n : Nat) : packSequence (firstBytes b n) = trunc b n :=
  block_ext_bytes fun j hj => by rw [blockByte_packSequence _ hj, getD_firstBytes, blockByte_trunc b n j hj]

/-- A block packed from its sixteen bytes and more is that block: the others are not read. -/
theorem packSequence_firstBytes_append (b : Block) (s : List Byte) : packSequence (firstBytes b 16 ++ s) = b :=
  block_ext_bytes fun j hj => by
    rw [blockByte_packSequence _ hj, List.getD_append _ _ _ _ (by simpa using hj), getD_firstBytes, if_pos hj]

/-- A full block's bytes in front of a sequence that is not empty are its first block. -/
theorem pieces_firstBytes_append (b : Block) {s : List Byte} (h : 0 < s.length) :
    pieces (firstBytes b 16 ++ s) = ⟨b, 16, false⟩ :: pieces s := by
  rw [pieces_of_lt_length (by simpa using h), packSequence_firstBytes_append, List.drop_left' (length_firstBytes b 16)]

theorem firstBytes_trunc (b : Block) {n : Nat} (hn : n ≤ 16) : firstBytes (trunc b n) n = firstBytes b n := by
  refine List.map_congr_left fun j hj => ?_
  have hlt : j < n := by simpa using hj
  rw [blockByte_trunc b n j (hlt.trans_le hn), if_pos hlt]

/-! The round trip (42_mode_engine.md R168, R172) -/

/-- The keystream added twice to the valid bytes cancels: what remains is the block cut to them (42_mode_engine.md R168). -/
theorem streamXor_streamXor (p : Params) (b : Block) (n : Nat) (y : Block) :
    streamXor p (streamXor p b n y) n y = trunc b n := by
  rw [streamXor, streamXor, trunc_xor, trunc_trunc, ← trunc_xor, BitVec.xor_assoc, BitVec.xor_self, BitVec.xor_zero]

theorem trunc_streamXor (p : Params) (b : Block) (n : Nat) (y : Block) : trunc (streamXor p b n y) n = streamXor p b n y :=
  trunc_trunc _ n

/-- The ciphertext of a message is as long as the message. -/
theorem length_messagePieces (p : Params) (dc : DomainConstants) (rk : List RoundKey) (dir : Dir) (qs : List Piece) :
    ∀ c, (messagePieces p dc rk dir qs c).1.length = (qs.map Piece.len).sum := by
  induction qs with
  | nil => exact fun c => rfl
  | cons q qs ih => intro c; simp [messagePieces, ih]

/-- Decrypting what an encryption put out gives back the message and leaves the same chain, from any chain. -/
theorem messagePieces_dec_enc (p : Params) (dc : DomainConstants) (rk : List RoundKey) (pt : List Byte) :
    ∀ c, messagePieces p dc rk .dec (pieces (messagePieces p dc rk .enc (pieces pt) c).1) c =
      (pt, (messagePieces p dc rk .enc (pieces pt) c).2) := by
  induction pt using blockwise_induction with
  | short pt hshort =>
    intro c
    have hct : pieces (firstBytes (streamXor p (packSequence pt) pt.length c.y) pt.length) =
        [⟨streamXor p (packSequence pt) pt.length c.y, pt.length, true⟩] := by
      rw [pieces_of_length_le (by simpa using hshort), packSequence_firstBytes, trunc_streamXor, length_firstBytes]
    simp only [pieces_of_length_le hshort, messagePieces, List.append_nil, hct, messagePlain, streamXor_streamXor, pieceMask,
      firstBytes_trunc _ hshort, firstBytes_packSequence pt hshort le_rfl, List.take_length]
  | long pt hlong ih =>
    intro c
    have hrest (c' : Chain) : 0 < (messagePieces p dc rk .enc (pieces (pt.drop 16)) c').1.length := by
      rw [length_messagePieces, (cut_pieces _).2, List.length_drop]
      omega
    simp only [pieces_of_lt_length hlong, messagePieces, pieces_firstBytes_append _ (hrest _), messagePlain, streamXor_streamXor,
      pieceMask, ih, firstBytes_trunc _ le_rfl, firstBytes_packSequence pt le_rfl hlong.le, List.take_append_drop]

/-- Settles O57: the lengths of the pieces add up (`cut_pieces`), and the two directions go through the same chain, so that the final
Y is the tag. -/
theorem modeRoundTrip : Obligations.ModeRoundTrip := by
  unfold Obligations.ModeRoundTrip
  intro p dc key nonce ad pt
  constructor
  · exact (length_messagePieces ..).trans (cut_pieces pt).2
  · simp only [aeadDec, aeadEnc, aeadRun, messagePieces_dec_enc, if_true]

/-! INIT and the associated data (42_mode_engine.md R150, R161, R171) -/

/-- The state after an operation's INIT and AD: the chain is that of the mode's first loop, and phase MSG begins. -/
def afterInitAd (p : Params) (dir : Dir) (key nonce : Block) (ad : List Byte) (s : State) : State :=
  afterAd (absorbPieces p s.cfg.dc (expand p key) (pieces ad) (initialChain p key nonce)) (initAccept p dir nonce key s)

/-! The message of an encryption (42_mode_engine.md R165, R171) -/

/-- A plaintext block cut as R157 asks is answered with its ciphertext. -/
theorem execWith_msgblk_enc (p : Params) {s : State} {q : Piece} (hmsg : s.phase = .msg) (henc : s.dir = .enc)
    (hlen : q.len ≤ 16) (hlast : q.last = true ∨ q.len = 16) (hne : s.first = true ∨ q.len ≠ 0) :
    execWith p (.msgblk q.last q.len q.block) s = .next (complete (streamXor p q.block q.len s.y) q.len
      (msgblkChain p q.last q.len (trunc q.block q.len) s)) := by
  have hnone : firstFailed (argChecks p (.msgblk q.last q.len q.block) s) = none := by
    rw [firstFailed_msgblk hlen hlast hne]
    simp [holdFits, henc]
  exact (execWith_accepted (legal_msgblk hmsg q) hnone).trans (msgblkAccept_enc henc p q.last q.len q.block)

/-- MSG is answered OK throughout with the bytes of the mode's second loop, and leaves phase FIN and that loop's Y. -/
theorem runCommands_msg_enc (p : Params) {first : Bool} {qs : List Piece} (hcut : Cut first qs) :
    ∀ {s : State}, s.phase = .msg → s.dir = .enc → s.first = first →
      ∃ rs u, runCommands p (qs.map fun q => .msgblk q.last q.len q.block) s = (.ok rs, u) ∧
        responseBytes rs = (messagePieces p s.cfg.dc s.rk .enc qs ⟨s.y, s.delta⟩).1 ∧
        u.phase = .fin ∧ u.dir = .enc ∧ u.y = (messagePieces p s.cfg.dc s.rk .enc qs ⟨s.y, s.delta⟩).2.y := by
  induction hcut with
  | @last first q hlast hlen hne =>
    rintro s hmsg henc rfl
    have hx := execWith_msgblk_enc p hmsg henc hlen (.inl hlast) hne
    refine ⟨_, _, runCommands_ok hx (complete_resp ..) rfl rfl, ?_, ?_, henc, rfl⟩
    · simp [responseBytes, messagePieces]
    · simp [phaseAfterMsg, hlast]
  | @more first q qs hlast hlen _ ih =>
    rintro s hmsg henc rfl
    have hx := execWith_msgblk_enc p hmsg henc hlen.le (.inr hlen) (.inr (by omega))
    obtain ⟨rs, u, hrest, hbytes, hend⟩ :=
      ih (s := complete (streamXor p q.block q.len s.y) q.len (msgblkChain p q.last q.len (trunc q.block q.len) s))
        (by simp [phaseAfterMsg, hlast, hmsg]) henc rfl
    refine ⟨_, u, runCommands_ok hx (complete_resp ..) rfl hrest, ?_, hend⟩
    rw [responseBytes, List.flatMap_cons, ← responseBytes, hbytes]
    rfl

/-- GETTAG ends an encryption: it answers Y and wipes the core (43_tag_and_release.md R190). -/
theorem execWith_gettag (p : Params) {s : State} (hfin : s.phase = .fin) (henc : s.dir = .enc) :
    execWith p .gettag s = .next (complete s.y 16 (zeroise p s)) :=
  execWith_accepted (by simp [legal, hfin, henc]) rfl

/-- ENCRYPT returns the bytes its message answered and the tag when all its commands are answered OK (30_encoding.md R82). -/
theorem runEncrypt_ok {p : Params} {key nonce ad pt : List Byte} {s t u v : State} {starts rs tags : List Response}
    (hstart : runCommands p (initCommand .enc key nonce :: adCommands ad) s = (.ok starts, t))
    (hmsg : runCommands p (msgCommands pt) t = (.ok rs, u)) (htag : runCommands p [.gettag] u = (.ok tags, v)) :
    runEncrypt p key nonce ad pt s = (.ok (responseBytes rs, (tags.map Response.dout).headD 0), v) := by
  simp only [runEncrypt, hstart, hmsg, htag]

/-- Settles O54: INIT and AD leave the chain of the mode's first loop (`runCommands_init_ad`), MSG follows its second loop
(`runCommands_msg_enc`), and GETTAG answers its Y. -/
theorem encryptComputesTheMode : Obligations.EncryptComputesTheMode := by
  unfold Obligations.EncryptComputesTheMode
  intro p key nonce ad pt s hp hidle hkey hnonce
  obtain ⟨_, hstart⟩ := runCommands_init_ad .enc ad hp hidle hkey hnonce
  obtain ⟨rs, u, hmsg, hbytes, hfin, henc, hy⟩ := runCommands_msg_enc p (cut_pieces pt).1
    (s := afterInitAd p .enc (packSequence key) (packSequence nonce) ad s) rfl rfl rfl
  have htag := runCommands_ok (rest := []) (execWith_gettag p hfin henc) (complete_resp ..) rfl rfl
  have hct : responseBytes rs = (aeadEnc p s.cfg.dc (packSequence key) (packSequence nonce) ad pt).1 := hbytes
  have hy' : u.y = (aeadEnc p s.cfg.dc (packSequence key) (packSequence nonce) ad pt).2 := hy
  refine ⟨complete u.y 16 (zeroise p u), ?_, ⟨rfl, rfl, rfl, rfl, rfl, rfl, rfl, rfl, rfl⟩⟩
  calc runEncrypt p key nonce ad pt s
      = (.ok (responseBytes rs, u.y), complete u.y 16 (zeroise p u)) := runEncrypt_ok hstart hmsg htag
    _ = _ := by rw [hct, hy']

/-! The plaintext of a decryption in the hold buffer (42_mode_engine.md R165) -/

/-- The recovered plaintext so far: the first HOLDLEN bytes of the buffer (10_state.md R27). -/
def heldPlaintext (s : State) : List Byte := (List.range s.holdlen.toNat).map (Memory.read s.hold)

@[simp] theorem length_heldPlaintext (s : State) : (heldPlaintext s).length = s.holdlen.toNat := by simp [heldPlaintext]

/-- Recovered plaintext is appended to the bytes held, where these are whole blocks and the rest fits. -/
theorem heldPlaintext_holdAppend {n : Nat} {v : Block} {s t : State} (hwf : Memory.wf s.hold = true)
    (hwhole : s.holdlen.toNat % 16 = 0) (hn : n ≤ 16) (hfits : s.holdlen.toNat + n ≤ s.holdBytes)
    (happend : holdAppend n v s = some t) : heldPlaintext t = heldPlaintext s ++ firstBytes v n := by
  have hend : 16 * holdWriteBlock s = s.holdlen.toNat := by unfold holdWriteBlock; omega
  rw [heldPlaintext, holdAppend_holdlen hfits happend, List.range_add, List.map_append, List.map_map, heldPlaintext, firstBytes]
  rcases holdAppend_cases n v s with ⟨rfl, e⟩ | ⟨-, -, e⟩ | ⟨-, -, e⟩ <;> cases e.symm.trans happend
  · rfl
  · have hread := fun a => Memory.read_writeBlock s.hold (holdWriteBlock s) (trunc v n) a hwf
    refine congrArg₂ _ (List.map_congr_left fun j hj => ?_) (List.map_congr_left fun j hj => ?_)
    · have hlt := List.mem_range.1 hj
      rw [hread, if_neg (by omega)]
    · have hlt := List.mem_range.1 hj
      rw [Function.comp_apply, hread, if_pos (by omega), hend, Nat.add_sub_cancel_left, blockByte_trunc v n j (by omega),
        if_pos hlt]

@[simp] theorem heldPlaintext_complete (d : Block) (n : Nat) (s : State) : heldPlaintext (complete d n s) = heldPlaintext s := rfl

@[simp] theorem heldPlaintext_msgblkChain (p : Params) (last : Bool) (len : Nat) (plain : Block) (s : State) :
    heldPlaintext (msgblkChain p last len plain s) = heldPlaintext s := rfl

/-- MSG is answered OK throughout for a ciphertext that fits, appends the bytes of the mode's second loop to the buffer, and leaves
phase FIN and that loop's Y. -/
theorem runCommands_msg_dec (p : Params) {first : Bool} {qs : List Piece} (hcut : Cut first qs) :
    ∀ {s : State}, Inv p s → s.phase = .msg → s.dir = .dec → s.first = first →
      s.holdlen.toNat + (qs.map Piece.len).sum ≤ s.holdBytes →
      ∃ rs u, runCommands p (qs.map fun q => .msgblk q.last q.len q.block) s = (.ok rs, u) ∧
        heldPlaintext u = heldPlaintext s ++ (messagePieces p s.cfg.dc s.rk .dec qs ⟨s.y, s.delta⟩).1 ∧
        Inv p u ∧ u.phase = .fin ∧ u.dir = .dec ∧
        u.y = (messagePieces p s.cfg.dc s.rk .dec qs ⟨s.y, s.delta⟩).2.y := by
  induction hcut with
  | @last first q hlast hlen hne =>
    rintro s hinv hmsg hdec rfl hroom
    have hfits : s.holdlen.toNat + q.len ≤ s.holdBytes := by simpa using hroom
    obtain ⟨u, hu, hx⟩ := execWith_msgblk_held p hmsg hdec hlen (.inl hlast) hne hfits
    have hheld := heldPlaintext_holdAppend (s := msgblkChain p q.last q.len _ s) hinv.holdWf (hinv.msgWhole hmsg) hlen hfits hu
    have hframe := holdAppend_frame hu
    refine ⟨_, _, runCommands_ok hx (complete_resp ..) rfl rfl, ?_, hinv.execWith hx, ?_, (congrArg State.dir hframe).trans hdec,
      congrArg State.y hframe⟩
    · simpa [messagePieces] using hheld
    · rw [complete_phase, holdAppend_phase hu, msgblkChain_phase, hlast]
      rfl
  | @more first q qs hlast hlen _ ih =>
    rintro s hinv hmsg hdec rfl hroom
    rw [List.map_cons, List.sum_cons, ← Nat.add_assoc] at hroom
    have hfits : s.holdlen.toNat + q.len ≤ s.holdBytes := by omega
    obtain ⟨u, hu, hx⟩ := execWith_msgblk_held p hmsg hdec hlen.le (.inr hlen) (.inr (by omega)) hfits
    have hheld := heldPlaintext_holdAppend (s := msgblkChain p q.last q.len _ s) hinv.holdWf (hinv.msgWhole hmsg) hlen.le hfits hu
    have hlen' := holdAppend_holdlen (s := msgblkChain p q.last q.len _ s) hfits hu
    obtain ⟨m, len, rfl⟩ : ∃ m len, u =
        { msgblkChain p q.last q.len (streamXor p q.block q.len s.y) s with hold := m, holdlen := len } :=
      ⟨_, _, holdAppend_frame hu⟩
    obtain ⟨rs, v, hrest, hbytes, hend⟩ := ih (hinv.execWith hx)
      (by simp [phaseAfterMsg, hlast, hmsg]) hdec rfl (hlen' ▸ hroom)
    refine ⟨_, v, runCommands_ok hx (complete_resp ..) rfl hrest, ?_, hend⟩
    rw [hbytes, heldPlaintext_complete, hheld, heldPlaintext_msgblkChain, List.append_assoc]
    rfl

/-! Verification and the reads that follow it (43_tag_and_release.md R193, R196) -/

/-- The response to an RDBUF of a held block. -/
def readResponse (s : State) (idx : Nat) : Response :=
  ⟨.ok, trunc (Memory.readBlock s.hold idx) (heldBytes idx s), heldBytes idx s⟩

/-- In phase REL a read below HOLDLEN is answered with the held bytes. -/
theorem execWith_rdbuf (p : Params) {s : State} {idx : Nat} (hrel : s.phase = .rel) (hidx : 16 * idx < s.holdlen.toNat)
    (hcap : s.holdlen.toNat ≤ s.holdBytes) :
    execWith p (.rdbuf idx) s = .next (complete (readResponse s idx).dout (heldBytes idx s) s) := by
  have hx : execWith p (.rdbuf idx) s = accepted p (.rdbuf idx) s :=
    execWith_accepted (decide_eq_true hrel) (by simp [argChecks, hidx])
  rw [hx, accepted, memRead_inside s idx _ hidx hcap]
  rfl

/-- Reads of held blocks are answered OK throughout: none changes what another answers. -/
theorem runCommands_rdbuf (p : Params) (idxs : List Nat) :
    ∀ {s : State}, s.phase = .rel → s.holdlen.toNat ≤ s.holdBytes → (∀ idx ∈ idxs, 16 * idx < s.holdlen.toNat) →
      ∃ t, runCommands p (idxs.map .rdbuf) s = (.ok (idxs.map (readResponse s)), t) := by
  induction idxs with
  | nil => exact fun _ _ _ => ⟨_, rfl⟩
  | cons idx idxs ih =>
    intro s hrel hcap hbelow
    obtain ⟨hidx, hrest⟩ := List.forall_mem_cons.1 hbelow
    obtain ⟨t, ht⟩ := ih (s := complete (readResponse s idx).dout (heldBytes idx s) s) hrel hcap hrest
    exact ⟨t, runCommands_ok (execWith_rdbuf p hrel hidx hcap) (complete_resp ..) rfl ht⟩

/-- A sequence taken in n blocks of 16, the last one short, is its first 16·n elements. -/
theorem flatMap_range_blocks {α : Type} (f : Nat → α) (len n : Nat) :
    ((List.range n).flatMap fun k => (List.range (min 16 (len - 16 * k))).map fun j => f (16 * k + j)) =
      (List.range (min (16 * n) len)).map f := by
  induction n with
  | zero => simp
  | succ n ih =>
    have hsplit : min (16 * (n + 1)) len = min (16 * n) len + min 16 (len - 16 * n) := by omega
    rw [List.range_succ, List.flatMap_append, ih, List.flatMap_singleton, hsplit, List.range_add, List.map_append, List.map_map]
    refine congrArg _ (List.map_congr_left fun j hj => ?_)
    have hlt := List.mem_range.1 hj
    rw [Function.comp_apply, show min (16 * n) len = 16 * n by omega]

/-- The valid bytes of a read are those of the buffer at its block. -/
theorem firstBytes_readResponse (s : State) (idx : Nat) :
    firstBytes (readResponse s idx).dout (readResponse s idx).dlen =
      (List.range (min 16 (s.holdlen.toNat - 16 * idx))).map fun j => Memory.read s.hold (16 * idx + j) := by
  have hle : heldBytes idx s ≤ 16 := min_le_left _ _
  rw [readResponse, firstBytes_trunc _ hle]
  refine List.map_congr_left fun j hj => ?_
  exact Memory.blockByte_readBlock s.hold idx j ((List.mem_range.1 hj).trans_le hle)

/-- The reads of a decryption return the plaintext held. -/
theorem responseBytes_readCommands (s : State) :
    responseBytes ((List.range (blockCount s.holdlen.toNat)).map (readResponse s)) = heldPlaintext s := by
  have hall : min (16 * blockCount s.holdlen.toNat) s.holdlen.toNat = s.holdlen.toNat := by unfold blockCount; omega
  simp only [responseBytes, List.flatMap_map, firstBytes_readResponse, flatMap_range_blocks, hall, heldPlaintext]

theorem legal_verify {s : State} (hfin : s.phase = .fin) (hdec : s.dir = .dec) (tag : Block) :
    legal (.verify 16 tag) s.phase s.dir = true := by simp [legal, hfin, hdec]

/-- VERIFY of the tag that is Y releases the plaintext. -/
theorem execWith_verify_match (p : Params) {s : State} (hfin : s.phase = .fin) (hdec : s.dir = .dec) :
    execWith p (.verify 16 s.y) s = .next (verifyAccept p s) :=
  execWith_accepted (legal_verify hfin hdec s.y) (by simp [argChecks, tagBytes])

/-- VERIFY of another tag wipes the core. -/
theorem execWith_verify_mismatch (p : Params) {s : State} {tag : Block} (hfin : s.phase = .fin) (hdec : s.dir = .dec)
    (hne : tag ≠ s.y) : execWith p (.verify 16 tag) s = .next (abort p .errAuth s) :=
  execWith_failed (legal_verify hfin hdec tag) (by simp [argChecks, tagBytes, hne])

/-- After a program that runs to its end the next one runs from the state left. -/
theorem runCommands_append_ok {p : Params} {is js : List Instr} {t u : State} {rs' : List Response}
    (hnext : runCommands p js t = (.ok rs', u)) :
    ∀ {s : State} {rs : List Response}, runCommands p is s = (.ok rs, t) →
      ∃ rs'', runCommands p (is ++ js) s = (.ok rs'', u) := by
  induction is with
  | nil =>
    rintro s rs ⟨⟩
    exact ⟨rs', hnext⟩
  | cons i is ih =>
    intro s rs h
    obtain ⟨v, r, _, hx, hresp, hr, hrest⟩ := runCommands_cons h
    obtain ⟨_, hall⟩ := ih hrest
    exact ⟨_, runCommands_ok hx hresp hr hall⟩

/-- DECRYPT returns the bytes its reads answered when all its commands are answered OK (30_encoding.md R82). -/
theorem runDecrypt_ok {p : Params} {key nonce ad ct : List Byte} {tag : Block} {s t u v : State} {starts rs ends : List Response}
    (hstart : runCommands p (initCommand .dec key nonce :: (adCommands ad ++ msgCommands ct ++ [.verify 16 tag])) s =
      (.ok starts, t))
    (hread : runCommands p (readCommands ct.length) t = (.ok rs, u)) (hclear : runCommands p [.clear] u = (.ok ends, v)) :
    runDecrypt p key nonce ad ct tag s = (.ok (responseBytes rs), v) := by
  simp only [runDecrypt, hstart, hread, hclear]

/-- CLEAR wipes the core from any state. -/
theorem runCommands_clear (p : Params) (s : State) :
    ∃ rs t, runCommands p [.clear] s = (.ok rs, t) ∧ Wiped p t :=
  ⟨_, _, rfl, ⟨rfl, rfl, rfl, rfl, rfl, rfl, rfl, rfl⟩⟩

/-- A program that runs to its end keeps the invariant. -/
theorem Inv.runCommands {p : Params} {is : List Instr} {t : State} :
    ∀ {s : State} {rs : List Response}, Inv p s → runCommands p is s = (.ok rs, t) → Inv p t := by
  induction is with
  | nil =>
    rintro s rs h ⟨⟩
    exact h
  | cons i is ih =>
    intro s rs h hrun
    obtain ⟨u, _, _, hx, -, -, hrest⟩ := runCommands_cons hrun
    exact ih (h.execWith hx) hrest

/-- Before VERIFY a decryption of a ciphertext that fits is answered OK throughout, its buffer holds the mode's bytes and Y is the
mode's Y. -/
theorem runCommands_dec_message {p : Params} {key nonce ct : List Byte} {s : State} (ad : List Byte) (hp : p.nonceBytes = 16)
    (hinv : Inv p s) (hidle : s.phase = .idle) (hkey : key.length = 16) (hnonce : nonce.length = 16)
    (hroom : ct.length ≤ s.holdBytes) :
    ∃ rs u, runCommands p (initCommand .dec key nonce :: adCommands ad ++ msgCommands ct) s = (.ok rs, u) ∧
      heldPlaintext u = (aeadRun p s.cfg.dc .dec (packSequence key) (packSequence nonce) ad ct).1 ∧ Inv p u ∧ u.phase = .fin ∧
      u.dir = .dec ∧ u.y = (aeadRun p s.cfg.dc .dec (packSequence key) (packSequence nonce) ad ct).2 := by
  have hempty : s.holdlen = 0 := (hinv.idleWiped hidle).holdlen
  obtain ⟨hcut, hsum⟩ := cut_pieces ct
  obtain ⟨_, hstart⟩ := runCommands_init_ad .dec ad hp hidle hkey hnonce
  obtain ⟨_, u, hmsg, hheld, hend⟩ := runCommands_msg_dec p hcut (hinv.runCommands hstart) rfl rfl rfl
    (show s.holdlen.toNat + ((pieces ct).map Piece.len).sum ≤ s.holdBytes by simpa [hempty, hsum] using hroom)
  obtain ⟨rs, hall⟩ := runCommands_append_ok hmsg hstart
  have hnothing : heldPlaintext (afterInitAd p .dec (packSequence key) (packSequence nonce) ad s) = [] :=
    List.length_eq_zero_iff.1 ((length_heldPlaintext _).trans (congrArg BitVec.toNat hempty))
  exact ⟨rs, u, hall, hheld.trans (by rw [← afterInitAd, hnothing, List.nil_append]; rfl), hend⟩

/-- Settles O55: before VERIFY the buffer holds the mode's bytes and Y is the mode's (`runCommands_dec_message`); VERIFY wipes the
core, or the reads return those bytes and CLEAR wipes it. -/
theorem decryptComputesTheMode : Obligations.DecryptComputesTheMode := by
  unfold Obligations.DecryptComputesTheMode
  intro p key nonce ad ct tag s hp hinv hidle hkey hnonce hroom
  obtain ⟨_, u, hmsg, hheld, hinvu, hfin, hdec, hy⟩ := runCommands_dec_message ad hp hinv hidle hkey hnonce hroom
  rw [aeadDec, ← hy, ← hheld]
  by_cases htag : u.y = tag
  · subst htag
    have hlen : u.holdlen.toNat = ct.length := by
      rw [← length_heldPlaintext, hheld]
      exact (length_messagePieces ..).trans (cut_pieces ct).2
    have hverify := runCommands_ok (rest := []) (execWith_verify_match p hfin hdec) (verifyAccept_resp ..) rfl rfl
    obtain ⟨_, hstart⟩ := runCommands_append_ok hverify hmsg
    obtain ⟨v, hread⟩ := runCommands_rdbuf p (List.range (blockCount ct.length)) (s := verifyAccept p u) rfl hinvu.capacity
      (fun idx hidx => by
        have hlt := List.mem_range.1 hidx
        rw [verifyAccept_holdlen, hlen]
        unfold blockCount at hlt
        omega)
    obtain ⟨_, t, hclear, hwiped⟩ := runCommands_clear p v
    refine ⟨t, hwiped, ?_⟩
    rw [runDecrypt_ok hstart hread hclear, if_pos rfl, ← hlen]
    exact congrArg (fun bytes => (Except.ok bytes, t)) (responseBytes_readCommands (verifyAccept p u))
  · have hverify := runCommands_abort [] (by decide) (execWith_verify_mismatch p hfin hdec (Ne.symm htag))
    refine ⟨abort p .errAuth u, wiped_abort p _ u, ?_⟩
    rw [if_neg htag]
    exact runDecrypt_error (runCommands_append_error hverify hmsg)

/-! What the final Y does not depend on (42_mode_engine.md R173) -/

/-- The states agree on what moves on without the blocks' content: all but Y, HOLD, LASTCODE and the ports. -/
structure SameFlow (s t : State) : Prop where
  phase : t.phase = s.phase
  dir : t.dir = s.dir
  first : t.first = s.first
  delta : t.delta = s.delta
  rk : t.rk = s.rk
  holdlen : t.holdlen = s.holdlen
  cfg : t.cfg = s.cfg

theorem SameFlow.refl (s : State) : SameFlow s s := ⟨rfl, rfl, rfl, rfl, rfl, rfl, rfl⟩

theorem SameFlow.aborted {p : Params} {s s' : State} (h : SameFlow s s') (c : Code) : SameFlow (abort p c s) (abort p c s') :=
  ⟨rfl, rfl, rfl, rfl, rfl, rfl, h.cfg⟩

theorem SameFlow.mask_eq {s s' : State} (h : SameFlow s s') (p : Params) (dom : Domain) (last : Bool) (len : Nat) :
    blockMask p dom last len s' = blockMask p dom last len s := by
  rw [blockMask, blockMask, h.cfg, h.delta]

/-- Two commands with the same checks both abort with one code, or are both accepted. -/
theorem execWith_next_pair {p : Params} {i i' : Instr} {s s' t t' : State}
    (hlegal : legal i' s'.phase s'.dir = legal i s.phase s.dir) (hchecks : argChecks p i' s' = argChecks p i s)
    (hx : execWith p i s = .next t) (hx' : execWith p i' s' = .next t') :
    (∃ c, t = abort p c s ∧ t' = abort p c s') ∨
      (legal i s.phase s.dir = true ∧ accepted p i s = .next t ∧ accepted p i' s' = .next t') := by
  rw [execWith_eq_guarded] at hx hx'
  rw [hlegal, hchecks] at hx'
  rcases guarded_cases hx with ⟨c, hf, e⟩ | ⟨hf, e⟩ <;> rcases guarded_cases hx' with ⟨c', hf', e'⟩ | ⟨hf', e'⟩
  · cases hf.symm.trans hf'
    cases e; cases e'
    exact .inl ⟨c, rfl, rfl⟩
  · cases hf.symm.trans hf'
  · cases hf.symm.trans hf'
  · exact .inr ⟨(firstFailed_none_iff _).1 hf (_, .errSeq) List.mem_cons_self, e.symm, e'.symm⟩

/-- The chain an accepted MSGBLK leaves, in either direction, is that of `msgblkChain` from the plaintext; HOLDLEN grows by what is
held back (42_mode_engine.md R165). -/
theorem msgblkAccept_next {p : Params} {last : Bool} {len : Nat} {din : Block} {s t : State}
    (h : msgblkAccept p last len din s = .next t) :
    ∃ hold code resp, t = { msgblkChain p last len (messagePlain p s.dir din len s.y) s with
      hold := hold
      holdlen := if s.dir = .dec then s.holdlen + BitVec.ofNat 32 len else s.holdlen
      lastcode := code
      resp := resp } := by
  rcases dir_cases s.dir with hdir | hdir
  · cases (msgblkAccept_enc hdir p last len din).symm.trans h
    rw [hdir]
    exact ⟨_, _, _, rfl⟩
  · have hdec := (msgblkAccept_dec hdir p last len din).symm.trans h
    rw [hdir]
    rcases holdAppend_cases len (streamXor p din len s.y) (msgblkChain p last len (streamXor p din len s.y) s) with
      ⟨rfl, e⟩ | ⟨-, -, e⟩ | ⟨-, -, e⟩ <;> rw [e] at hdec <;> cases hdec
    · exact ⟨s.hold, _, _, by rw [if_pos rfl, BitVec.ofNat_eq_ofNat, BitVec.add_zero]; rfl⟩
    · exact ⟨_, _, _, rfl⟩

/-- The command that presents a block: ADBLK for associated data, MSGBLK for the message (30_encoding.md R82). -/
def blockCommand : Domain → Piece → Instr
  | .ad, q => .adblk q.last q.len q.block
  | .msg, q => .msgblk q.last q.len q.block

/-- Accepted blocks of one length and flag move both states on alike, whatever their content. -/
theorem SameFlow.afterAccepted {p : Params} {dom : Domain} {q q' : Piece} {s s' t t' : State} (h : SameFlow s s')
    (hlen : q'.len = q.len) (hlast : q'.last = q.last) (ht : accepted p (blockCommand dom q) s = .next t)
    (ht' : accepted p (blockCommand dom q') s' = .next t') :
    SameFlow t t' := by
  cases dom with
  | ad =>
    cases ht; cases ht'
    exact ⟨by simp [hlast, h.phase], h.dir, hlast, by simp [hlast, hlen, h.mask_eq], h.rk, h.holdlen, h.cfg⟩
  | msg =>
    obtain ⟨_, _, _, rfl⟩ := msgblkAccept_next ht
    obtain ⟨_, _, _, rfl⟩ := msgblkAccept_next ht'
    exact ⟨by simp [hlast, h.phase], h.dir, rfl, by simp [hlast, hlen, h.mask_eq], h.rk, by simp [h.dir, h.holdlen, hlen], h.cfg⟩

/-- The checks of a block command do not read its content: two of one length and flag abort alike, or are both accepted. -/
theorem SameFlow.block_cases {p : Params} {dom : Domain} {q q' : Piece} {s s' t t' : State} (h : SameFlow s s')
    (hlen : q'.len = q.len) (hlast : q'.last = q.last) (hx : execWith p (blockCommand dom q) s = .next t)
    (hx' : execWith p (blockCommand dom q') s' = .next t') :
    (∃ c, t = abort p c s ∧ t' = abort p c s') ∨
      (legal (blockCommand dom q) s.phase s.dir = true ∧ accepted p (blockCommand dom q) s = .next t ∧
        accepted p (blockCommand dom q') s' = .next t') := by
  have hbytes : s'.holdBytes = s.holdBytes := by rw [State.holdBytes, State.holdBlocks, h.cfg]; rfl
  refine execWith_next_pair ?_ ?_ hx hx' <;> cases dom
  · simp [blockCommand, legal, h.phase]
  · simp [blockCommand, legal, h.phase]
  · simp [blockCommand, argChecks, h.first, hlast, hlen]
  · simp [blockCommand, argChecks, holdFits, h.first, hlast, hlen, h.dir, h.holdlen, hbytes]

theorem SameFlow.block {p : Params} {dom : Domain} {q q' : Piece} {s s' t t' : State} (h : SameFlow s s')
    (hlen : q'.len = q.len) (hlast : q'.last = q.last) (hx : execWith p (blockCommand dom q) s = .next t)
    (hx' : execWith p (blockCommand dom q') s' = .next t') : SameFlow t t' := by
  rcases h.block_cases hlen hlast hx hx' with ⟨c, rfl, rfl⟩ | ⟨-, ht, ht'⟩
  · exact h.aborted c
  · exact h.afterAccepted hlen hlast ht ht'

/-- The block that drives the chain: associated data as it stands, the message as plaintext (42_mode_engine.md R161, R165). -/
def chainBlock (p : Params) (dom : Domain) (q : Piece) (s : State) : Block :=
  match dom with
  | .ad => q.block
  | .msg => messagePlain p s.dir q.block q.len s.y

/-- The chaining value an accepted block leaves (42_mode_engine.md R161, R165). -/
theorem accepted_block_y {p : Params} {dom : Domain} {q : Piece} {s t : State}
    (h : accepted p (blockCommand dom q) s = .next t) :
    t.y = nextY p s.rk (chainBlock p dom q s) q.len s.y (blockMask p dom q.last q.len s) := by
  cases dom with
  | ad => cases h; rfl
  | msg => obtain ⟨_, _, _, rfl⟩ := msgblkAccept_next h; rfl

/-- The same block keeps equal chaining values equal. -/
theorem SameFlow.same_block_y {p : Params} {dom : Domain} {q : Piece} {s s' t t' : State} (h : SameFlow s s') (hy : s'.y = s.y)
    (hx : execWith p (blockCommand dom q) s = .next t) (hx' : execWith p (blockCommand dom q) s' = .next t') : t'.y = t.y := by
  rcases h.block_cases rfl rfl hx hx' with ⟨c, rfl, rfl⟩ | ⟨-, ht, ht'⟩
  · rfl
  · have hblock : chainBlock p dom q s' = chainBlock p dom q s := by
      simp only [chainBlock, h.dir, hy]
    rw [accepted_block_y ht, accepted_block_y ht', hblock, h.rk, hy, h.mask_eq]

/-- With the keystream G(Y), a full block that is decrypted enters the cipher as it is, and Y cancels (42_mode_engine.md R166). -/
theorem nextY_streamXor_full {p : Params} (hkstr : p.kstr = p.g) (rk : List RoundKey) (b y mask : Block) :
    nextY p rk (streamXor p b 16 y) 16 y mask = cipherE p rk (b ^^^ mask) := by
  rw [nextY, cipherInput, streamXor, trunc_full, pad, if_neg (by decide), hkstr, BitVec.xor_assoc b, BitVec.xor_self,
    BitVec.xor_zero]

/-- A decryption is under way, or the core is idle. -/
def DecryptingOrIdle (s : State) : Prop := s.phase ≠ .idle → s.dir = .dec

/-- A block command is legal in its own phase alone. -/
theorem not_idle_of_legal_block {dom : Domain} {q : Piece} {s : State} (h : legal (blockCommand dom q) s.phase s.dir = true) :
    s.phase ≠ .idle := by
  intro hidle
  rw [hidle] at h
  cases dom <;> cases h

/-- A block command leaves the direction, or ends in phase IDLE. -/
theorem DecryptingOrIdle.block {p : Params} {dom : Domain} {q : Piece} {s t : State} (h : DecryptingOrIdle s)
    (hx : execWith p (blockCommand dom q) s = .next t) : DecryptingOrIdle t := by
  rcases (SameFlow.refl s).block_cases rfl rfl hx hx with ⟨c, rfl, -⟩ | ⟨hlegal, ht, -⟩
  · exact fun hne => absurd rfl hne
  · intro _
    have hdec := h (not_idle_of_legal_block hlegal)
    cases dom with
    | ad => cases ht; exact hdec
    | msg => obtain ⟨_, _, _, rfl⟩ := msgblkAccept_next ht; exact hdec

/-- After a full ciphertext block the chaining values are equal, whatever they were before (42_mode_engine.md R173). -/
theorem SameFlow.full_block_y {p : Params} (hkstr : p.kstr = p.g) {q : Piece} {s s' t t' : State} (h : SameFlow s s')
    (hdec : DecryptingOrIdle s) (hfull : q.len = 16) (hx : execWith p (blockCommand .msg q) s = .next t)
    (hx' : execWith p (blockCommand .msg q) s' = .next t') : t'.y = t.y := by
  rcases h.block_cases rfl rfl hx hx' with ⟨c, rfl, rfl⟩ | ⟨hlegal, ht, ht'⟩
  · rfl
  · have hdir := hdec (not_idle_of_legal_block hlegal)
    rw [accepted_block_y ht, accepted_block_y ht', h.rk, h.mask_eq]
    simp only [chainBlock, messagePlain, h.dir, hdir, hfull, nextY_streamXor_full hkstr]

/-! Runs of block commands -/

/-- A run in two parts. -/
theorem execAll_append {is js : List Instr} {t : State} :
    ∀ {s : State}, execAll (is ++ js) s = some t → ∃ u, execAll is s = some u ∧ execAll js u = some t := by
  induction is with
  | nil => exact fun h => ⟨_, rfl, h⟩
  | cons i is ih =>
    intro s h
    obtain ⟨u, hx, hrest⟩ := execAll_cons h
    obtain ⟨v, his, hjs⟩ := ih hrest
    exact ⟨v, by simp only [execAll, hx, his], hjs⟩

/-- Blocks of the same lengths and flags, whatever their content, move both states on alike, and keep to direction DEC. -/
theorem SameFlow.blocks {dom : Domain} {qs : List Piece} {t t' : State} :
    ∀ {qs' : List Piece} {s s' : State}, SameFlow s s' → DecryptingOrIdle s →
      qs.map (fun e => (e.len, e.last)) = qs'.map (fun e => (e.len, e.last)) → execAll (qs.map (blockCommand dom)) s = some t →
      execAll (qs'.map (blockCommand dom)) s' = some t' → SameFlow t t' ∧ DecryptingOrIdle t := by
  induction qs with
  | nil =>
    intro qs' s s' h hdec hshape hrun hrun'
    obtain rfl : qs' = [] := by simpa using hshape.symm
    cases hrun; cases hrun'
    exact ⟨h, hdec⟩
  | cons q qs ih =>
    intro qs' s s' h hdec hshape hrun hrun'
    obtain ⟨q', qs', rfl⟩ : ∃ q' qs'', qs' = q' :: qs'' := List.exists_cons_of_ne_nil (by rintro rfl; simp at hshape)
    simp only [List.map_cons, List.cons.injEq, Prod.mk.injEq] at hshape
    obtain ⟨⟨hlen, hlast⟩, hshape⟩ := hshape
    obtain ⟨u, hx, hrest⟩ := execAll_cons hrun
    obtain ⟨u', hx', hrest'⟩ := execAll_cons hrun'
    rw [exec_eq_execWith] at hx hx'
    exact ih (h.block hlen.symm hlast.symm hx hx') (hdec.block hx) hshape hrest hrest'

/-- The same blocks from equal chaining values leave equal chaining values. -/
theorem SameFlow.same_blocks {dom : Domain} {qs : List Piece} {t t' : State} :
    ∀ {s s' : State}, SameFlow s s' → s'.y = s.y → execAll (qs.map (blockCommand dom)) s = some t →
      execAll (qs.map (blockCommand dom)) s' = some t' → SameFlow t t' ∧ t'.y = t.y := by
  induction qs with
  | nil =>
    intro s s' h hy hrun hrun'
    cases hrun; cases hrun'
    exact ⟨h, hy⟩
  | cons q qs ih =>
    intro s s' h hy hrun hrun'
    obtain ⟨u, hx, hrest⟩ := execAll_cons hrun
    obtain ⟨u', hx', hrest'⟩ := execAll_cons hrun'
    rw [exec_eq_execWith] at hx hx'
    exact ih (h.block rfl rfl hx hx') (h.same_block_y hy hx hx') hrest hrest'

/-- Settles O52: blocks of the same shape leave states that agree but for Y and HOLD, the full block makes Y agree too, and the blocks
after it keep it so. -/
theorem tagIgnoresEarlierContent : Obligations.TagIgnoresEarlierContent := by
  unfold Obligations.TagIgnoresEarlierContent
  intro ads ads' before before' after q s t t' hdec _ hfull hads hbefore hrun hrun' hfin
  rw [List.map_append, List.map_cons] at hrun hrun'
  obtain ⟨u, had, hrun⟩ := execAll_append hrun
  obtain ⟨u', had', hrun'⟩ := execAll_append hrun'
  obtain ⟨v, hmsg, hrun⟩ := execAll_append hrun
  obtain ⟨v', hmsg', hrun'⟩ := execAll_append hrun'
  obtain ⟨w, hx, hafter⟩ := execAll_cons hrun
  obtain ⟨w', hx', hafter'⟩ := execAll_cons hrun'
  rw [exec_eq_execWith] at hx hx'
  obtain ⟨hu, hdecu⟩ := SameFlow.blocks (dom := .ad) (.refl s) (fun _ => hdec) hads had had'
  obtain ⟨hv, hdecv⟩ := SameFlow.blocks (dom := .msg) hu hdecu hbefore hmsg hmsg'
  have hy : w'.y = w.y := hv.full_block_y rfl hdecv hfull hx hx'
  obtain ⟨ht, hty⟩ := SameFlow.same_blocks (dom := .msg) (hv.block (dom := .msg) rfl rfl hx hx') hy hafter hafter'
  exact ⟨ht.phase.trans hfin, hty, ht.delta⟩

/-! One message block in either direction (42_mode_engine.md R166, R168) -/

/-- With the keystream G(Y), a full plaintext block enters the cipher as its ciphertext block, and Y cancels (42_mode_engine.md
R166). -/
theorem nextY_full {p : Params} (hkstr : p.kstr = p.g) (rk : List RoundKey) (b y mask : Block) :
    nextY p rk b 16 y mask = cipherE p rk (streamXor p b 16 y ^^^ mask) := by
  rw [nextY, cipherInput, streamXor, trunc_full, pad, if_neg (by decide), hkstr]

/-- A command answered OK passed its checks. -/
theorem accepted_of_ok {p : Params} {i : Instr} {s t : State} (h : execWith p i s = .next t) (hok : responseCode t = some .ok) :
    accepted p i s = .next t := by
  rw [execWith_eq_guarded] at h
  rcases guarded_cases h with ⟨c, hf, e⟩ | ⟨-, e⟩
  · cases e
    have hc : c ≠ .ok := by
      rintro rfl
      have hmem := firstFailed_some_mem hf
      cases i <;> simp [argChecks, lengthChecks] at hmem
    exact absurd hok (responseCode_abort_ne_ok hc)
  · exact e.symm

/-- An accepted block of an encryption answers its ciphertext. -/
theorem msgblkAccept_enc_resp {p : Params} {last : Bool} {n : Nat} {din : Block} {s t : State} (henc : s.dir = .enc)
    (h : msgblkAccept p last n din s = .next t) : t.resp = some ⟨.ok, streamXor p din n s.y, n⟩ := by
  cases (msgblkAccept_enc henc p last n din).symm.trans h
  rfl

/-- Settles O50: the block recovered from the ciphertext answered is the plaintext cut to its length (`streamXor_streamXor`), and the
chain takes it in either direction. -/
theorem directionsTraceTheSamePath : Obligations.DirectionsTraceTheSamePath := by
  unfold Obligations.DirectionsTraceTheSamePath
  intro last n plain r s s' t t' henc hdec hphase _ hy hdelta hrk hcfg hx hresp hr hx' hok'
  rw [exec_eq_execWith] at hx hx'
  have hacc := accepted_of_ok hx (by rw [responseCode, hresp, Option.map_some, hr])
  have hacc' := accepted_of_ok hx' hok'
  obtain rfl : _ = r := Option.some.inj ((msgblkAccept_enc_resp henc hacc).symm.trans hresp)
  obtain ⟨_, _, _, rfl⟩ := msgblkAccept_next hacc
  obtain ⟨_, _, _, rfl⟩ := msgblkAccept_next hacc'
  have hmask : blockMask coreParams .msg last n s' = blockMask coreParams .msg last n s := by
    rw [blockMask, blockMask, hcfg, hdelta]
  have hplain : messagePlain coreParams s'.dir (streamXor coreParams plain n s.y) n s.y =
      messagePlain coreParams s.dir plain n s.y := by
    simp only [messagePlain, hdec, henc, streamXor_streamXor]
  simp only [msgblkChain_y, msgblkChain_delta, msgblkChain_first, msgblkChain_phase, hplain, hmask, hrk, hy, hphase, and_self]

/-- Settles O51: in either direction a full block enters the cipher as its ciphertext block (`nextY_full`,
`nextY_streamXor_full`). -/
theorem fullBlockForgetsTheChainingValue : Obligations.FullBlockForgetsTheChainingValue := by
  unfold Obligations.FullBlockForgetsTheChainingValue
  intro last din s t hx hok
  rw [exec_eq_execWith] at hx
  have hacc := accepted_of_ok hx hok
  refine ⟨fun hdec => ?_, fun henc => ⟨_, msgblkAccept_enc_resp henc hacc, ?_⟩⟩
  · obtain ⟨_, _, _, rfl⟩ := msgblkAccept_next hacc
    simp only [msgblkChain_y, msgblkChain_delta, messagePlain, hdec]
    exact nextY_streamXor_full rfl ..
  · obtain ⟨_, _, _, rfl⟩ := msgblkAccept_next hacc
    simp only [msgblkChain_y, msgblkChain_delta, messagePlain, henc, trunc_full]
    exact nextY_full rfl ..

/-! The block-cipher calls of an operation (42_mode_engine.md R169) -/

/-- A sequence has ⌈L/16⌉ blocks, an empty one has one (20_memory.md R51). -/
theorem length_pieces (s : List Byte) : (pieces s).length = max 1 ((s.length + 15) / 16) := by
  unfold pieces
  split_ifs with h
  · simp [h]
  · rw [List.length_map, List.length_range, blockCount]
    omega

/-- Settles O58: each block command is listed with one call, and so is INIT. -/
theorem cipherCallCount : Obligations.CipherCallCount := by
  unfold Obligations.CipherCallCount
  intro key nonce ad pt
  have had : ((adCommands ad).map cipherCalls).sum = (pieces ad).length := by
    simp [adCommands, Function.comp_def, cipherCalls]
  have hpt : ((msgCommands pt).map cipherCalls).sum = (pieces pt).length := by
    simp [msgCommands, Function.comp_def, cipherCalls]
  rw [List.map_cons, List.sum_cons, List.map_append, List.sum_append, List.map_append, List.sum_append, had, hpt, length_pieces,
    length_pieces, ← Nat.add_assoc, ← Nat.add_assoc]
  rfl

/-! trunc and pad (42_mode_engine.md R156) -/

/-- Byte j of an or. -/
theorem blockByte_or (a b : Block) (j : Nat) : blockByte (a ||| b) j = blockByte a j ||| blockByte b j :=
  BitVec.extractLsb'_or

/-- The marker at byte n of a block of zeros. -/
theorem blockByte_marker (m : Byte) {n j : Nat} (hn : n < 16) (hj : j < 16) :
    blockByte (m.setWidth 128 <<< (8 * (15 - n))) j = if j = n then m else 0 := by
  apply BitVec.eq_of_getLsbD_eq
  intro k hk
  rw [getLsbD_blockByte, BitVec.getLsbD_shiftLeft, BitVec.getLsbD_setWidth]
  obtain hlt | rfl | hgt := Nat.lt_trichotomy j n
  · have hhigh : m.getLsbD (120 - 8 * j + k - 8 * (15 - n)) = false := BitVec.getLsbD_of_ge m _ (by omega)
    rw [if_neg (by omega), hhigh]
    simp
  · have hbit : 120 - 8 * j + k - 8 * (15 - j) = k := by omega
    have hpos : ¬ 120 - 8 * j + k < 8 * (15 - j) := by omega
    have hin : 120 - 8 * j + k < 128 := by omega
    have hk' : k < 128 := by omega
    simp [hbit, hpos, hin, hk, hk']
  · have hlow : 120 - 8 * j + k < 8 * (15 - n) := by omega
    rw [if_neg (by omega)]
    simp [hlow]

/-- Byte j of a padded block. -/
theorem blockByte_pad (p : Params) (b : Block) {n j : Nat} (hn : n ≤ 16) (hj : j < 16) :
    blockByte (pad p b n) j = if j < n then blockByte b j else if j = n then p.padMark else 0 := by
  obtain hlt | rfl : n < 16 ∨ n = 16 := by omega
  · rw [pad, if_pos hlt, blockByte_or, blockByte_trunc b n j hj, blockByte_marker _ hlt hj]
    obtain h | rfl | h := Nat.lt_trichotomy j n
    · rw [if_pos h, if_neg h.ne, if_pos h]
      exact BitVec.or_zero
    · simp
    · simp only [if_neg h.not_gt, if_neg h.ne']
      exact BitVec.or_zero
  · rw [pad, if_neg (by decide), if_pos hj]

/-- Settles O21: `blockByte_trunc` and `blockByte_pad`. -/
theorem truncAndPadByBytes : Obligations.TruncAndPadByBytes := by
  unfold Obligations.TruncAndPadByBytes
  exact fun b n j hn hj => ⟨blockByte_trunc b n j hj, blockByte_pad coreParams b hn hj⟩

/-! Doubling (42_mode_engine.md R158) -/

/-- The bits of the reduction constant. -/
theorem getLsbD_dblPoly {k : Nat} (hk : k < 128) :
    coreParams.dblPoly.getLsbD k = decide (k = 0 ∨ k = 1 ∨ k = 2 ∨ k = 7) := by
  revert k
  decide

/-- Bit k of a doubled block. -/
theorem getLsbD_dbl (d : Block) {k : Nat} (hk : k < 128) :
    (dbl coreParams d).getLsbD k =
      ((decide (k ≠ 0) && d.getLsbD (k - 1)) ^^ (d.getLsbD 127 && decide (k = 0 ∨ k = 1 ∨ k = 2 ∨ k = 7))) := by
  have hreduce : (if d.getLsbD 127 then coreParams.dblPoly else 0).getLsbD k =
      (d.getLsbD 127 && decide (k = 0 ∨ k = 1 ∨ k = 2 ∨ k = 7)) := by
    rw [← getLsbD_dblPoly hk]
    cases d.getLsbD 127 <;> simp
  have hshift : (d <<< 1).getLsbD k = (decide (k ≠ 0) && d.getLsbD (k - 1)) := by
    rw [BitVec.getLsbD_shiftLeft]
    simp [hk]
  rw [dbl, BitVec.getLsbD_xor, hshift, hreduce]

/-- Doubling is linear for any reduction constant. -/
theorem dbl_xor (p : Params) (a b : Block) : dbl p (a ^^^ b) = dbl p a ^^^ dbl p b := by
  have hshift : (a ^^^ b) <<< 1 = a <<< 1 ^^^ b <<< 1 := BitVec.shiftLeft_xor_distrib a b 1
  have hreduce : (if (a ^^^ b).getLsbD 127 then p.dblPoly else 0) =
      (if a.getLsbD 127 then p.dblPoly else 0) ^^^ (if b.getLsbD 127 then p.dblPoly else 0) := by
    rw [BitVec.getLsbD_xor]
    cases a.getLsbD 127 <;> cases b.getLsbD 127 <;> simp
  rw [dbl, dbl, dbl, hshift, hreduce]
  ac_rfl

/-- Bit 0 of the double tells the bit shifted out, and the others then tell the rest. -/
theorem dbl_injective : Function.Injective (dbl coreParams) := by
  intro a b h
  have hbit {k : Nat} (hk : k < 128) := (getLsbD_dbl a hk).symm.trans ((congrArg (BitVec.getLsbD · k) h).trans (getLsbD_dbl b hk))
  have htop : a.getLsbD 127 = b.getLsbD 127 := by simpa using hbit (k := 0) (by decide)
  refine block_ext fun i hi => ?_
  obtain hlt | rfl : i < 127 ∨ i = 127 := by omega
  · have hnext := hbit (k := i + 1) (by omega)
    rw [htop, Bool.xor_left_inj] at hnext
    simpa using hnext
  · exact htop

/-- Settles O22: the bits are `getLsbD_dbl`; an injective map of the finitely many blocks is onto. -/
theorem doublingInTheField : Obligations.DoublingInTheField := by
  unfold Obligations.DoublingInTheField
  exact ⟨fun d _ hk => getLsbD_dbl d hk, dbl_xor coreParams, bijective_of_injective_on_blocks dbl_injective, by decide⟩

/-! The combining function (42_mode_engine.md R159) -/

theorem rotateLeft_xor {w : Nat} (x y : BitVec w) (r : Nat) :
    (x ^^^ y).rotateLeft r = x.rotateLeft r ^^^ y.rotateLeft r := by
  apply BitVec.eq_of_getLsbD_eq
  intro i hi
  rw [BitVec.getLsbD_xor]
  simp only [BitVec.getLsbD_rotateLeft, BitVec.getLsbD_xor]
  cases decide (i < r % w) <;> simp [hi]

/-- A rotation moves every bit and loses none. -/
theorem rotateLeft_injective {w : Nat} (r : Nat) : Function.Injective fun x : BitVec w => x.rotateLeft r := by
  intro x y h
  have hbit := fun i => congrArg (BitVec.getLsbD · i) h
  simp only [BitVec.getLsbD_rotateLeft] at hbit
  apply BitVec.eq_of_getLsbD_eq
  intro i hi
  have hr : r % w < w := Nat.mod_lt r (by omega)
  obtain hlow | hhigh := Nat.lt_or_ge (i + r % w) w
  · have hmoved := hbit (i + r % w)
    simpa [hlow] using hmoved
  · have hmoved := hbit (i + r % w - w)
    have hwrap : i + r % w - w < r % w := by omega
    have hback : w - r % w + (i + r % w - w) = i := by omega
    simpa [hwrap, hback] using hmoved

/-- Two blocks are equal when their halves are. -/
theorem block_ext_halves {a b : Block} (hhigh : a.extractLsb' 64 64 = b.extractLsb' 64 64)
    (hlow : a.extractLsb' 0 64 = b.extractLsb' 0 64) : a = b := by
  have halves (y : Block) : y = y.extractLsb' 64 64 ++ y.extractLsb' 0 64 := by
    rw [BitVec.extractLsb'_append_extractLsb'_eq_extractLsb' (by decide)]
    simp
  rw [halves a, halves b, hhigh, hlow]

theorem combine_append (y1 y2 : BitVec 64) : combine (y1 ++ y2) = y2 ++ y1.rotateLeft 1 := by
  rw [combine, BitVec.extractLsb'_append_eq_right, BitVec.extractLsb'_append_eq_left]

theorem combine_xor (a b : Block) : combine (a ^^^ b) = combine a ^^^ combine b := by
  simp only [combine, BitVec.extractLsb'_xor, rotateLeft_xor]
  exact BitVec.xor_append.symm

theorem combine_injective : Function.Injective combine := by
  intro a b h
  have hlow := congrArg (BitVec.extractLsb' 64 64) h
  have hhigh := congrArg (BitVec.extractLsb' 0 64) h
  simp only [combine, BitVec.extractLsb'_append_eq_left, BitVec.extractLsb'_append_eq_right] at hlow hhigh
  exact block_ext_halves (rotateLeft_injective 1 hhigh) hlow

/-- Settles O23: the upper half is rotated, which is linear and loses no bit. -/
theorem combineIsALinearBijection : Obligations.CombineIsALinearBijection := by
  unfold Obligations.CombineIsALinearBijection
  exact ⟨fun y1 y2 => combine_append y1 y2, combine_xor, bijective_of_injective_on_blocks combine_injective, by decide⟩

/-! The domain constants (42_mode_engine.md R160) -/

/-- One mask before the block and different constants give different masks. -/
theorem nextMask_injective_const (p : Params) (d : Block) : Function.Injective fun c : Byte => nextMask p c d := by
  intro c c' h
  have hwide : c.setWidth 128 = c'.setWidth 128 := (BitVec.xor_right_inj _).1 h
  simpa using congrArg (BitVec.setWidth 8) hwide

/-- Settles O24: the constant is told by the mask (`nextMask_injective_const`), and the phase and the kind by the constant. -/
theorem domainConstantsSeparateMasks : Obligations.DomainConstantsSeparateMasks := by
  unfold Obligations.DomainConstantsSeparateMasks
  exact fun dc d dom dom' kind kind' hdistinct h => hdistinct dom kind dom' kind' (nextMask_injective_const coreParams d h)

/-! The words of INIT, ADBLK and MSGBLK as numbers (42_mode_engine.md R150, R161, R165) -/

/-- A word of the layout by the weights of its fields (30_encoding.md R72). -/
theorem commandWord_eq_ofNat (o : Byte) (d : Dir) (l : Bool) (a : BitVec 16) :
    commandWord o d l a = BitVec.ofNat 32 (o.toNat * 2 ^ 24 + (dirBit d).toNat * 2 ^ 17 + l.toNat * 2 ^ 16 + a.toNat) := by
  rw [← toNat_commandWord, BitVec.ofNat_toNat, BitVec.setWidth_eq]

theorem decode_initWord (dir : Dir) {klen nlen : Nat} (hk : fitsByteField klen) (hn : fitsByteField nlen) (din kin : Block) :
    decode ⟨BitVec.ofNat 32 (0x02000000 + (dirBit dir).toNat * 2 ^ 17 + klen * 256 + nlen), din, kin⟩ =
      some (.init dir klen nlen din kin) := by
  have hword : commandWord 0x02#8 dir false (argPair klen nlen) =
      BitVec.ofNat 32 (0x02000000 + (dirBit dir).toNat * 2 ^ 17 + klen * 256 + nlen) := by
    rw [commandWord_eq_ofNat, toNat_argPair hk hn]
    refine congrArg (BitVec.ofNat 32) ?_
    simp only [BitVec.toNat_ofNat, Bool.toNat_false]
    omega
  rw [← hword]
  exact decode_encode (i := .init dir klen nlen din kin) (by simp [Instr.WellFormed, Instr.wf, hk, hn])

/-- The word of a block command, a number by the weights of its fields, decodes to it whatever stands on KIN. -/
theorem decode_blockWord {i : Instr} {o : Byte} {last : Bool} {n : Nat} {din : Block} (kin : Block) (hn : fitsArgField n)
    (hi : i.WellFormed) (henc : encode i = ⟨commandWord o .enc last (BitVec.ofNat 16 n), din, 0⟩) (hencblk : o ≠ 0x01#8)
    (hinit : o ≠ 0x02#8) : decode ⟨BitVec.ofNat 32 (o.toNat * 2 ^ 24 + last.toNat * 2 ^ 16 + n), din, kin⟩ = some i := by
  have hword : BitVec.ofNat 32 (o.toNat * 2 ^ 24 + last.toNat * 2 ^ 16 + n) =
      commandWord o .enc last (BitVec.ofNat 16 n) := by
    rw [commandWord_eq_ofNat, toNat_argCount hn, dirBit, BitVec.toNat_ofNat, Nat.zero_mod, Nat.zero_mul, Nat.add_zero]
  have hopc := Laws.commandWord_opcode o .enc last (BitVec.ofNat 16 n)
  calc decode ⟨BitVec.ofNat 32 (o.toNat * 2 ^ 24 + last.toNat * 2 ^ 16 + n), din, kin⟩
      = decode ⟨commandWord o .enc last (BitVec.ofNat 16 n), din, kin⟩ := by rw [hword]
    _ = decode ⟨commandWord o .enc last (BitVec.ofNat 16 n), din, 0⟩ :=
        decode_ignores_kin din kin 0 (by rwa [hopc]) (by rwa [hopc])
    _ = some i := by rw [← henc, decode_encode hi]

theorem decode_adblkWord (last : Bool) {n : Nat} (hn : fitsArgField n) (din kin : Block) :
    decode ⟨BitVec.ofNat 32 (0x03000000 + last.toNat * 2 ^ 16 + n), din, kin⟩ = some (.adblk last n din) :=
  decode_blockWord (o := 0x03#8) kin hn (decide_eq_true hn) rfl (by decide) (by decide)

theorem decode_msgblkWord (last : Bool) {n : Nat} (hn : fitsArgField n) (din kin : Block) :
    decode ⟨BitVec.ofNat 32 (0x04000000 + last.toNat * 2 ^ 16 + n), din, kin⟩ = some (.msgblk last n din) :=
  decode_blockWord (o := 0x04#8) kin hn (decide_eq_true hn) rfl (by decide) (by decide)

/-! The kind of a block and its length checks (42_mode_engine.md R157) -/

theorem blockKind_eq (last : Bool) (n : Nat) :
    blockKind last n = if n = 0 then .empty else if n = 16 ∧ last = false then .notLast else
      if n = 16 ∧ last = true then .lastFull else .lastPart := by
  unfold blockKind
  by_cases hn : n = 16 <;> cases last <;> simp [hn]

theorem lengthChecks_some {first last : Bool} {n : Nat}
    (hbad : n > 16 ∨ (last = false ∧ n ≠ 16) ∨ (n = 0 ∧ first = false)) :
    firstFailed (lengthChecks first last n) = some .errLen := by
  have hfails : firstFailed (lengthChecks first last n) ≠ none := by
    rw [Ne, lengthChecks_none]
    rintro ⟨hle, hlast, hne⟩
    rcases hbad with h | ⟨rfl, h⟩ | ⟨rfl, rfl⟩
    · omega
    · simp [h] at hlast
    · simp at hne
  obtain ⟨c, hc⟩ := Option.ne_none_iff_exists'.1 hfails
  have hcodes : ∀ e ∈ lengthChecks first last n, e.2 = .errLen := by simp [lengthChecks]
  rw [hc, ← hcodes _ (firstFailed_some_mem hc)]

/-- A failed check decides before those after it. -/
theorem firstFailed_append_some {checks : List (Bool × Code)} {c : Code} (later : List (Bool × Code))
    (h : firstFailed checks = some c) : firstFailed (checks ++ later) = some c := by
  induction checks with
  | nil => simp at h
  | cons check checks ih =>
    obtain ⟨holds, d⟩ := check
    cases holds with
    | false => exact h
    | true => exact ih h

/-! The rules of the three commands -/

/-- Settles O26: the encoding, legality, the two length checks in order and the accepted command, each by the lemma for all
commands. -/
theorem initRule : Obligations.InitRule := by
  unfold Obligations.InitRule
  intro dir klen nlen din kin s
  rw [exec_eq_execWith]
  have hnonce : coreParams.nonceBytes = 16 := rfl
  refine ⟨fun hk hn => decode_initWord dir hk hn din kin, fun hphase => ?_, fun hidle hklen => ?_, fun hidle hklen hnlen => ?_,
    fun hidle hklen hnlen => ?_⟩
  · exact execWith_illegal (decide_eq_false hphase)
  · exact execWith_failed (decide_eq_true hidle) (by simp [argChecks, keyBytes, hklen])
  · exact execWith_failed (decide_eq_true hidle) (by simp [argChecks, keyBytes, hnonce, hklen, hnlen])
  · exact execWith_accepted (decide_eq_true hidle) (by simp [argChecks, keyBytes, hnonce, hklen, hnlen])

/-- Settles O27: the encoding, legality, the length checks (`lengthChecks_some`) and the accepted block (`execWith_adblk`). -/
theorem adblkRule : Obligations.AdblkRule := by
  unfold Obligations.AdblkRule
  rintro last n din kin s d' kind rfl rfl
  rw [exec_eq_execWith, ← blockKind_eq]
  refine ⟨fun hn => decode_adblkWord last hn din kin, fun hphase => ?_, fun had hbad => ?_, fun had hlen hlast hne => ?_⟩
  · exact execWith_illegal (decide_eq_false hphase)
  · exact execWith_failed (decide_eq_true had) (lengthChecks_some hbad)
  · rw [← had]
    exact execWith_adblk coreParams (q := ⟨din, n, last⟩) had hlen hlast hne.symm

/-- Settles O28: as for ADBLK; the capacity check that follows the length checks holds in direction ENC (`execWith_msgblk_enc`). -/
theorem msgblkEncryptRule : Obligations.MsgblkEncryptRule := by
  unfold Obligations.MsgblkEncryptRule
  rintro last n din kin s d' kind henc rfl rfl
  rw [exec_eq_execWith, ← blockKind_eq]
  refine ⟨fun hn => decode_msgblkWord last hn din kin, fun hphase => ?_, fun hmsg hbad => ?_, fun hmsg hlen hlast hne => ?_⟩
  · exact execWith_illegal (decide_eq_false hphase)
  · exact execWith_failed (decide_eq_true hmsg) (firstFailed_append_some _ (lengthChecks_some hbad))
  · rw [← hmsg]
    exact execWith_msgblk_enc coreParams (q := ⟨din, n, last⟩) hmsg henc hlen hlast hne.symm

/-- Where recovered plaintext goes: block `holdWriteBlock` of the buffer and no other byte; nowhere for an empty block
(42_mode_engine.md R165). -/
theorem holdAppend_read {n : Nat} {v : Block} {s t : State} (h : holdAppend n v s = some t) :
    t.holdlen = s.holdlen + BitVec.ofNat 32 n ∧ (n = 0 → t.hold = s.hold) ∧
      (Memory.wf s.hold = true → Memory.wf t.hold = true ∧
        (n ≠ 0 → ∀ a, Memory.read t.hold a =
          if 16 * holdWriteBlock s ≤ a ∧ a < 16 * holdWriteBlock s + 16 then blockByte (trunc v n) (a - 16 * holdWriteBlock s)
          else Memory.read s.hold a)) := by
  rcases holdAppend_cases n v s with ⟨hn, e⟩ | ⟨hn, -, e⟩ | ⟨-, -, e⟩ <;> rw [e] at h
  · obtain rfl := Option.some.inj h
    have hkept : s.holdlen + BitVec.ofNat 32 n = s.holdlen := by rw [hn, BitVec.add_zero]
    exact ⟨hkept.symm, fun _ => rfl, fun hwf => ⟨hwf, fun hne => absurd hn hne⟩⟩
  · have hhold : t.hold = Memory.writeBlock s.hold (holdWriteBlock s) (trunc v n) := by rw [← Option.some.inj h]
    rw [hhold]
    exact ⟨by rw [← Option.some.inj h], fun hz => absurd hz hn,
      fun hwf => ⟨Memory.wf_writeBlock _ _ _ hwf, fun _ a => Memory.read_writeBlock s.hold _ _ a hwf⟩⟩
  · cases h

/-- Settles O29: as in direction ENC, the capacity check then deciding between the abort and the block held back, which changes HOLD
as `holdAppend_read` says. -/
theorem msgblkDecryptRule : Obligations.MsgblkDecryptRule := by
  unfold Obligations.MsgblkDecryptRule
  rintro last n din s d' plain kind hdec rfl rfl rfl
  rw [exec_eq_execWith, ← blockKind_eq]
  refine ⟨fun hphase => ?_, fun hmsg hbad => ?_, fun hmsg hlen hlast hne hfull => ?_, fun hmsg hlen hlast hne hfits => ?_⟩
  · exact execWith_illegal (decide_eq_false hphase)
  · exact execWith_failed (decide_eq_true hmsg) (firstFailed_append_some _ (lengthChecks_some hbad))
  · exact execWith_msgblk_overflow coreParams (q := ⟨din, n, last⟩) hmsg hdec hlen hlast hne.symm hfull
  · obtain ⟨u, hu, hx⟩ := execWith_msgblk_held coreParams (q := ⟨din, n, last⟩) hmsg hdec hlen hlast hne.symm hfits
    obtain ⟨hheld, hzero, hread⟩ := holdAppend_read hu
    rw [trunc_streamXor] at hread
    refine ⟨u.hold, ?_, hzero, hread⟩
    rw [← hmsg, hx, holdAppend_frame hu, hheld]
    rfl

end Sys2Proof.Machine
end

section
/-! PROOFS, family 43_tag_and_release. An unverified decryption seen through its responses; the words of the five commands as numbers;
the rules of GETTAG, VERIFY, RDBUF, CLEAR and RDSTAT. The lemmas about commands speak of arbitrary parameters, and this hardware is the
case `coreParams`. -/

namespace Sys2Proof.Machine

/-! States that agree but for Y, DELTA, RK and HOLD (43_tag_and_release.md R194) -/

/-- An abort wipes all in which the states may differ. -/
theorem SamePublic.abort_eq {s s' : State} (h : SamePublic s s') (p : Params) (c : Code) : abort p c s = abort p c s' := by
  simp only [abort, zeroise, respond, h.cfg, h.pending]

/-- So does the zeroisation of CLEAR. -/
theorem SamePublic.cleared_eq {s s' : State} (h : SamePublic s s') (p : Params) :
    complete 0 0 (zeroise p s) = complete 0 0 (zeroise p s') := by
  simp only [complete, zeroise, respond, h.cfg, h.pending]

theorem SamePublic.statusWord_eq {s s' : State} (h : SamePublic s s') : statusWord s = statusWord s' := by
  simp only [statusWord, h.phase, h.dir, h.first, h.holdlen, h.lastcode]

theorem SamePublic.complete {s s' : State} (h : SamePublic s s') (d : Block) (n : Nat) :
    SamePublic (complete d n s) (complete d n s') :=
  { h with lastcode := rfl, resp := rfl }

theorem SamePublic.adblkAccept {s s' : State} (h : SamePublic s s') (p : Params) (last : Bool) (len : Nat) (din : Block) :
    SamePublic (adblkAccept p last len din s) (adblkAccept p last len din s') :=
  { h with phase := congrArg (phaseAfterAd last) h.phase, first := rfl, lastcode := rfl, resp := rfl }

/-- The plaintext moves the chain on, and nothing public. -/
theorem SamePublic.msgblkChain {s s' : State} (h : SamePublic s s') (p : Params) (last : Bool) (len : Nat) (plain plain' : Block) :
    SamePublic (msgblkChain p last len plain s) (msgblkChain p last len plain' s') :=
  { h with phase := congrArg (phaseAfterMsg last) h.phase, first := rfl }

/-- Plaintext of one length, whatever it is, moves HOLDLEN on alike. -/
theorem SamePublic.holdAppend {s s' t t' : State} {n : Nat} {v v' : Block} (h : SamePublic s s')
    (ht : holdAppend n v s = some t) (ht' : holdAppend n v' s' = some t') : SamePublic t t' := by
  obtain ⟨hlen, -⟩ := holdAppend_read ht
  obtain ⟨hlen', -⟩ := holdAppend_read ht'
  rw [holdAppend_frame ht, holdAppend_frame ht']
  exact { h with holdlen := by rw [hlen, hlen', h.holdlen] }

theorem SamePublic.holdBytes_eq {s s' : State} (h : SamePublic s s') : s'.holdBytes = s.holdBytes := by
  simp only [State.holdBytes, State.holdBlocks, h.cfg]

theorem SamePublic.legal_eq {s s' : State} (h : SamePublic s s') (i : Instr) :
    legal i s'.phase s'.dir = legal i s.phase s.dir := by
  rw [h.phase, h.dir]

/-- No command but VERIFY checks its arguments against anything secret. -/
theorem SamePublic.argChecks_eq {i : Instr} {s s' : State} (h : SamePublic s s') (hi : isVerify i = false) (p : Params) :
    argChecks p i s' = argChecks p i s := by
  cases i with
  | adblk last len din => rw [argChecks, argChecks, h.first]
  | msgblk last len din =>
    have hfits : holdFits len s' = holdFits len s := by simp [holdFits, h.dir, h.holdlen, h.holdBytes_eq]
    rw [argChecks, argChecks, h.first, hfits]
  | rdbuf idx => rw [argChecks, argChecks, h.holdlen]
  | verify len din => cases hi
  | _ => rfl

/-- VERIFY reads the tag and Y through their equality alone (43_tag_and_release.md R198). -/
theorem argChecks_verify_congr (p : Params) (n : Nat) {din din' : Block} {s s' : State} (h : din = s.y ↔ din' = s'.y) :
    argChecks p (.verify n din') s' = argChecks p (.verify n din) s := by
  simp only [argChecks, h]

/-! An unverified decryption (43_tag_and_release.md R194) -/

/-- What the table of 30_encoding.md R76 leaves legal while a decryption is unverified, VERIFY apart: no GETTAG, no RDBUF. -/
theorem Unverified.legal_cases {i : Instr} {s : State} (hs : Unverified s) (hi : isVerify i = false)
    (hlegal : legal i s.phase s.dir = true) :
    (∃ last len din, i = .adblk last len din ∧ s.phase = .ad) ∨ (∃ last len din, i = .msgblk last len din ∧ s.phase = .msg) ∨
      i = .clear ∨ i = .rdstat := by
  obtain ⟨hdec, hphase⟩ := hs
  cases i with
  | adblk last len din => exact .inl ⟨last, len, din, rfl, of_decide_eq_true hlegal⟩
  | msgblk last len din => exact .inr (.inl ⟨last, len, din, rfl, of_decide_eq_true hlegal⟩)
  | clear => exact .inr (.inr (.inl rfl))
  | rdstat => exact .inr (.inr (.inr rfl))
  | encblk klen dlen din kin => simp [of_decide_eq_true hlegal] at hphase
  | init dir klen nlen din kin => simp [of_decide_eq_true hlegal] at hphase
  | rdbuf idx => simp [of_decide_eq_true hlegal] at hphase
  | gettag => simp [legal, hdec] at hlegal
  | verify len din => cases hi

theorem Unverified.adblkAccept {s : State} (hs : Unverified s) (had : s.phase = .ad) (p : Params) (last : Bool) (len : Nat)
    (din : Block) : Unverified (adblkAccept p last len din s) := by
  refine ⟨hs.1, ?_⟩
  rw [adblkAccept_phase, had]
  cases last <;> simp [phaseAfterAd]

theorem Unverified.msgblkChain {s : State} (hs : Unverified s) (hmsg : s.phase = .msg) (p : Params) (last : Bool) (len : Nat)
    (plain : Block) : Unverified (msgblkChain p last len plain s) := by
  refine ⟨hs.1, ?_⟩
  rw [msgblkChain_phase, hmsg]
  cases last <;> simp [phaseAfterMsg]

theorem Unverified.holdAppend {s t : State} {n : Nat} {v : Block} (hs : Unverified s) (h : holdAppend n v s = some t) :
    Unverified t := by
  rw [holdAppend_frame h]
  exact hs

theorem Unverified.complete {s : State} (hs : Unverified s) (d : Block) (n : Nat) : Unverified (complete d n s) := hs

/-- The relation that the commands keep: one decryption, still unverified, with other secrets, or states that no longer differ. -/
def Indistinguishable (s s' : State) : Prop := (Unverified s ∧ SamePublic s s') ∨ s = s'

theorem Indistinguishable.resp_eq {s s' : State} (h : Indistinguishable s s') : s.resp = s'.resp := by
  rcases h with ⟨-, h⟩ | rfl
  · exact h.resp
  · rfl

/-- A message block of an unverified decryption that fits is held back in both states, and the response carries no data. -/
theorem SamePublic.msgblkAccept {s s' : State} (h : SamePublic s s') (hs : Unverified s) (hmsg : s.phase = .msg) (p : Params)
    (last : Bool) {len : Nat} (din : Block) (hfits : holdFits len s = true) :
    ∃ t t', msgblkAccept p last len din s = .next t ∧ msgblkAccept p last len din s' = .next t' ∧ Unverified t ∧
      SamePublic t t' := by
  have hdec : s.dir = .dec := hs.1
  have hdec' : s'.dir = .dec := h.dir ▸ hdec
  have hroom : s.holdlen.toNat + len ≤ s.holdBytes := by simpa [holdFits, hdec] using hfits
  have hroom' : s'.holdlen.toNat + len ≤ s'.holdBytes := by rwa [h.holdBytes_eq, ← h.holdlen]
  obtain ⟨u, hu⟩ := holdAppend_fits len (streamXor p din len s.y)
    (Machine.msgblkChain p last len (streamXor p din len s.y) s) hroom
  obtain ⟨u', hu'⟩ := holdAppend_fits len (streamXor p din len s'.y)
    (Machine.msgblkChain p last len (streamXor p din len s'.y) s') hroom'
  refine ⟨Machine.complete 0 0 u, Machine.complete 0 0 u', ?_, ?_, ?_, ?_⟩
  · rw [msgblkAccept_dec hdec, hu, Option.elim_some]
  · rw [msgblkAccept_dec hdec', hu', Option.elim_some]
  · exact ((hs.msgblkChain hmsg p last len _).holdAppend hu).complete 0 0
  · exact ((h.msgblkChain p last len _ _).holdAppend hu hu').complete 0 0

/-- What a legal command other than VERIFY does keeps the relation: a block moves both decryptions on, CLEAR makes them equal,
RDSTAT answers what is public. -/
theorem accepted_indistinguishable {p : Params} {i : Instr} {s s' : State} (hi : isVerify i = false) (hs : Unverified s)
    (h : SamePublic s s') (hlegal : legal i s.phase s.dir = true) (hchecks : ∀ e ∈ argChecks p i s, e.1 = true) :
    ∃ t t', accepted p i s = .next t ∧ accepted p i s' = .next t' ∧ Indistinguishable t t' := by
  rcases hs.legal_cases hi hlegal with ⟨last, len, din, rfl, had⟩ | ⟨last, len, din, rfl, hmsg⟩ | rfl | rfl
  · exact ⟨_, _, rfl, rfl, .inl ⟨hs.adblkAccept had p last len din, h.adblkAccept p last len din⟩⟩
  · have hfits : holdFits len s = true := hchecks (holdFits len s, .errOverflow) (by simp [argChecks])
    obtain ⟨t, t', ht, ht', hend⟩ := h.msgblkAccept hs hmsg p last din hfits
    exact ⟨t, t', ht, ht', .inl hend⟩
  · exact ⟨_, _, rfl, rfl, .inr (h.cleared_eq p)⟩
  · exact ⟨_, _, rfl, rfl, .inl ⟨hs, { h with resp := by simp only [respond_resp, h.statusWord_eq] }⟩⟩

/-- A command other than VERIFY answers in both states and keeps the relation: its checks are the same in both, and an abort makes the
states equal. -/
theorem execWith_indistinguishable {p : Params} {i : Instr} {s s' : State} (hi : isVerify i = false) (hs : Unverified s)
    (h : SamePublic s s') :
    ∃ t t', execWith p i s = .next t ∧ execWith p i s' = .next t' ∧ Indistinguishable t t' := by
  rw [execWith_eq_guarded p i s, execWith_eq_guarded p i s', h.legal_eq i, h.argChecks_eq hi p]
  cases hf : firstFailed ((legal i s.phase s.dir, .errSeq) :: argChecks p i s) with
  | some c => exact ⟨_, _, guarded_abort hf, guarded_abort hf, .inr (h.abort_eq p c)⟩
  | none =>
    obtain ⟨hlegal, hchecks⟩ := List.forall_mem_cons.1 ((firstFailed_none_iff _).1 hf)
    rw [guarded_accept hf, guarded_accept hf]
    exact accepted_indistinguishable hi hs h hlegal hchecks

theorem responsesOf_cons {i : Instr} {s t : State} (is : List Instr) (hx : exec i s = .next t) :
    responsesOf (i :: is) s = t.resp :: responsesOf is t := by
  simp only [responsesOf, hx]

/-- Commands other than VERIFY, as many as the host presents, are answered the same from indistinguishable states. -/
theorem responsesOf_indistinguishable {is : List Instr} :
    ∀ {s s' : State}, (∀ i ∈ is, isVerify i = false) → Indistinguishable s s' → responsesOf is s = responsesOf is s' := by
  induction is with
  | nil => exact fun _ _ => rfl
  | cons i is ih =>
    rintro s s' hnone (⟨hs, h⟩ | rfl)
    · obtain ⟨hi, his⟩ := List.forall_mem_cons.1 hnone
      obtain ⟨t, t', hx, hx', hnext⟩ := execWith_indistinguishable (p := coreParams) hi hs h
      rw [← exec_eq_execWith] at hx hx'
      rw [responsesOf_cons is hx, responsesOf_cons is hx', hnext.resp_eq, ih his hnext]
    · rfl

/-- A VERIFY of a tag wrong in both states aborts with one code, and leaves nothing in which they differ (43_tag_and_release.md
R193). -/
theorem execWith_verify_wrong {n : Nat} {din : Block} {s s' : State} (p : Params) (h : SamePublic s s') (hne : din ≠ s.y)
    (hne' : din ≠ s'.y) : execWith p (.verify n din) s = execWith p (.verify n din) s' := by
  rw [execWith_eq_guarded p _ s, execWith_eq_guarded p _ s', h.legal_eq, argChecks_verify_congr p n (iff_of_false hne hne')]
  cases hf : firstFailed ((legal (.verify n din) s.phase s.dir, .errSeq) :: argChecks p (.verify n din) s) with
  | some c => rw [guarded_abort hf, guarded_abort hf, h.abort_eq p c]
  | none =>
    have htag : decide (din = s.y) = true :=
      (firstFailed_none_iff _).1 hf (decide (din = s.y), .errAuth) (by simp [argChecks])
    exact absurd (of_decide_eq_true htag) hne

/-- Settles O53: the responses by induction on the commands (`responsesOf_indistinguishable`), each of which keeps the relation; the
failing VERIFY by `execWith_verify_wrong`. -/
theorem unverifiedPlaintextIsNotObservable : Obligations.UnverifiedPlaintextIsNotObservable := by
  unfold Obligations.UnverifiedPlaintextIsNotObservable
  refine ⟨fun is s s' hnone hs h => responsesOf_indistinguishable hnone (.inl ⟨hs, h⟩), fun n din s s' _ h hne hne' => ?_⟩
  rw [exec_eq_execWith]
  exact execWith_verify_wrong coreParams h hne hne'

/-- Settles O49: tags alike in their equality with Y pass the same checks, and the accepted command does not read the tag. -/
theorem verifyDependsOnEqualityAlone : Obligations.VerifyDependsOnEqualityAlone := by
  unfold Obligations.VerifyDependsOnEqualityAlone
  intro n din din' s h
  rw [exec_eq_execWith, execWith_eq_guarded, execWith_eq_guarded, argChecks_verify_congr coreParams n h]
  rfl

/-! The words of the five commands as numbers (43_tag_and_release.md R190 to R196) -/

/-- A command that takes no operand but a count decodes whatever stands on DIN and KIN. -/
theorem decode_ignoring_operands {i : Instr} {cw : CmdWord} (hi : i.WellFormed) (henc : encode i = ⟨cw, 0, 0⟩)
    (ho : cw.extractLsb' 24 8 = 0x05#8 ∨ cw.extractLsb' 24 8 = 0x07#8 ∨ cw.extractLsb' 24 8 = 0x08#8 ∨
      cw.extractLsb' 24 8 = 0x09#8) (din kin : Block) : decode ⟨cw, din, kin⟩ = some i := by
  have hkin : cw.extractLsb' 24 8 ≠ 0x01#8 ∧ cw.extractLsb' 24 8 ≠ 0x02#8 := by
    rcases ho with h | h | h | h <;> rw [h] <;> decide
  calc decode ⟨cw, din, kin⟩
      = decode ⟨cw, 0, kin⟩ := decode_ignores_din din 0 kin ho
    _ = decode ⟨cw, 0, 0⟩ := decode_ignores_kin 0 kin 0 hkin.1 hkin.2
    _ = some i := by rw [← henc, decode_encode hi]

theorem decode_verifyWord {n : Nat} (hn : fitsArgField n) (din kin : Block) :
    decode ⟨BitVec.ofNat 32 (0x06000000 + n), din, kin⟩ = some (.verify n din) :=
  decode_blockWord (o := 0x06#8) (last := false) kin hn (decide_eq_true hn) rfl (by decide) (by decide)

theorem decode_rdbufWord {idx : Nat} (hidx : fitsArgField idx) (din kin : Block) :
    decode ⟨BitVec.ofNat 32 (0x07000000 + idx), din, kin⟩ = some (.rdbuf idx) := by
  have hword : commandWord 0x07#8 .enc false (BitVec.ofNat 16 idx) = BitVec.ofNat 32 (0x07000000 + idx) := by
    rw [commandWord_eq_ofNat, toNat_argCount hidx]
    rfl
  rw [← hword]
  exact decode_ignoring_operands (i := .rdbuf idx) (decide_eq_true hidx) rfl (.inr (.inl (Laws.commandWord_opcode ..))) din kin

/-! The rules of the five commands -/

/-- Settles O31: the encoding, legality, the length and the tag in order, and the accepted command, each by the lemma for all
commands. -/
theorem verifyRule : Obligations.VerifyRule := by
  unfold Obligations.VerifyRule
  intro n din kin s
  rw [exec_eq_execWith]
  refine ⟨fun hn => decode_verifyWord hn din kin, fun hseq => ?_, fun hfin hdec hlen => ?_, fun hfin hdec hlen hne => ?_,
    fun hfin hdec hlen heq => ?_⟩
  · exact execWith_illegal (by rcases hseq with h | h <;> simp [legal, h])
  · exact execWith_failed (by simp [legal, hfin, hdec]) (by simp [argChecks, tagBytes, hlen])
  · subst hlen
    exact execWith_verify_mismatch coreParams hfin hdec hne
  · subst hlen heq
    exact execWith_verify_match coreParams hfin hdec

/-- An accepted read of a block inside the buffer (43_tag_and_release.md R196). -/
theorem execWith_rdbuf_inside (p : Params) {s : State} {idx : Nat} (hrel : s.phase = .rel) (hidx : 16 * idx < s.holdlen.toNat)
    (hin : idx < s.holdBlocks) :
    execWith p (.rdbuf idx) s = .next (complete (readResponse s idx).dout (heldBytes idx s) s) := by
  have hread : memRead s idx (heldBytes idx s) = some (readResponse s idx).dout := if_pos hin
  calc execWith p (.rdbuf idx) s
      = accepted p (.rdbuf idx) s := execWith_accepted (decide_eq_true hrel) (by simp [argChecks, hidx])
    _ = .next (complete (readResponse s idx).dout (heldBytes idx s) s) := by simp only [accepted, hread]

/-- The block read, byte by byte: the held bytes, then zeros (20_memory.md R55). -/
theorem blockByte_readResponse (s : State) (idx : Nat) {j : Nat} (hj : j < 16) :
    blockByte (readResponse s idx).dout j = if j < heldBytes idx s then Memory.read s.hold (16 * idx + j) else 0 := by
  rw [readResponse, blockByte_trunc _ _ j hj, Memory.blockByte_readBlock s.hold idx j hj]

/-- Settles O32: the encoding, legality and the index check, then the held block (`execWith_rdbuf_inside`) by its bytes
(`blockByte_readResponse`). -/
theorem rdbufRule : Obligations.RdbufRule := by
  unfold Obligations.RdbufRule
  rintro idx n din kin s rfl
  rw [exec_eq_execWith]
  refine ⟨fun hidx => decode_rdbufWord hidx din kin, fun hseq => ?_, fun hrel hpast => ?_, fun hrel hidx hin => ?_,
    fun hidx hcap => by omega⟩
  · exact execWith_illegal (decide_eq_false hseq)
  · exact execWith_failed (decide_eq_true hrel) (by simpa [argChecks] using hpast)
  · exact ⟨_, execWith_rdbuf_inside coreParams hrel hidx hin, fun j hj => blockByte_readResponse s idx hj⟩

/-- Settles O30: GETTAG takes no operand, and its two checks are its legality. -/
theorem gettagRule : Obligations.GettagRule := by
  unfold Obligations.GettagRule
  intro s din kin
  rw [exec_eq_execWith]
  refine ⟨decode_ignoring_operands (i := .gettag) rfl (by decide) (by decide) din kin, fun hseq => ?_, fun hfin henc => ?_⟩
  · exact execWith_illegal (by rcases hseq with h | h <;> simp [legal, h])
  · exact execWith_gettag coreParams hfin henc

/-- Settles O34: CLEAR takes no operand, and zeroisation leaves the registers as reset does. -/
theorem clearRule : Obligations.ClearRule := by
  unfold Obligations.ClearRule
  exact fun s din kin => ⟨decode_ignoring_operands (i := .clear) rfl (by decide) (by decide) din kin, rfl⟩

/-- The status word by the weights of its fields (10_state.md R30). -/
theorem statusWord_eq_ofNat (s : State) :
    statusWord s = BitVec.ofNat 128 (s.holdlen.toNat * 2 ^ 32 + (codeByte s.lastcode).toNat * 2 ^ 8 + s.first.toNat * 2 ^ 4 +
      (dirBit s.dir).toNat * 2 ^ 3 + (phaseBits s.phase).toNat) := by
  have hvalue : (statusWord s).toNat = s.holdlen.toNat * 2 ^ 32 + (codeByte s.lastcode).toNat * 2 ^ 8 + s.first.toNat * 2 ^ 4 +
      (dirBit s.dir).toNat * 2 ^ 3 + (phaseBits s.phase).toNat := by
    simp only [statusWord, BitVec.toNat_append, ← Nat.shiftLeft_add_eq_or_of_lt (BitVec.isLt _)]
    simp only [Nat.shiftLeft_eq, BitVec.toNat_ofBool, BitVec.toNat_ofNat]
    omega
  rw [← hvalue, BitVec.ofNat_toNat, BitVec.setWidth_eq]

/-- Settles O35: RDSTAT takes no operand and answers the status word (`statusWord_eq_ofNat`). -/
theorem rdstatRule : Obligations.RdstatRule := by
  unfold Obligations.RdstatRule
  intro s din kin
  rw [← statusWord_eq_ofNat]
  exact ⟨decode_ignoring_operands (i := .rdstat) rfl (by decide) (by decide) din kin, rfl⟩

end Sys2Proof.Machine
end

section
/-! PROOFS, family 60_exceptions. A step with nothing presented; a command answered with a code other than OK; the code reported when
several causes are present. Lemmas about the commands speak of arbitrary parameters, and this hardware is the case `coreParams`. -/

namespace Sys2Proof.Machine

/-! Nothing at the port (60_exceptions.md R235) -/

theorem takeEvent_silent (p : Params) (run : Instr → State → Result) {s : State} (hp : s.pending = []) :
    takeEvent p run s = .next s := by
  simp only [takeEvent, hp, idleStep]

/-- Settles O10: the step is `takeEvent` with this hardware's commands, none of which runs (`takeEvent_silent`). -/
theorem silentPortKeepsState : Obligations.SilentPortKeepsState := by
  unfold Obligations.SilentPortKeepsState
  exact fun s hp => takeEvent_silent coreParams exec hp

/-! Every fault is the abort (60_exceptions.md R224) -/

/-- A command ends in the abort of its first failed check, or every check holds and it is answered OK. -/
theorem execWith_outcome {p : Params} {i : Instr} {s t : State} (h : execWith p i s = .next t) :
    (∃ c, firstFailed ((legal i s.phase s.dir, .errSeq) :: argChecks p i s) = some c ∧ t = abort p c s) ∨
    (firstFailed ((legal i s.phase s.dir, .errSeq) :: argChecks p i s) = none ∧ responseCode t = some .ok) := by
  rw [execWith_eq_guarded] at h
  rcases guarded_cases h with ⟨c, hfailed, ht⟩ | ⟨hnone, ht⟩
  · cases ht
    exact .inl ⟨c, hfailed, rfl⟩
  · have hlegal : legal i s.phase s.dir = true := (firstFailed_none_iff _).1 hnone _ List.mem_cons_self
    exact .inr ⟨hnone, (accepted_next hlegal ht.symm).1⟩

/-- A presented command, legal or not, that is not answered OK ends in the abort. -/
theorem stepWith_fault {p : Params} {s t : State} {c : Command} {rest : List HostEvent} (hp : s.pending = .command c :: rest)
    (hstep : stepWith p s = .next t) (hcode : responseCode t ≠ some .ok) : ∃ code, t = abort p code (sampled rest s) := by
  cases hd : decode c with
  | none =>
    cases (takeEvent_illegal p (execWith p) hp hd).symm.trans hstep
    exact ⟨.errIllegal, rfl⟩
  | some i =>
    rcases execWith_outcome ((takeEvent_command p (execWith p) hp hd).symm.trans hstep) with ⟨code, -, ht⟩ | ⟨-, hok⟩
    · exact ⟨code, ht⟩
    · exact absurd hok hcode

/-- The abort writes the reset value to every register but LASTCODE (10_state.md R31, R36). -/
theorem abort_eq_reset (c : Code) (s : State) :
    abort coreParams c s =
      { State.reset with cfg := s.cfg, pending := s.pending, lastcode := c, resp := some ⟨c, 0, 0⟩ } := rfl

/-- The word of a response without data is `code·2^24`. -/
theorem responseWord_empty (c : Code) : responseWord ⟨c, 0, 0⟩ = codeByte c ++ 0#24 := by
  cases c <;> rfl

/-- Settles O36: the state is the abort of some code (`stepWith_fault`), the response at its port is that code alone, and the abort
leaves the registers as reset does (`abort_eq_reset`). -/
theorem everyFaultAborts : Obligations.EveryFaultAborts := by
  unfold Obligations.EveryFaultAborts
  intro s t c rest r hp hstep hr hcode
  rw [step_eq_stepWith] at hstep
  obtain ⟨code, rfl⟩ := stepWith_fault hp hstep (by simpa [responseCode, hr] using hcode)
  obtain rfl : (⟨code, 0, 0⟩ : Response) = r := Option.some.inj hr
  exact ⟨rfl, rfl, responseWord_empty code, abort_eq_reset code (sampled rest s)⟩

/-! The code reported (60_exceptions.md R221, R223) -/

/-- Checks that say the causes absent, in the order of the causes, report the first cause present. -/
theorem firstFailed_map_not (present : Code → Bool) (causes : List Code) :
    firstFailed (causes.map fun c => (!present c, c)) = causes.find? present := by
  induction causes with
  | nil => rfl
  | cons c causes ih =>
    rw [List.map_cons, firstFailed_cons, ih, List.find?_cons]
    cases present c <;> rfl

/-- The three length checks of a block command are one check, that the cause of ERR_LEN is absent. -/
theorem firstFailed_lengthChecks_append (first last : Bool) (len : Nat) (later : List (Bool × Code)) :
    firstFailed (lengthChecks first last len ++ later) = firstFailed ((!badBlockLength first last len, .errLen) :: later) := by
  cases hbad : badBlockLength first last len with
  | true =>
    have hcause : len > 16 ∨ (last = false ∧ len ≠ 16) ∨ (len = 0 ∧ first = false) := by
      simpa [badBlockLength, or_assoc] using hbad
    exact firstFailed_append_some later (lengthChecks_some hcause)
  | false =>
    obtain ⟨hle, hlast, hne⟩ : len ≤ 16 ∧ (last = true ∨ len = 16) ∧ (len ≠ 0 ∨ first = true) := by
      simpa [badBlockLength, or_iff_not_imp_left, and_assoc] using hbad
    exact firstFailed_append later ((lengthChecks_none first last len).2 ⟨hle, hlast, hne.symm⟩)

/-- The capacity check of MSGBLK says that the cause of ERR_OVERFLOW is absent. -/
theorem holdFits_eq_not_cause (last : Bool) (len : Nat) (din : Block) (s : State) :
    holdFits len s = !causePresent (.msgblk last len din) s .errOverflow := by
  have hbytes : s.holdBytes = 16 * s.holdBlocks := rfl
  rw [Bool.eq_iff_iff]
  rcases dir_cases s.dir with hdir | hdir <;> simp [holdFits, causePresent, hdir, hbytes]

/-- R223 command by command: the checks in their order report the first cause present in the order of the rule. Only the block
commands state a cause otherwise than as the failure of one check. The spec's table names a nonce of 16 bytes. -/
theorem firstFailed_checks_eq_find {p : Params} (hnonce : p.nonceBytes = 16) (i : Instr) (s : State) :
    firstFailed ((legal i s.phase s.dir, .errSeq) :: argChecks p i s) = faultPriority.find? (causePresent i s) := by
  have hkey : keyBytes = 16 := rfl
  have hblock : blockBytes = 16 := rfl
  have htag : tagBytes = 16 := rfl
  rw [← firstFailed_map_not]
  cases i with
  | adblk last len din =>
    have hlen := firstFailed_lengthChecks_append s.first last len []
    rw [List.append_nil] at hlen
    simp [faultPriority, causePresent, argChecks, hlen]
  | msgblk last len din =>
    rw [argChecks, firstFailed_cons, firstFailed_lengthChecks_append, holdFits_eq_not_cause last len din]
    simp [faultPriority, causePresent]
  | _ => simp [faultPriority, causePresent, argChecks, hkey, hblock, htag, hnonce]

/-- A decoded command answers the code that R221 and R223 give it: the code of its abort, or OK where no cause is present. -/
theorem execWith_reportedCode {p : Params} (hnonce : p.nonceBytes = 16) {i : Instr} {s t : State}
    (h : execWith p i s = .next t) : responseCode t = some (reportedCode i s) := by
  rw [reportedCode, ← firstFailed_checks_eq_find hnonce]
  rcases execWith_outcome h with ⟨c, hfailed, rfl⟩ | ⟨hnone, hok⟩
  · rw [hfailed]
    rfl
  · rw [hnone]
    exact hok

/-- Settles O37: decoded commands by `execWith_reportedCode`; a word that does not decode aborts before any other check. -/
theorem reportedCodeFollowsPriority : Obligations.ReportedCodeFollowsPriority := by
  unfold Obligations.ReportedCodeFollowsPriority
  refine ⟨fun i s t h => ?_, fun s t c rest hp hd hstep => ?_⟩
  · rw [exec_eq_execWith] at h
    exact execWith_reportedCode rfl h
  · cases (takeEvent_illegal coreParams exec hp hd).symm.trans hstep
    rfl

end Sys2Proof.Machine
end

section
/-! PROOFS, family 70_reset_and_hazards. What the reset event writes, and that no step writes the parameters. Lemmas about the steps
speak of arbitrary parameters, and this hardware is the case `coreParams`. -/

namespace Sys2Proof.Machine

/-! Reset (70_reset_and_hazards.md R250) -/

/-- A reset at the head of the port takes effect between commands: no command runs (60_exceptions.md R228). -/
theorem takeEvent_reset (p : Params) (run : Instr → State → Result) {s : State} {rest : List HostEvent}
    (hp : s.pending = .reset :: rest) : takeEvent p run s = .next (resetEvent p (sampled rest s)) := by
  simp only [takeEvent, hp]

/-- The reset event writes all that a state holds but the OPEN parameters and what the host does next. -/
theorem resetEvent_eq_resetWith (p : Params) (s : State) :
    resetEvent p s = { State.resetWith p with cfg := s.cfg, pending := s.pending } := rfl

/-- Settles O8: the step is the reset event (`takeEvent_reset`), which keeps only the parameters and the rest of the script
(`resetEvent_eq_resetWith`). -/
theorem resetEventRestoresReset : Obligations.ResetEventRestoresReset := by
  unfold Obligations.ResetEventRestoresReset
  intro s rest hp
  rw [step, takeEvent_reset coreParams exec hp, resetEvent_eq_resetWith]
  rfl

/-! The parameters (70_reset_and_hazards.md R251) -/

/-- What an accepted command writes leaves the parameters alone; of the two commands that may stop, MSGBLK writes the buffer besides
its chain, and RDBUF only answers. -/
theorem accepted_keeps_cfg {p : Params} {i : Instr} {s t : State} (h : accepted p i s = .next t) : t.cfg = s.cfg := by
  cases i with
  | msgblk last len din =>
    obtain ⟨_, _, _, rfl⟩ := msgblkAccept_next h
    rfl
  | rdbuf idx =>
    rcases memRead_cases s idx (heldBytes idx s) with ⟨-, e⟩ | ⟨-, e⟩
    · simp only [accepted, e] at h
      cases h
      rfl
    · simp [accepted, e] at h
  | _ => cases h; rfl

/-- A command keeps the parameters, whether it aborts or is accepted. -/
theorem execWith_keeps_cfg {p : Params} {i : Instr} {s t : State} (h : execWith p i s = .next t) : t.cfg = s.cfg := by
  rw [execWith_eq_guarded] at h
  rcases guarded_cases h with ⟨c, -, ht⟩ | ⟨-, ht⟩
  · cases ht
    exact abort_cfg p c s
  · exact accepted_keeps_cfg ht.symm

/-- A step keeps the parameters, whatever the host presents. -/
theorem stepWith_keeps_cfg {p : Params} {s t : State} (hstep : stepWith p s = .next t) : t.cfg = s.cfg := by
  unfold stepWith at hstep
  rcases takeEvent_cases p (execWith p) s with ⟨-, e⟩ | ⟨rest, -, e⟩ | ⟨c, rest, i, -, -, e⟩ | ⟨c, rest, -, -, e⟩ <;>
    rw [e] at hstep
  · cases hstep; rfl
  · cases hstep; exact resetEvent_cfg p (sampled rest s)
  · exact (execWith_keeps_cfg hstep).trans (sampled_cfg rest s)
  · cases hstep; exact abort_cfg p .errIllegal (sampled rest s)

/-- Settles O45: the case `coreParams` of `stepWith_keeps_cfg`. -/
theorem parametersAreNeverWritten : Obligations.ParametersAreNeverWritten := by
  unfold Obligations.ParametersAreNeverWritten
  intro s t hstep
  rw [step_eq_stepWith] at hstep
  exact stepWith_keeps_cfg hstep

end Sys2Proof.Machine
end
